-- ==== Sys2Proof/Word.lean ====
section
/-! DEFINITION. The word types of the LZ decompressor block (spec 00_scope.md R6 to R8, 10_state.md R11, R14). -/

namespace Sys2Proof

/-- A byte is 8 bits (R8). -/
abbrev Byte := BitVec 8

/-- AW = 32 bits: every offset, length and counter of the LZ unit, and a host-visible register as the host
reads and writes it (R7, R14). -/
abbrev Word := BitVec 32

/-- One entry of T_OUT: a 4-bit colour index (R6, R33). -/
abbrev Index4 := BitVec 4

/-- The packed 15-bit colour word in its 16-bit register C_IN (R6, R31). -/
abbrev ColourWord := BitVec 16

end Sys2Proof
end

