-- ==== Sys2Proof/Config.lean ====
section
/-! DEFINITION. The sizes the spec fixes (00_scope.md R6, R7) and the one capacity it leaves open. -/

namespace Sys2Proof.Config

/-- TILE_BYTES (R6). -/
def tileBytes : Nat := 32

/-- The number of entries of T_OUT: TILE_ROWS * TILE_COLS (R6, R33). -/
def tileEntries : Nat := 64

/-- RUN_MAX_SHORT, a consequence of L0 (R7). -/
def runMaxShort : Nat := 32

/-- RUN_MAX_LONG, a consequence of L0 (R7). -/
def runMaxLong : Nat := 1024

/-- The capacities that R7 admits: 1 <= OUT_CAP <= 2^32 - 1. -/
abbrev outCapLegal (outCap : Word) : Prop := 1 ≤ outCap.toNat ∧ outCap.toNat ≤ 2 ^ 32 - 1

/-- The OUT_CAP that the test vectors use (R7). OUT_CAP itself is OPEN and is data of the state
(DESIGN CHOICE, log 3): this number is only what `State.reset` holds. -/
def outCapOfVectors : Word := 65536

end Sys2Proof.Config
end

