-- ==== Sys2Proof/Syntax.lean ====
section
/-! DEFINITION. The instructions: one constructor per row of spec/opcode_table.json. The tokens are those of
layout L0 (30_encoding.md R61 to R70) with their header fields and operands; the three host commands are R73's. -/

namespace Sys2Proof

/-- What the block executes. A field `len` is the encoded run length minus 1 (R62, R63), `lenHi` the ignored
length bits of a reserved long control byte, `dist` the back-reference distance d (R68). -/
inductive Instr where
  /-- END, the terminator (format T, R64, R126). -/
  | endStream
  /-- LIT, short literal run (format S, op 000, R121). -/
  | lit (len : BitVec 5)
  /-- BREF, short back-reference run (format S, op 100, R123). -/
  | bref (len : BitVec 5) (dist : BitVec 16)
  /-- LITX, long literal run (format X, op 000, R122). -/
  | litx (len : BitVec 10)
  /-- BREFX, long back-reference run (format X, op 100, R124). -/
  | brefx (len : BitVec 10) (dist : BitVec 16)
  /-- Reserved short operation 001 (R125). -/
  | reservedS001 (len : BitVec 5)
  /-- Reserved short operation 010 (R125). -/
  | reservedS010 (len : BitVec 5)
  /-- Reserved short operation 011 (R125). -/
  | reservedS011 (len : BitVec 5)
  /-- Reserved short operation 101 (R125). -/
  | reservedS101 (len : BitVec 5)
  /-- Reserved short operation 110 (R125). -/
  | reservedS110 (len : BitVec 5)
  /-- Reserved long operation 001 (R125). -/
  | reservedX001 (lenHi : BitVec 2)
  /-- Reserved long operation 010 (R125). -/
  | reservedX010 (lenHi : BitVec 2)
  /-- Reserved long operation 011 (R125). -/
  | reservedX011 (lenHi : BitVec 2)
  /-- Reserved long operation 101 (R125). -/
  | reservedX101 (lenHi : BitVec 2)
  /-- Reserved long operation 110 (R125). -/
  | reservedX110 (lenHi : BitVec 2)
  /-- Reserved long operation 111: 0xFC to 0xFE only, since 0xFF is END (R65, R125). -/
  | reservedX111 (lenHi : BitVec 2)
  /-- LZ.START: the host writes 1 to LZ_CMD (R73, R102). -/
  | lzStart
  /-- TILE.DEC: the host writes 1 to T_CMD (R73, R91). -/
  | tileDec
  /-- COL.CONV: the host writes C_IN (R73, R80). -/
  | colConv (word : ColourWord)
deriving DecidableEq, Repr

end Sys2Proof
end

