-- ==== Sys2Proof/WellFormed.lean ====
section
/-! DEFINITION. Which terms of `Instr` are instructions of the spec. The fields' types already bound every
field; the one relation between fields left is the terminator's priority (30_encoding.md R65). -/

namespace Sys2Proof

/-- A reserved long operation 111 with lenhi = 11 would be the byte 0xFF, which is END (R65): it is no
instruction. Every other term is one. -/
def Instr.wellFormed : Instr → Bool
  | .reservedX111 lenHi => lenHi != 3
  | .endStream | .lit _ | .bref _ _ | .litx _ | .brefx _ _ => true
  | .reservedS001 _ | .reservedS010 _ | .reservedS011 _ | .reservedS101 _ | .reservedS110 _ => true
  | .reservedX001 _ | .reservedX010 _ | .reservedX011 _ | .reservedX101 _ | .reservedX110 _ => true
  | .lzStart | .tileDec | .colConv _ => true

/-- The instructions that stand in the token stream; the other three are host commands (R73). -/
def Instr.isToken : Instr → Bool
  | .lzStart | .tileDec | .colConv _ => false
  | .endStream | .lit _ | .bref _ _ | .litx _ | .brefx _ _ => true
  | .reservedS001 _ | .reservedS010 _ | .reservedS011 _ | .reservedS101 _ | .reservedS110 _ => true
  | .reservedX001 _ | .reservedX010 _ | .reservedX011 _ | .reservedX101 _ | .reservedX110 _
  | .reservedX111 _ => true

end Sys2Proof
end

