-- ==== Sys2Proof/Decode.lean ====
section
/-! DEFINITION. Layout L0 (30_encoding.md): the fields of a header, the decoder, the encoder, the host commands'
register writes (R73), the pseudo-instructions of R75, and a table word as the host of this row numbers it. -/

namespace Sys2Proof

/-! ### Fields of the header bytes (R62, R63, R67, R68) -/

/-- Bits 7:5 of a control byte: op in format S, the escape in format X. -/
def opShort (c : Byte) : BitVec 3 := c.extractLsb' 5 3

/-- Bits 4:0 of a control byte: len in format S. -/
def lenShort (c : Byte) : BitVec 5 := c.extractLsb' 0 5

/-- Bits 4:2 of a control byte: op in format X. -/
def opLong (c : Byte) : BitVec 3 := c.extractLsb' 2 3

/-- Bits 1:0 of a control byte: lenhi in format X. -/
def lenHigh (c : Byte) : BitVec 2 := c.extractLsb' 0 2

/-- The 10-bit len of format X: its two high bits in the control byte, the low eight in the next (R67). -/
def lenLong (c b : Byte) : BitVec 10 := lenHigh c ++ b

/-- d = d0 | (d1 << 8), low byte first (R68). -/
def distanceOf (d0 d1 : Byte) : BitVec 16 := d1 ++ d0

/-! ### The decoder -/

/-- A reader of one header: it has its answer, or it needs the next source byte. Header and operand bytes are so
read one after the other, in increasing offset order (R60), whoever supplies them. -/
inductive HeaderReader (α : Type) where
  | done (a : α)
  | fetch (k : Byte → HeaderReader α)

/-- The same reading with its answer passed on through `f`. -/
def HeaderReader.map {α β : Type} (f : α → β) : HeaderReader α → HeaderReader β
  | .done a => .done (f a)
  | .fetch k => .fetch fun b => (k b).map f

/-- The two distance bytes, d0 first (R68). -/
def readDistance (f : BitVec 16 → Instr) : HeaderReader Instr :=
  .fetch fun d0 => .fetch fun d1 => .done (f (distanceOf d0 d1))

/-- Format X (R63): the operation is recognised from the control byte alone, so that a reserved code reads no
second header byte (R120, R125). -/
def readLongHeader (c : Byte) : HeaderReader Instr :=
  match (opLong c).toNat with
  | 0 => .fetch fun b => .done (.litx (lenLong c b))
  | 1 => .done (.reservedX001 (lenHigh c))
  | 2 => .done (.reservedX010 (lenHigh c))
  | 3 => .done (.reservedX011 (lenHigh c))
  | 4 => .fetch fun b => readDistance (.brefx (lenLong c b))
  | 5 => .done (.reservedX101 (lenHigh c))
  | 6 => .done (.reservedX110 (lenHigh c))
  | _ => .done (.reservedX111 (lenHigh c))   -- a 3-bit field: 7

/-- The control byte's class, in the order of R65: format T, then format X, then format S. -/
def readHeader (c : Byte) : HeaderReader Instr :=
  if c = 0xFF then .done .endStream
  else match (opShort c).toNat with
    | 0 => .done (.lit (lenShort c))
    | 1 => .done (.reservedS001 (lenShort c))
    | 2 => .done (.reservedS010 (lenShort c))
    | 3 => .done (.reservedS011 (lenShort c))
    | 4 => readDistance (.bref (lenShort c))
    | 5 => .done (.reservedS101 (lenShort c))
    | 6 => .done (.reservedS110 (lenShort c))
    | _ => readLongHeader c                  -- a 3-bit field: 7, the escape

/-- Why bytes are no whole header. -/
inductive DecodeError where
  /-- There is no byte at all. -/
  | noControlByte
  /-- The second header byte or a distance byte is missing. -/
  | headerCutShort
deriving DecidableEq, Repr

/-- A reader fed from a list of bytes; the bytes it does not need are handed back. -/
def HeaderReader.feed {α : Type} : HeaderReader α → List Byte → Except DecodeError (α × List Byte)
  | .done a, bs => .ok (a, bs)
  | .fetch _, [] => .error .headerCutShort
  | .fetch k, b :: bs => (k b).feed bs

/-- The decoder on any bytes: the token whose header and operand they begin with, and the rest. Every control
byte has a class (R70), so only missing bytes are refused. -/
def decode : List Byte → Except DecodeError (Instr × List Byte)
  | [] => .error .noControlByte
  | c :: bs => (readHeader c).feed bs

/-- How many bytes follow the control byte in the header and the operand (R69). -/
def bytesAfterControl (c : Byte) : Nat :=
  if c = 0xFF then 0
  else match (opShort c).toNat with
    | 4 => 2
    | 7 => match (opLong c).toNat with
      | 0 => 1
      | 4 => 3
      | _ => 0
    | _ => 0

/-- The host command that a register write is, if it is one (R73): any other value written to LZ_CMD or T_CMD,
and a write of any other register, is none. C_IN takes the low 16 bits of the written word (log 13). -/
def decodeHostWrite (reg : Nat) (value : Word) : Option Instr :=
  match reg with
  | 0 => if value = 1 then some .lzStart else none
  | 16 => if value = 1 then some .tileDec else none
  | 24 => some (.colConv (value.setWidth 16))
  | _ => none

/-- The form in which an instruction reaches the block: bytes of the source slice, or a register write. -/
inductive MachineCode where
  | bytes (bs : List Byte)
  | hostWrite (reg : Nat) (value : Word)
deriving DecidableEq, Repr

/-- The instruction of a code, if there is one. -/
def decodeCode : MachineCode → Option Instr
  | .bytes bs => match decode bs with
    | .ok (i, _) => some i
    | .error _ => none
  | .hostWrite reg value => decodeHostWrite reg value

/-! ### The encoder (R62 to R68, R74) -/

/-- A format S control byte (R62). -/
def shortControl (op : BitVec 3) (len : BitVec 5) : Byte := op ++ len

/-- A format X control byte (R63). -/
def longControl (op : BitVec 3) (lenHi : BitVec 2) : Byte := (0b111#3 ++ op) ++ lenHi

/-- Low byte first (R68). -/
def distanceBytes (dist : BitVec 16) : List Byte := [dist.extractLsb' 0 8, dist.extractLsb' 8 8]

/-- The two header bytes of format X. -/
def longHeader (op : BitVec 3) (len : BitVec 10) : List Byte :=
  [longControl op (len.extractLsb' 8 2), len.extractLsb' 0 8]

/-- Header and operand bytes of a token (R74); a host command has none. -/
def tokenBytes : Instr → List Byte
  | .endStream => [0xFF]
  | .lit len => [shortControl 0b000 len]
  | .bref len dist => shortControl 0b100 len :: distanceBytes dist
  | .litx len => longHeader 0b000 len
  | .brefx len dist => longHeader 0b100 len ++ distanceBytes dist
  | .reservedS001 len => [shortControl 0b001 len]
  | .reservedS010 len => [shortControl 0b010 len]
  | .reservedS011 len => [shortControl 0b011 len]
  | .reservedS101 len => [shortControl 0b101 len]
  | .reservedS110 len => [shortControl 0b110 len]
  | .reservedX001 lenHi => [longControl 0b001 lenHi]
  | .reservedX010 lenHi => [longControl 0b010 lenHi]
  | .reservedX011 lenHi => [longControl 0b011 lenHi]
  | .reservedX101 lenHi => [longControl 0b101 lenHi]
  | .reservedX110 lenHi => [longControl 0b110 lenHi]
  | .reservedX111 lenHi => [longControl 0b111 lenHi]
  | .lzStart | .tileDec | .colConv _ => []

/-- The code of an instruction: a token's bytes, or the register write of a host command (R73). -/
def encode : Instr → MachineCode
  | .lzStart => .hostWrite 0 1
  | .tileDec => .hostWrite 16 1
  | .colConv word => .hostWrite 24 (word.setWidth 32)
  | .endStream => .bytes (tokenBytes .endStream)
  | .lit len => .bytes (tokenBytes (.lit len))
  | .bref len dist => .bytes (tokenBytes (.bref len dist))
  | .litx len => .bytes (tokenBytes (.litx len))
  | .brefx len dist => .bytes (tokenBytes (.brefx len dist))
  | .reservedS001 len => .bytes (tokenBytes (.reservedS001 len))
  | .reservedS010 len => .bytes (tokenBytes (.reservedS010 len))
  | .reservedS011 len => .bytes (tokenBytes (.reservedS011 len))
  | .reservedS101 len => .bytes (tokenBytes (.reservedS101 len))
  | .reservedS110 len => .bytes (tokenBytes (.reservedS110 len))
  | .reservedX001 lenHi => .bytes (tokenBytes (.reservedX001 lenHi))
  | .reservedX010 lenHi => .bytes (tokenBytes (.reservedX010 lenHi))
  | .reservedX011 lenHi => .bytes (tokenBytes (.reservedX011 lenHi))
  | .reservedX101 lenHi => .bytes (tokenBytes (.reservedX101 lenHi))
  | .reservedX110 lenHi => .bytes (tokenBytes (.reservedX110 lenHi))
  | .reservedX111 lenHi => .bytes (tokenBytes (.reservedX111 lenHi))

/-! ### Pseudo-instructions (R75): notation, not part of the machine -/

/-- One literal token with its payload: LIT when it fits, LITX otherwise; for 1 to 1024 payload bytes. -/
def literalToken (payload : List Byte) : List Byte :=
  tokenBytes (if payload.length ≤ Config.runMaxShort then .lit (BitVec.ofNat 5 (payload.length - 1))
    else .litx (BitVec.ofNat 10 (payload.length - 1))) ++ payload

/-- LITERAL with at most `fuel` tokens: maximal tokens, then one for the remainder. -/
def literalTokens : Nat → List Byte → List Byte
  | 0, _ => []
  | fuel + 1, payload =>
    if payload.length = 0 then []
    else literalToken (payload.take Config.runMaxLong) ++ literalTokens fuel (payload.drop Config.runMaxLong)

/-- LITERAL bytes (R75). -/
def literalStream (payload : List Byte) : List Byte := literalTokens payload.length payload

/-- The one copy token of n bytes at distance `dist`, for 1 to 1024 bytes. -/
def copyToken (n : Nat) (dist : BitVec 16) : List Byte :=
  tokenBytes (if n ≤ Config.runMaxShort then .bref (BitVec.ofNat 5 (n - 1)) dist
    else .brefx (BitVec.ofNat 10 (n - 1)) dist)

/-- COPY with at most `fuel` tokens. -/
def copyTokens : Nat → Nat → BitVec 16 → List Byte
  | 0, _, _ => []
  | fuel + 1, n, dist =>
    if n = 0 then []
    else copyToken (min n Config.runMaxLong) dist ++ copyTokens fuel (n - Config.runMaxLong) dist

/-- COPY n, d (R75). -/
def copyStream (n : Nat) (dist : BitVec 16) : List Byte := copyTokens n n dist

/-- FILL v, n for n >= 1: LIT v, then COPY n - 1, 1 when n >= 2 (R75). -/
def fillStream (v : Byte) (n : Nat) : List Byte := literalStream [v] ++ copyStream (n - 1) 1

/-! ### A table word (the fixed names of this row; log 14) -/

/-- The four bytes of a number, the lowest first: the longest header is four bytes (R69). -/
def wordBytes (w : Nat) : List Byte :=
  [BitVec.ofNat 8 w, BitVec.ofNat 8 (w / 2 ^ 8), BitVec.ofNat 8 (w / 2 ^ 16), BitVec.ofNat 8 (w / 2 ^ 24)]

/-- A table row's word as a code. 16 bits is a write of C_IN, the one 16-bit register; 32 bits a write of
register 0, LZ_CMD; 40 bits a write of the register numbered by bits 39:32; anything else is token bytes.
The table gives LZ.START and TILE.DEC the SAME 32-bit word and leaves the register number out of it, so a
32-bit word is read with register number 0 (DESIGN CHOICE, log 14). -/
def tableCode (nbits w : Nat) : MachineCode :=
  let v := w % 2 ^ nbits
  if nbits = 16 then .hostWrite 24 (BitVec.ofNat 32 v)
  else if nbits = 32 then .hostWrite 0 (BitVec.ofNat 32 v)
  else if nbits = 40 then .hostWrite (v / 2 ^ 32) (BitVec.ofNat 32 v)
  else .bytes (wordBytes v)

/-- The instruction this decoder reads from a table row's word. -/
def decodeTableWord (nbits w : Nat) : Option Instr := decodeCode (tableCode nbits w)

end Sys2Proof
end

