-- ==== Sys2Proof/Machine/State.lean ====
section
/-! DEFINITION. The architectural state of the block (10_state.md), as plain data; what may stop the machine; the
state after reset. INVENTORY.md lists every field with the rule that names it. -/

namespace Sys2Proof.Machine

/-- A memory of the block (R40): (index, entry) pairs, the indices strictly rising (`Memory.wf`). -/
abbrev Memory (w : Nat) := List (Nat × BitVec w)

/-- LZ_STATUS.PHASE (R20): exactly the members the spec lists (93 U12). -/
inductive Phase where
  | idle | fetch | runLit | runCopy | done | fault
deriving DecidableEq, Repr

/-- LZ_STATUS.STOP (R20): NONE, END (a terminator was read), HINT (the decoded length reached the hint). -/
inductive Stop where
  | none | terminator | hint
deriving DecidableEq, Repr

/-- LZ_CAUSE (R21): the causes of DecompressionError (R141 to R145), or NONE. -/
inductive LzCause where
  | none | badOp | windowBeforeStart | windowPastEnd | srcExhausted | outFull
deriving DecidableEq, Repr

/-- OP (R11): the class of the token in progress, 0 = LIT, 1 = BREF. -/
inductive RunClass where
  | lit | bref
deriving DecidableEq, Repr

/-- T_STATUS (R29). -/
inductive TileStatus where
  | idle | done | fault
deriving DecidableEq, Repr

/-- T_CAUSE (R30): 0, or 8 = INVALID_TILE_SIZE. -/
inductive TileCause where
  | none | invalidTileSize
deriving DecidableEq, Repr

/-- The registers of the LZ unit: R16 to R26, and the hidden ones of R11 and R35. -/
structure LzUnit where
  /-- LZ_CFG.HINT_EN (R16). -/
  hintEn : Bool
  /-- LZ_SRCLEN (R17). -/
  srcLen : Word
  /-- LZ_START (R18). -/
  start : Word
  /-- LZ_HINT (R19). -/
  hint : Word
  /-- LZ_STATUS.PHASE (R20). -/
  phase : Phase
  /-- LZ_STATUS.STOP (R20). -/
  stop : Stop
  /-- LZ_CAUSE (R21). -/
  cause : LzCause
  /-- LZ_FADDR (R22). -/
  faddr : Word
  /-- LZ_SP, the program counter (R12, R23). -/
  sp : Word
  /-- LZ_CONSUMED (R24). -/
  consumed : Word
  /-- LZ_BASE (R25). -/
  base : Word
  /-- LZ_OLEN (R26). -/
  olen : Word
  /-- OP, hidden (R11). -/
  op : RunClass
  /-- CNT, hidden (R11). -/
  cnt : BitVec 11
  /-- CPY, hidden (R11). -/
  cpy : Word
  /-- T0, hidden (R11). -/
  t0 : Word
deriving DecidableEq, Repr

/-- The TILE unit: R28 to R30 and the buffers of R33. An entry of a buffer that is not listed has no value. -/
structure TileUnit where
  /-- T_LEN (R28). -/
  len : Word
  /-- T_STATUS (R29). -/
  status : TileStatus
  /-- T_CAUSE (R30). -/
  cause : TileCause
  /-- T_IN[0..31] (R33). -/
  tIn : List Host.Cell
  /-- T_OUT[0..63] (R33). -/
  tOut : Memory 4
deriving DecidableEq, Repr

/-- One interaction of the host with the block (R183, R14, R33, R40, R170), or its waiting (log 1). -/
inductive HostOp where
  /-- Write a numbered register (R14). -/
  | write (reg : Nat) (value : Word)
  /-- Read a numbered register (R14). -/
  | read (reg : Nat)
  /-- Put a byte into the source slice, which the host owns (R40, R172, R176). -/
  | putSrc (index : Word) (value : Byte)
  /-- Read a byte of OUT (R40, R177). -/
  | readOut (index : Word)
  /-- Write an entry of T_IN (R33). -/
  | putTIn (index : BitVec 5) (value : Byte)
  /-- Read an entry of T_IN (R33). -/
  | readTIn (index : BitVec 5)
  /-- Read an entry of T_OUT (R33). -/
  | readTOut (index : BitVec 6)
  /-- The reset event, which may occur at any time (R170). -/
  | reset
  /-- The host does nothing: the LZ unit takes its enabled step, if it has one (R103). -/
  | yield
deriving DecidableEq, Repr

/-- The machine. -/
structure State where
  /-- The LZ unit's registers. -/
  lz : LzUnit
  /-- OUT, the output buffer (R34, R42): an unlisted index has no value. -/
  out : List Host.Cell
  /-- The TILE unit. -/
  tile : TileUnit
  /-- C_IN, the COL unit's one register (R31); C_R, C_G and C_B hold no state (R32). -/
  cIn : ColourWord
  /-- SRC, the host's source slice (R34, R41): an unlisted index holds 00 (log 5). -/
  src : List Host.Cell
  /-- OUT_CAP, a parameter of the machine that no step changes (R7, log 3); `Config.outCapLegal` says its range. -/
  outCap : Word
  /-- The model's own: the host's pending interactions, oldest first (log 1). -/
  host : List HostOp
  /-- The model's own: what the host's last read returned (log 2). -/
  hostData : Word
deriving DecidableEq, Repr

/-- What stops the machine. A DecompressionError and an InvalidTileSizeError do NOT: they are next states (R146,
R150). -/
inductive Fault where
  /-- Raised by a RUN_COPY step that reads an index of OUT with no value. It needs a state that breaks R36
  (CPY < LZ_OLEN, and every index below LZ_OLEN written), which no run reaches. Safe. -/
  | outByteWithoutValue (index : Nat)
deriving DecidableEq, Repr

/-- What the model refuses. Each but the first is a host access of which the spec says that a model refuses it or
that the host must not make it; all are safe but `srcWriteWhileBusy` (log 10). -/
inductive Refusal where
  /-- An instruction without a meaning in this model; no arm uses it. Safe. -/
  | notModelled (mnemonic : String)
  /-- The host reads OUT while the LZ unit is BUSY (R177). Safe. -/
  | outReadWhileBusy
  /-- The host reads OUT at or above LZ_OLEN (R177). Safe. -/
  | outReadPastEnd
  /-- The host reads an index of OUT below LZ_OLEN that has no value: only in states that break R36. Safe. -/
  | outReadWithoutValue
  /-- The host reads T_OUT while T_STATUS is not DONE (R33). Safe. -/
  | tOutReadNotDone
  /-- The host reads an entry of T_OUT that depended on an unwritten entry of T_IN (R174, 93 U3). Safe. -/
  | tOutReadWithoutValue
  /-- The host reads an entry of T_IN that nothing has written since reset (R37, 93 U3). Safe. -/
  | tInReadWithoutValue
  /-- The host writes SRC below LZ_SRCLEN while the LZ unit is BUSY: "a model gives the host no such move"
  (R176, 93 U6). Unsafe for hosts that break this duty. -/
  | srcWriteWhileBusy
deriving DecidableEq, Repr

/-- The LZ unit's registers after reset: all 0 (R37). -/
def LzUnit.atReset : LzUnit where
  hintEn := false
  srcLen := 0
  start := 0
  hint := 0
  phase := .idle
  stop := .none
  cause := .none
  faddr := 0
  sp := 0
  consumed := 0
  base := 0
  olen := 0
  op := .lit
  cnt := 0
  cpy := 0
  t0 := 0

/-- The TILE unit after reset: registers 0, buffers unspecified (R37), so with no value. -/
def TileUnit.atReset : TileUnit where
  len := 0
  status := .idle
  cause := .none
  tIn := []
  tOut := []

/-- The machine of capacity `outCap` right after reset (R37, R7), the host with nothing pending. SRC is not part of
the block: its contents here are the model's (log 5). -/
def State.resetWith (outCap : Word) : State where
  lz := LzUnit.atReset
  out := []
  tile := TileUnit.atReset
  cIn := 0
  src := []
  outCap := outCap
  host := []
  hostData := 0

/-- The machine of the vectors' capacity right after reset (log 3). -/
def State.reset : State := State.resetWith Config.outCapOfVectors

end Sys2Proof.Machine
end

