-- ==== Sys2Proof/Machine/Flags.lean ====
section
/-! DEFINITION. The status and cause words as the host reads them (10_state.md R16, R20, R21, R29, R30). The block
has no condition codes, and no token reads or writes a flag (R13): these are all its status bits. -/

namespace Sys2Proof.Machine

/-- The codes of LZ_STATUS.PHASE (R20). -/
def Phase.code : Phase → BitVec 3
  | .idle => 0
  | .fetch => 1
  | .runLit => 2
  | .runCopy => 3
  | .done => 4
  | .fault => 5

/-- The codes of LZ_STATUS.STOP (R20). -/
def Stop.code : Stop → BitVec 2
  | .none => 0
  | .terminator => 1
  | .hint => 2

/-- The codes of LZ_CAUSE (R21, R140). -/
def LzCause.code : LzCause → BitVec 4
  | .none => 0
  | .badOp => 1
  | .windowBeforeStart => 2
  | .windowPastEnd => 3
  | .srcExhausted => 4
  | .outFull => 5

/-- The codes of T_STATUS (R29). -/
def TileStatus.code : TileStatus → BitVec 2
  | .idle => 0
  | .done => 1
  | .fault => 2

/-- The codes of T_CAUSE (R30). -/
def TileCause.code : TileCause → BitVec 4
  | .none => 0
  | .invalidTileSize => 8

/-- LZ_STATUS: PHASE in bits 2:0, STOP in bits 4:3, bits 31:5 reserved, 0 (R20). -/
def lzStatusWord (u : LzUnit) : Word := (u.stop.code ++ u.phase.code).setWidth 32

/-- LZ_CFG: HINT_EN in bit 0, bits 31:1 reserved, 0 (R16). -/
def lzCfgWord (u : LzUnit) : Word := (BitVec.ofBool u.hintEn).setWidth 32

/-- BUSY: PHASE in FETCH, RUN_LIT, RUN_COPY (R20). -/
def LzUnit.busy (u : LzUnit) : Bool :=
  match u.phase with
  | .fetch | .runLit | .runCopy => true
  | .idle | .done | .fault => false

end Sys2Proof.Machine
end

