-- ==== Sys2Proof/Machine/Memory.lean ====
section
/-! DEFINITION. The named operations on the block's memories (20_memory.md R40, R49): an entry at a time. -/

namespace Sys2Proof.Machine

variable {w : Nat}

/-- The canonical form of a memory of `size` entries: indices strictly rising and below `size`. -/
abbrev Memory.wf (size : Nat) (m : Memory w) : Prop :=
  m.Pairwise (fun p q => p.1 < q.1) ∧ ∀ p ∈ m, p.1 < size

/-- What is listed at an index, if anything is. -/
def Memory.valueAt (a : Nat) : Memory w → Option (BitVec w)
  | [] => none
  | (b, v) :: m => if b = a then some v else Memory.valueAt a m

/-- Write one entry. -/
def Memory.put (a : Nat) (v : BitVec w) : Memory w → Memory w
  | [] => [(a, v)]
  | (b, u) :: m =>
    if a < b then (a, v) :: (b, u) :: m
    else if a = b then (a, v) :: m
    else (b, u) :: Memory.put a v m

/-- Take an index off the list. -/
def Memory.clear (a : Nat) (m : Memory w) : Memory w := m.filter (fun p => p.1 ≠ a)

/-- SRC[a]: an unlisted byte of the host's source slice is 00 (log 5). -/
def srcByte (src : Memory 8) (a : Nat) : Byte := (src.valueAt a).getD 0

/-- SRC[a] := v, keeping the canonical form: no entry holds what an unlisted index reads as. -/
def putSrcByte (a : Nat) (v : Byte) (src : Memory 8) : Memory 8 :=
  if v = 0 then src.clear a else src.put a v

/-- Consecutive bytes of SRC from index a on. -/
def putSrcBytes (a : Nat) : List Byte → Memory 8 → Memory 8
  | [], src => src
  | b :: bs, src => putSrcBytes (a + 1) bs (putSrcByte a b src)

/-- `n` bytes of SRC from index a on. -/
def srcBytes (src : Memory 8) (a n : Nat) : List Byte := (List.range n).map fun k => srcByte src (a + k)

/-- The bytes OUT[0 .. n - 1], where all of them have a value. -/
def outBytes (out : Memory 8) (n : Nat) : Option (List Byte) := (List.range n).mapM fun k => out.valueAt k

end Sys2Proof.Machine
end

