-- ==== Sys2Proof/Machine/Operands.lean ====
section
/-! DEFINITION. What the instructions compute from their operands: run lengths, the source position of a
back-reference, the colour channels, a pixel (R67, R68, R81, R83, R91). -/

namespace Sys2Proof.Machine

/-- n = zext(len) + 1, in CNT's 11 bits: 1 .. 32 (R67, R121). -/
def runLengthShort (len : BitVec 5) : BitVec 11 := len.setWidth 11 + 1

/-- n = len + 1, in CNT's 11 bits: 1 .. 1024 (R67, R122). -/
def runLengthLong (len : BitVec 10) : BitVec 11 := len.setWidth 11 + 1

/-- p = LZ_OLEN - d, a mathematical integer, possibly negative (R8, R68). -/
def copySource (olen : Word) (dist : BitVec 16) : Int := (olen.toNat : Int) - (dist.toNat : Int)

/-- A 5-bit field in bits 7:3 of its channel, bits 2:0 zero (R81). -/
def expandChannel (field : BitVec 5) : Byte := field.setWidth 8 <<< 3

/-- C_R (R81). -/
def colR (word : ColourWord) : Byte := expandChannel (word.extractLsb' 0 5)

/-- C_G (R81). -/
def colG (word : ColourWord) : Byte := expandChannel (word.extractLsb' 5 5)

/-- C_B (R81). -/
def colB (word : ColourWord) : Byte := expandChannel (word.extractLsb' 10 5)

/-- ColWord(b0, b1) = b0 | (b1 << 8): the memory form of a colour word, which the host assembles (R83). -/
def colWord (b0 b1 : Byte) : ColourWord := b1 ++ b0

/-- Where plane q of row r stands in T_IN (R90). -/
def planeByte (q r : Nat) : Nat :=
  match q with
  | 0 => 2 * r
  | 1 => 2 * r + 1
  | 2 => 16 + 2 * r
  | _ => 17 + 2 * r                          -- plane 3

/-- The bit of plane q at row r and column x, if that byte of T_IN has a value: column x is bit 7 - x (R90). -/
def planeBit (tIn : Memory 8) (q r x : Nat) : Option Bool :=
  (tIn.valueAt (planeByte q r)).map fun b => b.getLsbD (7 - x)

/-- One pixel: bit q of the index is plane q (R91). It has a value when its four bytes have (R174, log 8). -/
def pixel (tIn : Memory 8) (r x : Nat) : Option Index4 := do
  let p0 ← planeBit tIn 0 r x
  let p1 ← planeBit tIn 1 r x
  let p2 ← planeBit tIn 2 r x
  let p3 ← planeBit tIn 3 r x
  pure (BitVec.ofBool p3 ++ BitVec.ofBool p2 ++ BitVec.ofBool p1 ++ BitVec.ofBool p0)

/-- T_OUT as TILE.DEC leaves it: entry 8 * r + x is row r, column x (R91, R94); an entry whose pixel has no
value is not listed. -/
def tileImage (tIn : Memory 8) : Memory 4 :=
  (List.range Config.tileEntries).filterMap fun k => (pixel tIn (k / 8) (k % 8)).map fun v => (k, v)

end Sys2Proof.Machine
end

