-- ==== Sys2Proof/Machine/Ops.lean ====
section
/-! DEFINITION. The shared operations of the LZ and TILE units: the access primitives (R44, R45), the size-hint
stop (R104), taking an exception (R146, R150), starting a run and a token, the two run steps (R127, R128), and
reset (R170). -/

namespace Sys2Proof.Machine

/-- What a step answers. -/
abbrev Answer := Host.Outcome State Fault Refusal

/-! ### Taking an exception, and leaving one -/

/-- Fault entry of the LZ unit, for every DecompressionError (R146): the cause, LZ_FADDR <- T0, STOP <- NONE,
PHASE <- FAULT, and nothing else. -/
def lzFault (cause : LzCause) (s : State) : State :=
  { s with lz := { s.lz with cause := cause, faddr := s.lz.t0, stop := .none, phase := .fault } }

/-- Fault entry of the TILE unit, for InvalidTileSizeError (R150): T_CAUSE <- 8, T_STATUS <- FAULT; T_OUT becomes
unspecified, so it has no values. -/
def tileFault (s : State) : State :=
  { s with tile := { s.tile with cause := .invalidTileSize, status := .fault, tOut := [] } }

/-- LZ.START's effect (R102): it begins a run at LZ_START, and is the one way besides reset to leave FAULT or DONE
(R153). -/
def startRun (s : State) : State :=
  { s with lz := { s.lz with
      base := s.lz.start, sp := s.lz.start, consumed := 0, olen := 0, cause := .none, faddr := 0,
      op := .lit, cnt := 0, cpy := 0, t0 := s.lz.start, stop := .none, phase := .fetch } }

/-- Reset (R170, R171, R37): registers 0, the buffers without values. SRC is the host's, OUT_CAP a parameter; what
the host still means to do is its own (log 16). -/
def resetEvent (s : State) : State :=
  { s with lz := LzUnit.atReset, out := [], tile := TileUnit.atReset, cIn := 0 }

/-! ### The ends of a run -/

/-- The test of the size-hint check (R104). -/
def hintReached (u : LzUnit) : Bool := u.hintEn && decide (u.hint ≤ u.olen)

/-- The run ends with STOP = HINT, no fault (R104). -/
def stopByHint (s : State) : State := { s with lz := { s.lz with stop := .hint, phase := .done } }

/-- END's effect (R126). -/
def stopByTerminator (s : State) : State := { s with lz := { s.lz with stop := .terminator, phase := .done } }

/-! ### The access primitives -/

/-- The test of SrcFetch (R44): no source byte is left at SP. -/
def sourceExhausted (u : LzUnit) : Bool := decide (u.srcLen ≤ u.sp)

/-- The byte SrcFetch reads (R44). -/
def nextSourceByte (s : State) : Byte := srcByte s.src s.lz.sp.toNat

/-- SrcFetch after its test (R44): SP and LZ_CONSUMED each grow by 1. -/
def advanceSource (s : State) : State :=
  { s with lz := { s.lz with sp := s.lz.sp + 1, consumed := s.lz.consumed + 1 } }

/-- What reading source bytes gives: a value, or an exception with the increments of the bytes already read kept
(R148). -/
inductive Fetched (α : Type) where
  | read (a : α) (s : State)
  | raised (cause : LzCause) (s : State)

/-- SrcFetch (R44): the one way a source byte is read. -/
def srcFetch (s : State) : Fetched Byte :=
  if sourceExhausted s.lz then .raised .srcExhausted s else .read (nextSourceByte s) (advanceSource s)

/-- The test of OutAppend (R45). -/
def outFull (s : State) : Bool := decide (s.outCap ≤ s.lz.olen)

/-- OutAppend after its test (R45): the byte goes to OUT[LZ_OLEN], LZ_OLEN grows by 1. -/
def appendByte (v : Byte) (s : State) : State :=
  { s with out := Memory.put s.lz.olen.toNat v s.out, lz := { s.lz with olen := s.lz.olen + 1 } }

/-! ### Tokens: their start and their run steps -/

/-- T0 <- SP, before the control byte is fetched (R120). -/
def latchT0 (s : State) : State := { s with lz := { s.lz with t0 := s.lz.sp } }

/-- A literal run of n bytes begins (R121, R122). -/
def startLiteral (n : BitVec 11) (s : State) : State :=
  { s with lz := { s.lz with op := .lit, cnt := n, phase := .runLit } }

/-- A back-reference run of n bytes from source position p begins, unless the window check rejects it (R129):
p < 0, then p >= LZ_OLEN. -/
def startCopy (n : BitVec 11) (p : Int) (s : State) : State :=
  if p < 0 then lzFault .windowBeforeStart s
  else if (s.lz.olen.toNat : Int) ≤ p then lzFault .windowPastEnd s
  else { s with lz := { s.lz with op := .bref, cnt := n, cpy := BitVec.ofNat 32 p.toNat, phase := .runCopy } }

/-- The end of a run step: CNT <- CNT - 1, and PHASE <- FETCH when it is 0 (R127, R128). -/
def countByte (s : State) : State :=
  { s with lz := { s.lz with
      cnt := s.lz.cnt - 1, phase := if s.lz.cnt - 1 = 0 then .fetch else s.lz.phase } }

/-- The RUN_LIT step after its size-hint check (R127): both bounds are tested before anything changes, the source
first. -/
def runLitStep (s : State) : Answer :=
  if sourceExhausted s.lz then .next (lzFault .srcExhausted s)
  else if outFull s then .next (lzFault .outFull s)
  else .next (countByte (appendByte (nextSourceByte s) (advanceSource s)))

/-- CPY <- CPY + 1 (R128). -/
def advanceCopy (s : State) : State := { s with lz := { s.lz with cpy := s.lz.cpy + 1 } }

/-- The RUN_COPY step after its size-hint check (R128). An index of OUT with no value is never read while R36
holds; where it would be, the machine stops (log 6). -/
def runCopyStep (s : State) : Answer :=
  if outFull s then .next (lzFault .outFull s)
  else match Memory.valueAt s.lz.cpy.toNat s.out with
    | none => .fault (.outByteWithoutValue s.lz.cpy.toNat)
    | some v => .next (countByte (advanceCopy (appendByte v s)))

end Sys2Proof.Machine
end

