-- ==== Sys2Proof/Machine/Commands.lean ====
section
/-! DEFINITION. The meanings of the three host commands (R73): LZ.START, TILE.DEC, COL.CONV. -/

namespace Sys2Proof.Machine

/-- LZ.START (R102): begins a run; while BUSY the write is ignored (R14, R15). -/
def execLzStart (s : State) : Answer := if s.lz.busy then .next s else .next (startRun s)

/-- The size check of TILE.DEC (R92). -/
def tileSizeOk (u : TileUnit) : Bool := u.len == BitVec.ofNat 32 Config.tileBytes

/-- TILE.DEC's effect when the size check passes (R91): all 64 entries from T_IN as it is now. An entry that
depends on an unwritten byte of T_IN is left without a value (R174, 93 U3, log 8). -/
def decodeTile (s : State) : State :=
  { s with tile := { s.tile with tOut := tileImage s.tile.tIn, status := .done, cause := .none } }

/-- TILE.DEC (R91, R92): InvalidTileSizeError unless T_LEN = 32. -/
def execTileDec (s : State) : Answer := if tileSizeOk s.tile then .next (decodeTile s) else .next (tileFault s)

/-- COL.CONV (R80, R81): C_IN takes the word, all 16 bits of it (R31); C_R, C_G and C_B are at every moment
`colR`, `colG` and `colB` of C_IN (R32). -/
def execColConv (word : ColourWord) (s : State) : Answer := .next { s with cIn := word }

end Sys2Proof.Machine
end

