-- ==== Sys2Proof/Machine/Reserved.lean ====
section
/-! DEFINITION. The meanings of the reserved control bytes (43_lz_tokens.md R125): each raises DecompressionError
with cause BAD_OP; its length bits are ignored. -/

namespace Sys2Proof.Machine

/-- Reserved operation: BAD_OP (R125, R141). -/
def badOp (s : State) : Answer := .next (lzFault .badOp s)

/-- Short operation 001 (R125). -/
def execReservedS001 (_len : BitVec 5) (s : State) : Answer := badOp s

/-- Short operation 010 (R125). -/
def execReservedS010 (_len : BitVec 5) (s : State) : Answer := badOp s

/-- Short operation 011 (R125). -/
def execReservedS011 (_len : BitVec 5) (s : State) : Answer := badOp s

/-- Short operation 101 (R125). -/
def execReservedS101 (_len : BitVec 5) (s : State) : Answer := badOp s

/-- Short operation 110 (R125). -/
def execReservedS110 (_len : BitVec 5) (s : State) : Answer := badOp s

/-- Long operation 001 (R125). -/
def execReservedX001 (_lenHi : BitVec 2) (s : State) : Answer := badOp s

/-- Long operation 010 (R125). -/
def execReservedX010 (_lenHi : BitVec 2) (s : State) : Answer := badOp s

/-- Long operation 011 (R125). -/
def execReservedX011 (_lenHi : BitVec 2) (s : State) : Answer := badOp s

/-- Long operation 101 (R125). -/
def execReservedX101 (_lenHi : BitVec 2) (s : State) : Answer := badOp s

/-- Long operation 110 (R125). -/
def execReservedX110 (_lenHi : BitVec 2) (s : State) : Answer := badOp s

/-- Long operation 111, 0xFC to 0xFE (R125). -/
def execReservedX111 (_lenHi : BitVec 2) (s : State) : Answer := badOp s

end Sys2Proof.Machine
end

