-- ==== Sys2Proof/Machine/Tokens.lean ====
section
/-! DEFINITION. The meanings of the tokens with a class (43_lz_tokens.md R121 to R124, R126): what the FETCH step
does once the header and its operand have been read. -/

namespace Sys2Proof.Machine

/-- END (R126): STOP <- END, PHASE <- DONE; the terminator byte is already counted. -/
def execEnd (s : State) : Answer := .next (stopByTerminator s)

/-- LIT (R121): OP <- 0, CNT <- len + 1, PHASE <- RUN_LIT. -/
def execLit (len : BitVec 5) (s : State) : Answer := .next (startLiteral (runLengthShort len) s)

/-- LITX (R122): as LIT with the 10-bit length. -/
def execLitx (len : BitVec 10) (s : State) : Answer := .next (startLiteral (runLengthLong len) s)

/-- BREF (R123): the window check on p = LZ_OLEN - d, then OP <- 1, CNT <- len + 1, CPY <- p, PHASE <- RUN_COPY. -/
def execBref (len : BitVec 5) (dist : BitVec 16) (s : State) : Answer :=
  .next (startCopy (runLengthShort len) (copySource s.lz.olen dist) s)

/-- BREFX (R124): as BREF with the 10-bit length. -/
def execBrefx (len : BitVec 10) (dist : BitVec 16) (s : State) : Answer :=
  .next (startCopy (runLengthLong len) (copySource s.lz.olen dist) s)

end Sys2Proof.Machine
end

