-- ==== Sys2Proof/Machine/Dispatch.lean ====
section
/-! DEFINITION. One arm per instruction: its meaning, called by its full name. -/

namespace Sys2Proof.Machine

def exec (i : Instr) (s : State) : Host.Outcome State Fault Refusal :=
  match i with
  | .endStream => Sys2Proof.Machine.execEnd s
  | .lit len => Sys2Proof.Machine.execLit len s
  | .bref len dist => Sys2Proof.Machine.execBref len dist s
  | .litx len => Sys2Proof.Machine.execLitx len s
  | .brefx len dist => Sys2Proof.Machine.execBrefx len dist s
  | .reservedS001 len => Sys2Proof.Machine.execReservedS001 len s
  | .reservedS010 len => Sys2Proof.Machine.execReservedS010 len s
  | .reservedS011 len => Sys2Proof.Machine.execReservedS011 len s
  | .reservedS101 len => Sys2Proof.Machine.execReservedS101 len s
  | .reservedS110 len => Sys2Proof.Machine.execReservedS110 len s
  | .reservedX001 lenHi => Sys2Proof.Machine.execReservedX001 lenHi s
  | .reservedX010 lenHi => Sys2Proof.Machine.execReservedX010 lenHi s
  | .reservedX011 lenHi => Sys2Proof.Machine.execReservedX011 lenHi s
  | .reservedX101 lenHi => Sys2Proof.Machine.execReservedX101 lenHi s
  | .reservedX110 lenHi => Sys2Proof.Machine.execReservedX110 lenHi s
  | .reservedX111 lenHi => Sys2Proof.Machine.execReservedX111 lenHi s
  | .lzStart => Sys2Proof.Machine.execLzStart s
  | .tileDec => Sys2Proof.Machine.execTileDec s
  | .colConv word => Sys2Proof.Machine.execColConv word s

end Sys2Proof.Machine
end

