-- ==== Sys2Proof/Machine/Fetch.lean ====
section
/-! DEFINITION. The FETCH step (43_lz_tokens.md R120) around the meaning of the token it reads. -/

namespace Sys2Proof.Machine

/-- A header reader fed by SrcFetch: the bytes are read at SP, one after the other; when one is missing the
exception is raised with the increments of those before it kept (R144, R148). -/
def readSource {α : Type} : HeaderReader α → State → Fetched α
  | .done a, s => .read a s
  | .fetch k, s =>
    match srcFetch s with
    | .raised cause t => .raised cause t
    | .read b t => readSource (k b) t

/-- The FETCH step after its size-hint check (R120): T0 <- SP, the control byte, the rest of the header, then what
`start` does with it. -/
def fetchStep {α : Type} (reader : Byte → HeaderReader α) (start : α → State → Answer) (s : State) : Answer :=
  match readSource (.fetch reader) (latchT0 s) with
  | .raised cause t => .next (lzFault cause t)
  | .read a t => start a t

/-- The LZ unit's enabled step (R103), the size-hint check first (R104). In IDLE, DONE and FAULT no step is
enabled: the unit waits (log 11). -/
def lzTurn (fetch : State → Answer) (s : State) : Answer :=
  match s.lz.phase with
  | .idle | .done | .fault => .next s
  | .fetch => if hintReached s.lz then .next (stopByHint s) else fetch s
  | .runLit => if hintReached s.lz then .next (stopByHint s) else runLitStep s
  | .runCopy => if hintReached s.lz then .next (stopByHint s) else runCopyStep s

end Sys2Proof.Machine
end

