-- ==== Sys2Proof/Machine/Registers.lean ====
section
/-! DEFINITION. The host-visible registers by number (10_state.md R14 to R32). -/

namespace Sys2Proof.Machine

/-- What a host read of a register returns (R14): a narrower register is zero-extended, LZ_CMD and T_CMD and the
unused numbers read 0. -/
def readReg (reg : Nat) (s : State) : Word :=
  match reg with
  | 1 => lzCfgWord s.lz
  | 2 => s.lz.srcLen
  | 3 => s.lz.start
  | 4 => s.lz.hint
  | 5 => lzStatusWord s.lz
  | 6 => s.lz.cause.code.setWidth 32
  | 7 => s.lz.faddr
  | 8 => s.lz.sp
  | 9 => s.lz.consumed
  | 10 => s.lz.base
  | 11 => s.lz.olen
  | 17 => s.tile.len
  | 18 => s.tile.status.code.setWidth 32
  | 19 => s.tile.cause.code.setWidth 32
  | 24 => s.cIn.setWidth 32
  | 25 => (colR s.cIn).setWidth 32
  | 26 => (colG s.cIn).setWidth 32
  | 27 => (colB s.cIn).setWidth 32
  | _ => 0

/-- A host write of an LZ configuration register; while BUSY it is ignored (R14, R178). -/
def writeLzConfig (f : LzUnit → LzUnit) (s : State) : State :=
  if s.lz.busy then s else { s with lz := f s.lz }

/-- A host write that is no command (R14): LZ_CFG takes bit 0 (R16), LZ_SRCLEN, LZ_START, LZ_HINT and T_LEN the
word; read-only registers, unused numbers and other command values ignore it. -/
def writeReg (reg : Nat) (value : Word) (s : State) : State :=
  match reg with
  | 1 => writeLzConfig (fun u => { u with hintEn := value.getLsbD 0 }) s
  | 2 => writeLzConfig (fun u => { u with srcLen := value }) s
  | 3 => writeLzConfig (fun u => { u with start := value }) s
  | 4 => writeLzConfig (fun u => { u with hint := value }) s
  | 17 => { s with tile := { s.tile with len := value } }
  | _ => s

end Sys2Proof.Machine
end

