-- ==== Sys2Proof/Machine/HostPort.lean ====
section
/-! DEFINITION. The host's interactions with the block (70_reset_and_hazards.md R183) and whose turn it is. The
meaning of an instruction and the LZ unit's turn are arguments here: Step.lean supplies `exec` and the turn under
layout L0, Layout.lean `exec` and the turn under any layout. -/

namespace Sys2Proof.Machine

/-- The host's read returns a word (log 2). -/
def hostReturns (value : Word) (s : State) : State := { s with hostData := value }

/-- A host write of a register: a command (R73), or a plain write (R14). -/
def hostWrite (run : Instr → State → Answer) (reg : Nat) (value : Word) (s : State) : Answer :=
  match decodeHostWrite reg value with
  | some i => run i s
  | none => .next (writeReg reg value s)

/-- The host puts a byte into its source slice; not below LZ_SRCLEN while BUSY (R176, log 10). -/
def hostPutSrc (index : Word) (value : Byte) (s : State) : Answer :=
  if s.lz.busy && decide (index < s.lz.srcLen) then .refused .srcWriteWhileBusy
  else .next { s with src := putSrcByte index.toNat value s.src }

/-- The host reads OUT[index]: only when not BUSY and below LZ_OLEN (R177). -/
def hostReadOut (index : Word) (s : State) : Answer :=
  if s.lz.busy then .refused .outReadWhileBusy
  else if s.lz.olen ≤ index then .refused .outReadPastEnd
  else match Memory.valueAt index.toNat s.out with
    | none => .refused .outReadWithoutValue
    | some v => .next (hostReturns (v.setWidth 32) s)

/-- The host writes T_IN[index], at any time (R33). -/
def hostPutTIn (index : BitVec 5) (value : Byte) (s : State) : Answer :=
  .next { s with tile := { s.tile with tIn := Memory.put index.toNat value s.tile.tIn } }

/-- The host reads T_IN[index], at any time (R33); an entry not written since reset has no value (R37, 93 U3). -/
def hostReadTIn (index : BitVec 5) (s : State) : Answer :=
  match Memory.valueAt index.toNat s.tile.tIn with
  | none => .refused .tInReadWithoutValue
  | some v => .next (hostReturns (v.setWidth 32) s)

/-- The host reads T_OUT[index], zero-extended, only while T_STATUS = DONE (R33, R179). -/
def hostReadTOut (index : BitVec 6) (s : State) : Answer :=
  if s.tile.status = .done then
    match Memory.valueAt index.toNat s.tile.tOut with
    | none => .refused .tOutReadWithoutValue
    | some v => .next (hostReturns (v.setWidth 32) s)
  else .refused .tOutReadNotDone

/-- The LZ unit's turn under layout L0 (R103, R120). -/
def lzTurnL0 (run : Instr → State → Answer) (s : State) : Answer := lzTurn (fetchStep readHeader run) s

/-- One interaction of the host (R183), atomic (R100); when it waits, the LZ unit's turn. -/
def hostAct (run : Instr → State → Answer) (unitTurn : State → Answer) (op : HostOp) (s : State) : Answer :=
  match op with
  | .write reg value => hostWrite run reg value s
  | .read reg => .next (hostReturns (readReg reg s) s)
  | .putSrc index value => hostPutSrc index value s
  | .readOut index => hostReadOut index s
  | .putTIn index value => hostPutTIn index value s
  | .readTIn index => hostReadTIn index s
  | .readTOut index => hostReadTOut index s
  | .reset => .next (resetEvent s)
  | .yield => unitTurn s

/-- One step of the machine: the host's oldest pending interaction, or, when it has none, the LZ unit's turn
(log 1). -/
def turn (run : Instr → State → Answer) (unitTurn : State → Answer) (s : State) : Answer :=
  match s.host with
  | [] => unitTurn s
  | op :: rest => hostAct run unitTurn op { s with host := rest }

/-- The state of which the next step runs an instruction given as a code (the fixed name withFetchWord; log 15).
A host command becomes the host's next write. Token bytes are put at SP, which stays where it is unless they
would not fit below 2^32; the slice is made to reach past them, no hint is in force, and the phase is FETCH. -/
def placeCode (s : State) : MachineCode → State
  | .hostWrite reg value => { s with host := .write reg value :: s.host }
  | .bytes bs =>
    let sp : Word := if s.lz.sp.toNat + bs.length < 2 ^ 32 then s.lz.sp else 0
    { s with
      src := putSrcBytes sp.toNat bs s.src
      lz := { s.lz with sp := sp, srcLen := sp + BitVec.ofNat 32 bs.length, hintEn := false, phase := .fetch }
      host := .yield :: s.host }

end Sys2Proof.Machine
end

