-- ==== Sys2Proof/Machine/Step.lean ====
section
/-! DEFINITION. One step of the machine, and the state with an instruction placed where the next step runs it. -/

namespace Sys2Proof.Machine

/-- One step at layout L0: the host's oldest pending interaction, or the LZ unit's turn (R100, R103, R183). -/
def step (s : State) : Host.Outcome State Fault Refusal := turn exec (lzTurnL0 exec) s

/-- The table row's word placed so that the very next step runs it (log 15). -/
def State.withFetchWord (s : State) (nbits w : Nat) : State := placeCode s (tableCode nbits w)

end Sys2Proof.Machine
end

