-- ==== Sys2Proof/Machine/Layout.lean ====
section
/-! DEFINITION. The machine for ANY of the parameters R7 leaves OPEN, a token layout and a capacity of OUT
(00_scope.md R7, 30_encoding.md R60, 93_implementation_defined.md U8, U9): the structural contract, the unit's turn
and the machine's step under a layout, and layout L0 as one instance. The machine of Step.lean is the one at L0; that
the two agree there is a statement of its own. -/

namespace Sys2Proof.Machine

/-- What a layout yields for a token (R60): a literal run of n bytes, a back-reference run of n bytes from the
integer source position p, the terminator, or an unrecognised operation. -/
inductive TokenClass where
  | lit (n : BitVec 11)
  | bref (n : BitVec 11) (p : Int)
  | terminator
  | unrecognised
deriving DecidableEq, Repr

/-- A layout (R60): from the control byte and the source bytes that follow it, read in increasing offset order, a
class; a source position may depend on the current LZ_OLEN. DESIGN CHOICE (log 4): R60 says that of the source
position only, and the form here lets the class and the run length depend on it too; at L0 they do not. -/
structure Layout where
  reader : Byte → HeaderReader (Word → TokenClass)

/-- Every answer the reader can give meets `p`. -/
def everyAnswer {α : Type} (p : α → Prop) : HeaderReader α → Prop
  | .done a => p a
  | .fetch k => ∀ b, everyAnswer p (k b)

/-- A run is not empty. -/
def TokenClass.nonEmpty : TokenClass → Prop
  | .lit n => n ≠ 0
  | .bref n _ => n ≠ 0
  | .terminator => True
  | .unrecognised => True

/-- The structural contract (R60): n >= 1 for every run the layout yields, whatever LZ_OLEN. Order and place of the
bytes read are met by the form of a reader. DESIGN CHOICE (log 4): nothing more is asked. So a layout other than L0
may let the class and the run length depend on LZ_OLEN, and may answer `unrecognised` after it has read further
header bytes, where BAD_OP then follows more than one consumed byte; at L0 it follows exactly one (R125, R141,
R148). -/
def Layout.contract (L : Layout) : Prop := ∀ c, everyAnswer (fun f => ∀ olen : Word, (f olen).nonEmpty) (L.reader c)

/-- What the FETCH step does with a class, for any layout: R121, R123 with R129, R126, R125. -/
def startClass (cls : TokenClass) (s : State) : Answer :=
  match cls with
  | .lit n => .next (startLiteral n s)
  | .bref n p => .next (startCopy n p s)
  | .terminator => .next (stopByTerminator s)
  | .unrecognised => .next (lzFault .badOp s)

/-- The LZ unit's turn under a layout (R103). -/
def lzTurnWith (L : Layout) (s : State) : Answer :=
  lzTurn (fetchStep L.reader fun f t => startClass (f t.lz.olen) t) s

/-- One step of the machine under a layout: the host's accesses, its commands and reset are those of every layout,
the LZ unit's turn is the layout's (R183, R103). -/
def stepWith (L : Layout) (s : State) : Answer := turn exec (lzTurnWith L) s

/-- The class of a token of L0 (R66 to R68). No reader of L0 answers with a host command. -/
def classOf (i : Instr) (olen : Word) : TokenClass :=
  match i with
  | .endStream => .terminator
  | .lit len => .lit (runLengthShort len)
  | .litx len => .lit (runLengthLong len)
  | .bref len dist => .bref (runLengthShort len) (copySource olen dist)
  | .brefx len dist => .bref (runLengthLong len) (copySource olen dist)
  | .reservedS001 _ | .reservedS010 _ | .reservedS011 _ | .reservedS101 _ | .reservedS110 _ => .unrecognised
  | .reservedX001 _ | .reservedX010 _ | .reservedX011 _ | .reservedX101 _ | .reservedX110 _
  | .reservedX111 _ => .unrecognised
  | .lzStart | .tileDec | .colConv _ => .unrecognised

/-- Layout L0 (R61 to R70). -/
def Layout.l0 : Layout where
  reader c := (readHeader c).map classOf

/-- The parameters that R7 leaves OPEN: LAYOUT and OUT_CAP. -/
structure Parameters where
  layout : Layout
  outCap : Word

/-- What R7 and R60 ask of them. -/
def Parameters.legal (P : Parameters) : Prop := P.layout.contract ∧ Config.outCapLegal P.outCap

/-- The parameters of the reference instance: L0, and the vectors' OUT_CAP (R7). -/
def Parameters.reference : Parameters where
  layout := Layout.l0
  outCap := Config.outCapOfVectors

/-- The machine with these parameters. -/
def machineWith (P : Parameters) : Host.Core where
  State := State
  Fault := Fault
  Refusal := Refusal
  step := stepWith P.layout
  reset := State.resetWith P.outCap

end Sys2Proof.Machine
end

