-- ==== Sys2Proof/Safety.lean ====
section
/-! DEFINITION. What a sound state is (10_state.md R36 and the register rules R21, R22, R29, R30, R33), what runs and
results are (42_lz_run_control.md R101), in the terms the statements use. -/

namespace Sys2Proof

open Sys2Proof.Machine

/-- `k` steps of the machine. -/
def runs (k : Nat) (s : State) : Host.Outcome State Fault Refusal := Host.Core.run core k s

/-- `k` steps of the machine with the given parameters. -/
def runsWith (P : Parameters) (k : Nat) (s : State) : Host.Outcome State Fault Refusal :=
  Host.Core.run (machineWith P) k s

/-- The LZ unit between LZ.START and the end of the run, for any layout: R36 items 1 to 6, R22, and R46's reason
(every byte below LZ_OLEN has been written). Items 2 and 3's hint bound are about a run: between runs the host may
rewrite LZ_SRCLEN and LZ_HINT, so they are asked while BUSY. -/
structure LzSound (s : State) : Prop where
  /-- R36 item 1. -/
  sp_eq : s.lz.sp.toNat = s.lz.base.toNat + s.lz.consumed.toNat
  /-- R36 item 2. -/
  sp_le : s.lz.busy = true → s.lz.sp.toNat ≤ max s.lz.base.toNat s.lz.srcLen.toNat
  /-- R36 item 3. -/
  olen_le_cap : s.lz.olen.toNat ≤ s.outCap.toNat
  /-- R36 item 3, the hint. -/
  olen_le_hint : s.lz.busy = true → s.lz.hintEn = true → s.lz.olen.toNat ≤ s.lz.hint.toNat
  /-- R36 item 4, its lower bound. -/
  cnt_pos : s.lz.phase = .runLit ∨ s.lz.phase = .runCopy → 1 ≤ s.lz.cnt.toNat
  /-- R36 item 5. -/
  cpy_lt : s.lz.phase = .runCopy → s.lz.cpy.toNat < s.lz.olen.toNat
  /-- R36 item 6, R20. -/
  done_iff : s.lz.phase = .done ↔ s.lz.stop ≠ .none
  /-- R36 item 6, R21. -/
  fault_iff : s.lz.phase = .fault ↔ s.lz.cause ≠ .none
  /-- R22. -/
  faddr_zero : s.lz.phase ≠ .fault → s.lz.faddr = 0
  /-- R42, R46. -/
  written : ∀ k, k < s.lz.olen.toNat → (Memory.valueAt k s.out).isSome = true

/-- The TILE unit: R30, and R33's "T_OUT holds a tile only while T_STATUS = DONE". -/
structure TileSound (s : State) : Prop where
  cause_iff : s.tile.status = .fault ↔ s.tile.cause ≠ .none
  tOut_none : s.tile.status ≠ .done → s.tile.tOut = []

/-- Every memory is in its canonical form and inside its space (R40). -/
structure MemorySound (s : State) : Prop where
  src : Memory.wf (2 ^ 32) s.src
  src_nonzero : ∀ p ∈ s.src, p.2 ≠ 0
  out : Memory.wf s.outCap.toNat s.out
  tIn : Memory.wf Config.tileBytes s.tile.tIn
  tOut : Memory.wf Config.tileEntries s.tile.tOut

/-- The invariant of the machine under every layout: the parts above, R7's range of OUT_CAP, and R11's "the phase
implies" OP. -/
structure BlockSound (s : State) : Prop where
  cap : Config.outCapLegal s.outCap
  lz : LzSound s
  op_lit : s.lz.phase = .runLit → s.lz.op = .lit
  op_bref : s.lz.phase = .runCopy → s.lz.op = .bref
  tile : TileSound s
  mem : MemorySound s

/-- The invariant of the machine at L0: also R36 item 4's upper bound. -/
structure MachineSound (s : State) : Prop extends BlockSound s where
  cnt_le : s.lz.phase = .runLit ∨ s.lz.phase = .runCopy → s.lz.cnt.toNat ≤ Config.runMaxLong

/-- A run's result (R101, R112): the source offset, the consumed bytes and the decoded buffer, only in DONE
(R179). -/
def runResult (s : State) : Option (Word × Word × List Byte) :=
  if s.lz.phase = .done then (outBytes s.out s.lz.olen.toNat).map fun bs => (s.lz.base, s.lz.consumed, bs)
  else none

/-- The same unit with a size hint in force (R110). -/
def withHint (hint : Word) (s : State) : State := { s with lz := { s.lz with hintEn := true, hint := hint } }

/-- The bytes of the source slice that are left (`x ∸ y` of R8). -/
def bytesLeft (s : State) : Nat := s.lz.srcLen.toNat - s.lz.sp.toNat

/-- It is the LZ unit's turn: the host has nothing pending, or waits and then has `rest` pending (log 1). -/
def lzHasTurn (rest : List HostOp) (s : State) : Prop := (s.host = [] ∧ rest = []) ∨ s.host = .yield :: rest

/-- The condition of the size-hint check (R104). -/
def hintDue (s : State) : Prop := s.lz.hintEn = true ∧ s.lz.hint.toNat ≤ s.lz.olen.toNat

/-- What LZ_STATUS, LZ_CAUSE and LZ_FADDR are at fault entry (R146), in a state given by what else a step did. -/
def haltedBy (cause : LzCause) (faddr : Word) (u : LzUnit) : LzUnit :=
  { u with cause := cause, faddr := faddr, stop := .none, phase := .fault }

/-- The source slice holds these bytes at SP, and they end inside it. -/
def streamAt (s : State) (bytes : List Byte) : Prop :=
  srcBytes s.src s.lz.sp.toNat bytes.length = bytes ∧ s.lz.sp.toNat + bytes.length ≤ s.lz.srcLen.toNat

/-- A reserved control byte (R125). -/
def reservedControl (c : Byte) : Prop :=
  (0x20 ≤ c.toNat ∧ c.toNat ≤ 0x7F) ∨ (0xA0 ≤ c.toNat ∧ c.toNat ≤ 0xDF) ∨
  (0xE4 ≤ c.toNat ∧ c.toNat ≤ 0xEF) ∨ (0xF4 ≤ c.toNat ∧ c.toNat ≤ 0xFE)

end Sys2Proof
end

