-- ==== Sys2Proof/Certificates/Slice0/Obligations.lean ====
section
/-! DEFINITION. The statements for the provers, from the spec's numbered rules. OBLIGATIONS.json lists them. -/

open Sys2Proof Sys2Proof.Machine

/-! ### Decoding and encoding -/

/-- Layout L0 loses no bit of a token: the header and operand bytes of a well-formed token decode to it, whatever
follows them (30_encoding.md sections 2 to 5). -/
def Obligations.TokenDecodeOfEncode : Prop :=
  ∀ (i : Instr) (rest : List Byte), i.wellFormed = true → i.isToken = true →
    decode (tokenBytes i ++ rest) = .ok (i, rest)

/-- Bytes that decode are the encoding of what they decode to: no two tokens share bytes, and none is ill-formed
(30_encoding.md sections 2 to 5). -/
def Obligations.TokenEncodeOfDecode : Prop :=
  ∀ (bs rest : List Byte) (i : Instr), decode bs = .ok (i, rest) →
    i.wellFormed = true ∧ i.isToken = true ∧ tokenBytes i ++ rest = bs

/-- The complete control-byte map (R70), one clause a row, with the run length its rows give and the operands of
R67 and R68. -/
def Obligations.ControlByteMap : Prop :=
  ∀ (c b d0 d1 : Byte) (rest : List Byte),
    (c.toNat ≤ 0x1F → ∃ len : BitVec 5, len.toNat = c.toNat ∧ (runLengthShort len).toNat = c.toNat + 1 ∧
      decode (c :: rest) = .ok (.lit len, rest)) ∧
    (0x20 ≤ c.toNat ∧ c.toNat ≤ 0x3F → ∃ len, decode (c :: rest) = .ok (.reservedS001 len, rest)) ∧
    (0x40 ≤ c.toNat ∧ c.toNat ≤ 0x5F → ∃ len, decode (c :: rest) = .ok (.reservedS010 len, rest)) ∧
    (0x60 ≤ c.toNat ∧ c.toNat ≤ 0x7F → ∃ len, decode (c :: rest) = .ok (.reservedS011 len, rest)) ∧
    (0x80 ≤ c.toNat ∧ c.toNat ≤ 0x9F → ∃ (len : BitVec 5) (dist : BitVec 16), len.toNat = c.toNat - 0x80 ∧
      (runLengthShort len).toNat = c.toNat - 0x80 + 1 ∧ dist.toNat = d0.toNat + 256 * d1.toNat ∧
      decode (c :: d0 :: d1 :: rest) = .ok (.bref len dist, rest)) ∧
    (0xA0 ≤ c.toNat ∧ c.toNat ≤ 0xBF → ∃ len, decode (c :: rest) = .ok (.reservedS101 len, rest)) ∧
    (0xC0 ≤ c.toNat ∧ c.toNat ≤ 0xDF → ∃ len, decode (c :: rest) = .ok (.reservedS110 len, rest)) ∧
    (0xE0 ≤ c.toNat ∧ c.toNat ≤ 0xE3 → ∃ len : BitVec 10, len.toNat = 256 * (c.toNat - 0xE0) + b.toNat ∧
      decode (c :: b :: rest) = .ok (.litx len, rest)) ∧
    (0xE4 ≤ c.toNat ∧ c.toNat ≤ 0xE7 → ∃ lenHi, decode (c :: rest) = .ok (.reservedX001 lenHi, rest)) ∧
    (0xE8 ≤ c.toNat ∧ c.toNat ≤ 0xEB → ∃ lenHi, decode (c :: rest) = .ok (.reservedX010 lenHi, rest)) ∧
    (0xEC ≤ c.toNat ∧ c.toNat ≤ 0xEF → ∃ lenHi, decode (c :: rest) = .ok (.reservedX011 lenHi, rest)) ∧
    (0xF0 ≤ c.toNat ∧ c.toNat ≤ 0xF3 → ∃ (len : BitVec 10) (dist : BitVec 16),
      len.toNat = 256 * (c.toNat - 0xF0) + b.toNat ∧ dist.toNat = d0.toNat + 256 * d1.toNat ∧
      decode (c :: b :: d0 :: d1 :: rest) = .ok (.brefx len dist, rest)) ∧
    (0xF4 ≤ c.toNat ∧ c.toNat ≤ 0xF7 → ∃ lenHi, decode (c :: rest) = .ok (.reservedX101 lenHi, rest)) ∧
    (0xF8 ≤ c.toNat ∧ c.toNat ≤ 0xFB → ∃ lenHi, decode (c :: rest) = .ok (.reservedX110 lenHi, rest)) ∧
    (0xFC ≤ c.toNat ∧ c.toNat ≤ 0xFE → ∃ lenHi, decode (c :: rest) = .ok (.reservedX111 lenHi, rest)) ∧
    (c.toNat = 0xFF → decode (c :: rest) = .ok (.endStream, rest))

/-- A few header bytes written out bit by bit from R62 to R68 decode to what they stand for. -/
def Obligations.WordsOfTheSpecDecode : Prop :=
  decode [0b11111111] = .ok (.endStream, []) ∧
  decode [0b00000010] = .ok (.lit 2, []) ∧
  decode [0b10000101, 0b00000010, 0b00000000] = .ok (.bref 5 2, []) ∧
  decode [0b11100001, 0b00111111] = .ok (.litx 319, []) ∧
  decode [0b11110000, 0b00000011, 0b00000001, 0b00000000] = .ok (.brefx 3 1, []) ∧
  decode [0b00100000] = .ok (.reservedS001 0, []) ∧
  decode [0b11111110] = .ok (.reservedX111 2, []) ∧
  decodeHostWrite 0 1 = some .lzStart ∧
  decodeHostWrite 16 1 = some .tileDec ∧
  decodeHostWrite 24 0x7FE0 = some (.colConv 0x7FE0)

/-- The host commands are these register writes and no others (R73); a write of register 24 gives its low 16 bits
(the model's choice, log 13). -/
def Obligations.HostCommandCodes : Prop :=
  (∀ (reg : Nat) (value : Word) (i : Instr), decodeHostWrite reg value = some i ↔
    (reg = 0 ∧ value = 1 ∧ i = .lzStart) ∨ (reg = 16 ∧ value = 1 ∧ i = .tileDec) ∨
    (reg = 24 ∧ ∃ word : ColourWord, word.toNat = value.toNat % 2 ^ 16 ∧ i = .colConv word)) ∧
  (∀ i : Instr, i.isToken = false → decodeCode (encode i) = some i)

/-! ### A step runs the decoded instruction -/

/-- In FETCH, past the hint check (R104), with a whole header in the slice, a step is `exec` of the token that the
header bytes decode to, after T0 <- SP and after SP and LZ_CONSUMED have counted the header bytes (R120, R44). -/
def Obligations.StepRunsDecodedToken : Prop :=
  ∀ (s : State) (rest : List HostOp) (n : Nat) (i : Instr), lzHasTurn rest s → s.lz.phase = .fetch →
    ¬ hintDue s → decode (srcBytes s.src s.lz.sp.toNat n) = .ok (i, []) →
    s.lz.sp.toNat + n ≤ s.lz.srcLen.toNat →
    step s = exec i { s with
      host := rest
      lz := { s.lz with t0 := s.lz.sp, sp := s.lz.sp + BitVec.ofNat 32 n,
                        consumed := s.lz.consumed + BitVec.ofNat 32 n } }

/-- A host write that is a host command is `exec` of that command (R73). -/
def Obligations.StepRunsHostCommand : Prop :=
  ∀ (s : State) (rest : List HostOp) (reg : Nat) (value : Word) (i : Instr),
    s.host = .write reg value :: rest → decodeHostWrite reg value = some i →
    step s = exec i { s with host := rest }

/-- In IDLE, DONE and FAULT no step of the LZ unit is enabled: its turn changes nothing (R103, R105, R106). That
the machine then answers an unchanged state is log 11. -/
def Obligations.WaitingUnitDoesNothing : Prop :=
  ∀ (s : State) (rest : List HostOp), lzHasTurn rest s →
    s.lz.phase = .idle ∨ s.lz.phase = .done ∨ s.lz.phase = .fault → step s = .next { s with host := rest }

/-! ### Reset -/

/-- Reset from any state (R170, R171): every register reads 0, the hidden registers are 0, OUT, T_IN and T_OUT
have no value anywhere; SRC, OUT_CAP and what the host has pending are as before (log 16). -/
def Obligations.ResetClearsEveryRegister : Prop :=
  ∀ (s : State) (rest : List HostOp), s.host = .reset :: rest →
    ∃ t, step s = .next t ∧ (∀ reg, readReg reg t = 0) ∧ t.lz.phase = .idle ∧ t.lz.stop = .none ∧
      t.lz.cause = .none ∧ t.lz.hintEn = false ∧ t.lz.op = .lit ∧ t.lz.cnt = 0 ∧ t.lz.cpy = 0 ∧ t.lz.t0 = 0 ∧
      t.tile.status = .idle ∧ t.tile.cause = .none ∧ t.cIn = 0 ∧
      (∀ k, Memory.valueAt k t.out = none ∧ Memory.valueAt k t.tile.tIn = none ∧
        Memory.valueAt k t.tile.tOut = none) ∧
      t.src = s.src ∧ t.outCap = s.outCap ∧ t.host = rest ∧ t.hostData = s.hostData

/-- What R37 gives the state right after reset; and nothing runs until the host issues a command. -/
def Obligations.StateAfterReset : Prop :=
  (∀ reg, readReg reg State.reset = 0) ∧ State.reset.lz.op = .lit ∧ State.reset.lz.cnt = 0 ∧
  State.reset.lz.cpy = 0 ∧ State.reset.lz.t0 = 0 ∧
  (∀ k, Memory.valueAt k State.reset.out = none ∧ Memory.valueAt k State.reset.tile.tIn = none ∧
    Memory.valueAt k State.reset.tile.tOut = none) ∧
  ∀ k, runs k State.reset = .next State.reset

/-- The invariant holds at reset, for every capacity that R7 admits. -/
def Obligations.ResetMeetsInvariant : Prop :=
  MachineSound State.reset ∧ ∀ outCap : Word, Config.outCapLegal outCap → MachineSound (State.resetWith outCap)

/-! ### Registers -/

/-- The codes of the status and cause registers (R20, R21, R29, R30); reserved bits read 0. -/
def Obligations.StatusAndCauseCodes : Prop :=
  ∀ s : State,
    (readReg 5 s).toNat = (match s.lz.phase with
        | .idle => 0 | .fetch => 1 | .runLit => 2 | .runCopy => 3 | .done => 4 | .fault => 5)
      + 8 * (match s.lz.stop with | .none => 0 | .terminator => 1 | .hint => 2) ∧
    (readReg 6 s).toNat = (match s.lz.cause with
        | .none => 0 | .badOp => 1 | .windowBeforeStart => 2 | .windowPastEnd => 3 | .srcExhausted => 4
        | .outFull => 5) ∧
    (readReg 18 s).toNat = (match s.tile.status with | .idle => 0 | .done => 1 | .fault => 2) ∧
    (readReg 19 s).toNat = (match s.tile.cause with | .none => 0 | .invalidTileSize => 8)

/-- What every other register number reads, in every state (R14, R16 to R19, R22 to R28, R31, R32): LZ_CFG its one
bit, the wide registers their words, C_IN zero-extended, the channels of C_IN (R81), and 0 for LZ_CMD, T_CMD and the
unused numbers. -/
def Obligations.RegisterReadMap : Prop :=
  ∀ s : State,
    (readReg 1 s).toNat = (if s.lz.hintEn then 1 else 0) ∧ readReg 2 s = s.lz.srcLen ∧ readReg 3 s = s.lz.start ∧
    readReg 4 s = s.lz.hint ∧ readReg 7 s = s.lz.faddr ∧ readReg 8 s = s.lz.sp ∧ readReg 9 s = s.lz.consumed ∧
    readReg 10 s = s.lz.base ∧ readReg 11 s = s.lz.olen ∧ readReg 17 s = s.tile.len ∧
    (readReg 24 s).toNat = s.cIn.toNat ∧ (readReg 25 s).toNat = s.cIn.toNat % 32 * 8 ∧
    (readReg 26 s).toNat = s.cIn.toNat / 32 % 32 * 8 ∧ (readReg 27 s).toNat = s.cIn.toNat / 1024 % 32 * 8 ∧
    ∀ reg, reg = 0 ∨ (12 ≤ reg ∧ reg ≤ 16) ∨ (20 ≤ reg ∧ reg ≤ 23) ∨ 28 ≤ reg → readReg reg s = 0

/-- Configuration is frozen while BUSY (R178): a host write of LZ_CMD, LZ_CFG, LZ_SRCLEN, LZ_START or LZ_HINT is
ignored. A host read of any register is allowed in every state, BUSY or not (R178, R14, R112): it returns what the
register holds between two steps and changes nothing (what the read returned stands in `hostData`). -/
def Obligations.BusyUnitIgnoresHostWrites : Prop :=
  ∀ (s : State) (rest : List HostOp) (reg : Nat),
    (∀ value : Word, s.lz.busy = true → reg ≤ 4 → s.host = .write reg value :: rest →
      step s = .next { s with host := rest }) ∧
    (s.host = .read reg :: rest → step s = .next { s with host := rest, hostData := readReg reg s })

/-- A written RW register reads back what R16 to R19, R28 and R31 say, and no other register and no memory
changes, but C_R, C_G and C_B, which follow C_IN (R32). C_IN's 16 bits of the word: log 13. -/
def Obligations.WrittenRegisterReadsBack : Prop :=
  ∀ (s : State) (rest : List HostOp) (reg : Nat) (value : Word), s.host = .write reg value :: rest →
    (s.lz.busy = false ∧ (reg = 1 ∨ reg = 2 ∨ reg = 3 ∨ reg = 4)) ∨ reg = 17 ∨ reg = 24 →
    ∃ t, step s = .next t ∧
      (readReg reg t).toNat =
        (if reg = 1 then value.toNat % 2 else if reg = 24 then value.toNat % 2 ^ 16 else value.toNat) ∧
      (∀ r, r ≠ reg → ¬ (reg = 24 ∧ (r = 25 ∨ r = 26 ∨ r = 27)) → readReg r t = readReg r s) ∧
      t.lz.op = s.lz.op ∧ t.lz.cnt = s.lz.cnt ∧ t.lz.cpy = s.lz.cpy ∧ t.lz.t0 = s.lz.t0 ∧
      t.out = s.out ∧ t.src = s.src ∧ t.tile.tIn = s.tile.tIn ∧ t.tile.tOut = s.tile.tOut ∧ t.host = rest

/-- Read-only registers and unused numbers ignore writes, and so do LZ_CMD and T_CMD for a value other than 1
(R14, R15, R27). -/
def Obligations.OtherWritesAreIgnored : Prop :=
  ∀ (s : State) (rest : List HostOp) (reg : Nat) (value : Word), s.host = .write reg value :: rest →
    (reg = 0 ∧ value ≠ 1) ∨ (5 ≤ reg ∧ reg ≠ 16 ∧ reg ≠ 17 ∧ reg ≠ 24) ∨ (reg = 16 ∧ value ≠ 1) →
    step s = .next { s with host := rest }

/-! ### Starting a run, and its ends -/

/-- LZ.START (R102): while not BUSY every register it writes, and nothing else; while BUSY the command is ignored. -/
def Obligations.StartBeginsARun : Prop :=
  ∀ s : State,
    (s.lz.busy = false → exec .lzStart s = .next { s with lz := { s.lz with
      base := s.lz.start, sp := s.lz.start, consumed := 0, olen := 0, cause := .none, faddr := 0, op := .lit,
      cnt := 0, cpy := 0, t0 := s.lz.start, stop := .none, phase := .fetch } }) ∧
    (s.lz.busy = true → exec .lzStart s = .next s)

/-- END (R126): STOP <- END, PHASE <- DONE, nothing else; met in the stream, after T0 <- SP and after SP and
LZ_CONSUMED have counted the byte 0xFF, and nothing after it is read. -/
def Obligations.TerminatorEndsTheRun : Prop :=
  (∀ s : State, exec .endStream s = .next { s with lz := { s.lz with stop := .terminator, phase := .done } }) ∧
  ∀ (s : State) (rest : List HostOp), lzHasTurn rest s → s.lz.phase = .fetch → ¬ hintDue s →
    s.lz.sp.toNat < s.lz.srcLen.toNat → srcByte s.src s.lz.sp.toNat = 0xFF →
    step s = .next { s with
      host := rest
      lz := { s.lz with t0 := s.lz.sp, sp := s.lz.sp + 1, consumed := s.lz.consumed + 1,
                        stop := .terminator, phase := .done } }

/-- The size-hint check (R104): first in every step of a BUSY unit; the step then does nothing else. -/
def Obligations.HintStopsBeforeAnythingElse : Prop :=
  ∀ (s : State) (rest : List HostOp), lzHasTurn rest s → s.lz.busy = true → hintDue s →
    step s = .next { s with host := rest, lz := { s.lz with stop := .hint, phase := .done } }

/-! ### Tokens -/

/-- LIT and LITX (R121, R122): OP <- 0, CNT <- n, PHASE <- RUN_LIT, nothing else; n = len + 1 is 1 .. 32 or
1 .. 1024 (R67). -/
def Obligations.LiteralHeaderStartsARun : Prop :=
  (∀ (s : State) (len : BitVec 5), ∃ n : BitVec 11, n.toNat = len.toNat + 1 ∧ n.toNat ≤ 32 ∧
    exec (.lit len) s = .next { s with lz := { s.lz with op := .lit, cnt := n, phase := .runLit } }) ∧
  (∀ (s : State) (len : BitVec 10), ∃ n : BitVec 11, n.toNat = len.toNat + 1 ∧ n.toNat ≤ 1024 ∧
    exec (.litx len) s = .next { s with lz := { s.lz with op := .lit, cnt := n, phase := .runLit } })

/-- BREF and BREFX whose distance is in the window (R123, R124, R129): OP <- 1, CNT <- n, CPY <- LZ_OLEN - d,
PHASE <- RUN_COPY, nothing else. -/
def Obligations.CopyHeaderInWindowStartsARun : Prop :=
  (∀ (s : State) (len : BitVec 5) (dist : BitVec 16), 1 ≤ dist.toNat → dist.toNat ≤ s.lz.olen.toNat →
    ∃ (n : BitVec 11) (p : Word), n.toNat = len.toNat + 1 ∧ p.toNat = s.lz.olen.toNat - dist.toNat ∧
      exec (.bref len dist) s
        = .next { s with lz := { s.lz with op := .bref, cnt := n, cpy := p, phase := .runCopy } }) ∧
  (∀ (s : State) (len : BitVec 10) (dist : BitVec 16), 1 ≤ dist.toNat → dist.toNat ≤ s.lz.olen.toNat →
    ∃ (n : BitVec 11) (p : Word), n.toNat = len.toNat + 1 ∧ p.toNat = s.lz.olen.toNat - dist.toNat ∧
      exec (.brefx len dist) s
        = .next { s with lz := { s.lz with op := .bref, cnt := n, cpy := p, phase := .runCopy } })

/-- The window check (R129). For any layout: a source position p below 0 or at or past LZ_OLEN is rejected before
any byte is copied, fault entry and nothing else; any other p starts the run with CPY <- p, whatever its length.
Under L0 p is LZ_OLEN - d: d > LZ_OLEN is the first case, d = 0 the second. -/
def Obligations.WindowCheckOnTheFirstPosition : Prop :=
  (∀ (s : State) (n : BitVec 11) (p : Int),
    (p < 0 → startClass (.bref n p) s = .next { s with lz := haltedBy .windowBeforeStart s.lz.t0 s.lz }) ∧
    ((s.lz.olen.toNat : Int) ≤ p →
      startClass (.bref n p) s = .next { s with lz := haltedBy .windowPastEnd s.lz.t0 s.lz }) ∧
    (0 ≤ p → p < s.lz.olen.toNat → ∃ cpy : Word, (cpy.toNat : Int) = p ∧ startClass (.bref n p) s
      = .next { s with lz := { s.lz with op := .bref, cnt := n, cpy := cpy, phase := .runCopy } })) ∧
  (∀ (s : State) (i : Instr) (dist : BitVec 16), (∃ len, i = .bref len dist) ∨ (∃ len, i = .brefx len dist) →
    ∃ (n : BitVec 11) (p : Int), p = (s.lz.olen.toNat : Int) - dist.toNat ∧ exec i s = startClass (.bref n p) s ∧
      (p < 0 ↔ s.lz.olen.toNat < dist.toNat) ∧ ((s.lz.olen.toNat : Int) ≤ p ↔ dist.toNat = 0))

/-- A distance outside the window, met in the stream (R142, R143): d > LZ_OLEN is cause 2, d = 0 cause 3; raised
after the whole header and both operand bytes have been read and counted, before any byte is copied. -/
def Obligations.DistanceOutsideWindowFaults : Prop :=
  ∀ (s : State) (rest : List HostOp) (n : Nat) (i : Instr) (dist : BitVec 16), lzHasTurn rest s →
    s.lz.phase = .fetch → ¬ hintDue s → decode (srcBytes s.src s.lz.sp.toNat n) = .ok (i, []) →
    (∃ len, i = .bref len dist) ∨ (∃ len, i = .brefx len dist) → s.lz.sp.toNat + n ≤ s.lz.srcLen.toNat →
    (s.lz.olen.toNat < dist.toNat → ∃ t, step s = .next t ∧ readReg 6 t = 2 ∧ t = { s with
      host := rest
      lz := haltedBy .windowBeforeStart s.lz.sp { s.lz with
        t0 := s.lz.sp, sp := s.lz.sp + BitVec.ofNat 32 n, consumed := s.lz.consumed + BitVec.ofNat 32 n } }) ∧
    (dist.toNat = 0 → ∃ t, step s = .next t ∧ readReg 6 t = 3 ∧ t = { s with
      host := rest
      lz := haltedBy .windowPastEnd s.lz.sp { s.lz with
        t0 := s.lz.sp, sp := s.lz.sp + BitVec.ofNat 32 n, consumed := s.lz.consumed + BitVec.ofNat 32 n } })

/-- A reserved operation raises BAD_OP (R125, R141): fault entry with LZ_FADDR = T0, nothing else, whatever its
length bits. -/
def Obligations.ReservedTokensRaiseBadOp : Prop :=
  ∀ (s : State) (len : BitVec 5) (lenHi : BitVec 2) (i : Instr),
    i = .reservedS001 len ∨ i = .reservedS010 len ∨ i = .reservedS011 len ∨ i = .reservedS101 len ∨
    i = .reservedS110 len ∨ i = .reservedX001 lenHi ∨ i = .reservedX010 lenHi ∨ i = .reservedX011 lenHi ∨
    i = .reservedX101 lenHi ∨ i = .reservedX110 lenHi ∨ i = .reservedX111 lenHi →
    exec i s = .next { s with lz := haltedBy .badOp s.lz.t0 s.lz }

/-- A reserved control byte in the stream (R125): after its one byte the unit halts with BAD_OP, LZ_FADDR the
offset of that byte; no further byte is read and no output changes. -/
def Obligations.ReservedByteHaltsAfterOneByte : Prop :=
  ∀ (s : State) (rest : List HostOp), lzHasTurn rest s → s.lz.phase = .fetch → ¬ hintDue s →
    s.lz.sp.toNat < s.lz.srcLen.toNat → reservedControl (srcByte s.src s.lz.sp.toNat) →
    step s = .next { s with
      host := rest
      lz := haltedBy .badOp s.lz.sp
        { s.lz with t0 := s.lz.sp, sp := s.lz.sp + 1, consumed := s.lz.consumed + 1 } }

/-- A header that the end of the slice cuts short (R144, R148): the bytes that exist are read and counted, then
SRC_EXHAUSTED with LZ_FADDR = T0, the control byte's offset; nothing else changes. With no byte left this is the
missing control byte. -/
def Obligations.HeaderCutShortFaults : Prop :=
  ∀ (s : State) (rest : List HostOp) (e : DecodeError), lzHasTurn rest s → s.lz.phase = .fetch → ¬ hintDue s →
    decode (srcBytes s.src s.lz.sp.toNat (bytesLeft s)) = .error e →
    step s = .next { s with
      host := rest
      lz := haltedBy .srcExhausted s.lz.sp
        { s.lz with t0 := s.lz.sp, sp := s.lz.sp + BitVec.ofNat 32 (bytesLeft s),
                    consumed := s.lz.consumed + BitVec.ofNat 32 (bytesLeft s) } }

/-! ### The run steps -/

/-- The RUN_LIT step (R127). The hint check comes first. Then both bounds are tested before anything changes, the
source first: fault entry and nothing else, the literal byte not consumed. Inside both, one byte goes from SRC[SP] to
OUT[LZ_OLEN]; SP, LZ_CONSUMED and LZ_OLEN grow by 1, CNT falls by 1, PHASE becomes FETCH when CNT is 0; every other
register, every other byte of OUT and every other unit is unchanged. -/
def Obligations.RunLitStep : Prop :=
  ∀ (s : State) (rest : List HostOp), lzHasTurn rest s → s.lz.phase = .runLit →
    (hintDue s → step s = .next { s with host := rest, lz := { s.lz with stop := .hint, phase := .done } }) ∧
    (¬ hintDue s → s.lz.srcLen.toNat ≤ s.lz.sp.toNat →
      step s = .next { s with host := rest, lz := haltedBy .srcExhausted s.lz.t0 s.lz }) ∧
    (¬ hintDue s → s.lz.sp.toNat < s.lz.srcLen.toNat → s.outCap.toNat ≤ s.lz.olen.toNat →
      step s = .next { s with host := rest, lz := haltedBy .outFull s.lz.t0 s.lz }) ∧
    (¬ hintDue s → 1 ≤ s.lz.cnt.toNat → s.lz.sp.toNat < s.lz.srcLen.toNat →
      s.lz.olen.toNat < s.outCap.toNat → ∃ t, step s = .next t ∧
        t.lz.sp.toNat = s.lz.sp.toNat + 1 ∧ t.lz.consumed = s.lz.consumed + 1 ∧
        t.lz.olen.toNat = s.lz.olen.toNat + 1 ∧ t.lz.cnt.toNat = s.lz.cnt.toNat - 1 ∧
        (t.lz.cnt.toNat = 0 → t.lz.phase = .fetch) ∧ (t.lz.cnt.toNat ≠ 0 → t.lz.phase = .runLit) ∧
        Memory.valueAt s.lz.olen.toNat t.out = some (srcByte s.src s.lz.sp.toNat) ∧
        (∀ k, k ≠ s.lz.olen.toNat → Memory.valueAt k t.out = Memory.valueAt k s.out) ∧
        t = { s with host := rest, out := t.out, lz := { s.lz with
          sp := t.lz.sp, consumed := t.lz.consumed, olen := t.lz.olen, cnt := t.lz.cnt, phase := t.lz.phase } })

/-- The RUN_COPY step (R128). The hint check comes first; then, with OUT full, fault entry and nothing else. With
room, OUT[CPY] as every earlier step has left it goes to OUT[LZ_OLEN]; CPY and LZ_OLEN grow by 1, CNT falls by 1, PHASE
becomes FETCH when CNT is 0; SP, LZ_CONSUMED and everything else are unchanged. -/
def Obligations.RunCopyStep : Prop :=
  ∀ (s : State) (rest : List HostOp), lzHasTurn rest s → s.lz.phase = .runCopy →
    (hintDue s → step s = .next { s with host := rest, lz := { s.lz with stop := .hint, phase := .done } }) ∧
    (¬ hintDue s → s.outCap.toNat ≤ s.lz.olen.toNat →
      step s = .next { s with host := rest, lz := haltedBy .outFull s.lz.t0 s.lz }) ∧
    (∀ v : Byte, ¬ hintDue s → 1 ≤ s.lz.cnt.toNat → s.lz.cpy.toNat < s.lz.olen.toNat →
      s.lz.olen.toNat < s.outCap.toNat → Memory.valueAt s.lz.cpy.toNat s.out = some v →
      ∃ t, step s = .next t ∧
        t.lz.cpy.toNat = s.lz.cpy.toNat + 1 ∧ t.lz.olen.toNat = s.lz.olen.toNat + 1 ∧
        t.lz.cnt.toNat = s.lz.cnt.toNat - 1 ∧
        (t.lz.cnt.toNat = 0 → t.lz.phase = .fetch) ∧ (t.lz.cnt.toNat ≠ 0 → t.lz.phase = .runCopy) ∧
        Memory.valueAt s.lz.olen.toNat t.out = some v ∧
        (∀ k, k ≠ s.lz.olen.toNat → Memory.valueAt k t.out = Memory.valueAt k s.out) ∧
        t = { s with host := rest, out := t.out, lz := { s.lz with
          cpy := t.lz.cpy, olen := t.lz.olen, cnt := t.lz.cnt, phase := t.lz.phase } })

/-! ### Whole tokens -/

/-- A literal token that fits (42_lz_run_control.md section 7, R121, R122, R127): after its header and n steps the
n payload bytes stand at the end of OUT, SP and LZ_CONSUMED have counted header and payload, and nothing else has
changed but the hidden registers. The host has nothing pending and no hint is in force (`HintedRunIsAPrefix` says what
a hint changes). -/
def Obligations.LiteralTokenCopiesItsPayload : Prop :=
  ∀ (s : State) (i : Instr) (h n : Nat), s.host = [] → s.lz.phase = .fetch → s.lz.hintEn = false →
    decode (srcBytes s.src s.lz.sp.toNat h) = .ok (i, []) →
    (∃ len, i = .lit len ∧ n = len.toNat + 1) ∨ (∃ len, i = .litx len ∧ n = len.toNat + 1) →
    s.lz.sp.toNat + h + n ≤ s.lz.srcLen.toNat → s.lz.olen.toNat + n ≤ s.outCap.toNat →
    ∃ t, runs (1 + n) s = .next t ∧
      t.lz.sp.toNat = s.lz.sp.toNat + h + n ∧ t.lz.consumed = s.lz.consumed + BitVec.ofNat 32 (h + n) ∧
      t.lz.olen.toNat = s.lz.olen.toNat + n ∧
      (∀ k, k < n → Memory.valueAt (s.lz.olen.toNat + k) t.out = some (srcByte s.src (s.lz.sp.toNat + h + k))) ∧
      (∀ a, a < s.lz.olen.toNat ∨ s.lz.olen.toNat + n ≤ a →
        Memory.valueAt a t.out = Memory.valueAt a s.out) ∧
      t = { s with out := t.out, lz := { s.lz with
        sp := t.lz.sp, consumed := t.lz.consumed, olen := t.lz.olen, op := .lit, cnt := 0, t0 := s.lz.sp } }

/-- A back-reference token that fits (43_lz_tokens.md section 3, R128, R54, R175): after its header and n steps,
byte k of the run is the byte that stood at LZ_OLEN - d + (k mod d) before the token: a plain copy when d >= n, the
last d bytes repeated when d < n. The host has nothing pending and no hint is in force (`HintedRunIsAPrefix` says
what a hint changes). -/
def Obligations.CopyTokenRepeatsThePattern : Prop :=
  ∀ (s : State) (i : Instr) (h n : Nat) (dist : BitVec 16), s.host = [] → s.lz.phase = .fetch →
    s.lz.hintEn = false → decode (srcBytes s.src s.lz.sp.toNat h) = .ok (i, []) →
    (∃ len, i = .bref len dist ∧ n = len.toNat + 1) ∨ (∃ len, i = .brefx len dist ∧ n = len.toNat + 1) →
    s.lz.sp.toNat + h ≤ s.lz.srcLen.toNat → 1 ≤ dist.toNat → dist.toNat ≤ s.lz.olen.toNat →
    s.lz.olen.toNat + n ≤ s.outCap.toNat →
    (∀ a, a < s.lz.olen.toNat → (Memory.valueAt a s.out).isSome = true) →
    ∃ t, runs (1 + n) s = .next t ∧
      t.lz.sp.toNat = s.lz.sp.toNat + h ∧ t.lz.consumed = s.lz.consumed + BitVec.ofNat 32 h ∧
      t.lz.olen.toNat = s.lz.olen.toNat + n ∧
      (∀ k, k < n → Memory.valueAt (s.lz.olen.toNat + k) t.out
        = Memory.valueAt (s.lz.olen.toNat - dist.toNat + k % dist.toNat) s.out) ∧
      (∀ a, a < s.lz.olen.toNat ∨ s.lz.olen.toNat + n ≤ a →
        Memory.valueAt a t.out = Memory.valueAt a s.out) ∧
      t = { s with out := t.out, lz := { s.lz with
        sp := t.lz.sp, consumed := t.lz.consumed, olen := t.lz.olen, op := .bref, cnt := 0,
        cpy := t.lz.cpy, t0 := s.lz.sp } }

/-- The literal round trip (95_test_vectors.md V40, 30_encoding.md section 8): a stream made of LITERAL B and END
decodes to B appended to the output, and every byte of it is consumed. -/
def Obligations.LiteralStreamDecodesToItsBytes : Prop :=
  ∀ (s : State) (payload : List Byte), s.host = [] → s.lz.phase = .fetch → s.lz.hintEn = false →
    streamAt s (literalStream payload ++ [0xFF]) → s.lz.olen.toNat + payload.length ≤ s.outCap.toNat →
    ∃ (k : Nat) (t : State), runs k s = .next t ∧ t.lz.phase = .done ∧ t.lz.stop = .terminator ∧
      t.lz.olen.toNat = s.lz.olen.toNat + payload.length ∧
      t.lz.sp.toNat = s.lz.sp.toNat + (literalStream payload).length + 1 ∧
      t.lz.consumed = s.lz.consumed + BitVec.ofNat 32 ((literalStream payload).length + 1) ∧
      (∀ (j : Nat) (h : j < payload.length),
        Memory.valueAt (s.lz.olen.toNat + j) t.out = some (payload[j]'h)) ∧
      ∀ a, a < s.lz.olen.toNat → Memory.valueAt a t.out = Memory.valueAt a s.out

/-! ### Whole runs -/

/-- Termination (42_lz_run_control.md section 7): from LZ.START, for every source and every register setting, the
run is over after at most 344 * S + 2 steps, S the bytes of the slice from LZ_START on. A run that ends earlier
waits for the rest of that fixed number of steps (log 11). -/
def Obligations.EveryRunEnds : Prop :=
  ∀ s : State, s.lz.busy = false → s.host = [] →
    ∃ t0 t, exec .lzStart s = .next t0 ∧
      runs (344 * (s.lz.srcLen.toNat - s.lz.start.toNat) + 2) t0 = .next t ∧
      (t.lz.phase = .done ∨ t.lz.phase = .fault)

/-- How much a run can produce (42_lz_run_control.md section 7): at most min(OUT_CAP, 1024 * floor(S / 3) + S)
bytes, at every moment of the run, and after it while the machine waits (log 11). -/
def Obligations.OutputOfARunIsBounded : Prop :=
  ∀ (s t0 t : State) (k : Nat), s.lz.busy = false → s.host = [] → exec .lzStart s = .next t0 →
    runs k t0 = .next t →
    t.lz.olen.toNat ≤ min s.outCap.toNat
      (1024 * ((s.lz.srcLen.toNat - s.lz.start.toNat) / 3) + (s.lz.srcLen.toNat - s.lz.start.toNat))

/-- Determinism (42_lz_run_control.md section 7): what a run shows after any number of steps depends on the source
slice, LZ_SRCLEN, LZ_START, the hint if it is enabled, and OUT_CAP; not on earlier runs, stale bytes of OUT or the
other units. Past the end of the run the steps are those of a machine that waits (log 11). -/
def Obligations.RunDependsOnItsInputsOnly : Prop :=
  ∀ (s s' : State) (k : Nat), s.lz.busy = false → s'.lz.busy = false → s.host = [] → s'.host = [] →
    s.lz.srcLen = s'.lz.srcLen → s.lz.start = s'.lz.start → s.lz.hintEn = s'.lz.hintEn →
    (s.lz.hintEn = true → s.lz.hint = s'.lz.hint) → s.outCap = s'.outCap →
    (∀ a, a < s.lz.srcLen.toNat → srcByte s.src a = srcByte s'.src a) →
    ∃ t0 t0' t t', exec .lzStart s = .next t0 ∧ exec .lzStart s' = .next t0' ∧
      runs k t0 = .next t ∧ runs k t0' = .next t' ∧
      t.lz.phase = t'.lz.phase ∧ t.lz.stop = t'.lz.stop ∧ t.lz.cause = t'.lz.cause ∧
      t.lz.faddr = t'.lz.faddr ∧ t.lz.sp = t'.lz.sp ∧ t.lz.base = t'.lz.base ∧
      t.lz.consumed = t'.lz.consumed ∧ t.lz.olen = t'.lz.olen ∧
      (∀ a, a < t.lz.olen.toNat → Memory.valueAt a t.out = Memory.valueAt a t'.out) ∧
      runResult t = runResult t'

/-- The prefix law of the size hint (42_lz_run_control.md section 7). While the unhinted run's output is below H
the hinted run does the same, past its end too, where the machine waits (log 11); when a step brings it to H, the
hinted run's next step stops by hint. A hint of 0 is the case of `HintStopsBeforeAnythingElse`. -/
def Obligations.HintedRunIsAPrefix : Prop :=
  ∀ (s t : State) (hint : Word) (k : Nat), s.host = [] → s.lz.hintEn = false → runs k s = .next t →
    t.lz.olen.toNat < hint.toNat →
    runs k (withHint hint s) = .next (withHint hint t) ∧
    ∀ u, step t = .next u → u.lz.olen.toNat = hint.toNat →
      runs (k + 2) (withHint hint s) = .next { withHint hint u with
        lz := { (withHint hint u).lz with stop := .hint, phase := .done } }

/-! ### Invariants and whole-machine rules -/

/-- Every step keeps the invariant (10_state.md section 8; 20_memory.md section 1). -/
def Obligations.StepKeepsInvariant : Prop :=
  ∀ s t : State, MachineSound s → step s = .next t → MachineSound t

/-- In a state that meets the invariant no step faults: a copy never reads a byte of OUT that has no value (R46);
and when it is the LZ unit's turn the step answers a next state. While BUSY that is R103's enabled step; that it
answers in IDLE, DONE and FAULT, where R103 enables no step, is the model's choice (log 11). -/
def Obligations.SoundStateNeverFaults : Prop :=
  ∀ s : State, MachineSound s →
    (∀ f, step s ≠ .fault f) ∧ ∀ rest, lzHasTurn rest s → ∃ t, step s = .next t

/-- The run-control rules hold for every layout that meets R60's contract (93_implementation_defined.md U8): the
unit's turn keeps R36's invariants whatever the layout. -/
def Obligations.AnyLayoutKeepsTheUnitSound : Prop :=
  ∀ L : Layout, L.contract → ∀ s t : State, LzSound s → lzTurnWith L s = .next t → LzSound t

/-- Under every layout that meets R60's contract the whole machine, with the host's accesses, its commands and
reset, keeps R36's invariants, the other units' and the memories', and OUT_CAP stays what it is (R7, U8, U9); no
step faults; and when it is the LZ unit's turn the step answers a next state (in IDLE, DONE and FAULT: log 11). -/
def Obligations.AnyLayoutKeepsTheBlockSound : Prop :=
  ∀ (L : Layout) (s : State), L.contract → BlockSound s →
    (∀ t, stepWith L s = .next t → BlockSound t ∧ t.outCap = s.outCap) ∧
    (∀ f, stepWith L s ≠ .fault f) ∧ ∀ rest, lzHasTurn rest s → ∃ t, stepWith L s = .next t

/-- What a layout decides, and what it does not (R60, U8). Outside a FETCH step past its hint check the step is the
same under every layout: the host's accesses and commands, reset, the hint check, RUN_LIT and RUN_COPY. A FETCH step
with a whole header in the slice latches T0, counts the header's bytes and begins what the layout's class says, for
the LZ_OLEN of that moment (the window check of a back-reference is a statement of its own); a header cut short by
the end of the slice raises SRC_EXHAUSTED (R144, R148). That a layout may answer Unrecognised after several header
bytes, so that BAD_OP follows more than one consumed byte, and that its class and run length may depend on LZ_OLEN,
is the model's choice (log 4; for L0 R141 and R148 say one byte). -/
def Obligations.StepUnderAnyLayout : Prop :=
  ∀ (L : Layout) (s : State),
    (¬ (s.lz.phase = .fetch ∧ ¬ hintDue s ∧ ∃ rest, lzHasTurn rest s) → stepWith L s = step s) ∧
    (∀ rest, s.lz.phase = .fetch → ¬ hintDue s → lzHasTurn rest s →
      (∀ (n : Nat) (f : Word → TokenClass),
        (HeaderReader.fetch L.reader).feed (srcBytes s.src s.lz.sp.toNat n) = .ok (f, []) →
        s.lz.sp.toNat + n ≤ s.lz.srcLen.toNat →
        stepWith L s = startClass (f s.lz.olen) { s with
          host := rest
          lz := { s.lz with t0 := s.lz.sp, sp := s.lz.sp + BitVec.ofNat 32 n,
                            consumed := s.lz.consumed + BitVec.ofNat 32 n } }) ∧
      ∀ e, (HeaderReader.fetch L.reader).feed (srcBytes s.src s.lz.sp.toNat (bytesLeft s)) = .error e →
        stepWith L s = .next { s with
          host := rest
          lz := haltedBy .srcExhausted s.lz.sp
            { s.lz with t0 := s.lz.sp, sp := s.lz.sp + BitVec.ofNat 32 (bytesLeft s),
                        consumed := s.lz.consumed + BitVec.ofNat 32 (bytesLeft s) } }) ∧
    (∀ n, startClass (.lit n) s = .next { s with lz := { s.lz with op := .lit, cnt := n, phase := .runLit } }) ∧
    startClass .terminator s = .next { s with lz := { s.lz with stop := .terminator, phase := .done } } ∧
    startClass .unrecognised s = .next { s with lz := haltedBy .badOp s.lz.t0 s.lz }

/-- There is no token stream that hangs the unit, whatever the layout (R109, U8): from LZ.START the run is over after
at most 2048 * S + 2 steps, S the bytes of the slice from LZ_START on. R109's 344 * S + 2 is L0's; here a run has at
most the 2047 bytes that CNT can count (log 4). A run that ends earlier waits for the rest of that fixed number of
steps (log 11). The state's own OUT_CAP is any, not only that of P. -/
def Obligations.EveryRunEndsUnderAnyLayout : Prop :=
  ∀ (P : Parameters) (s : State), P.legal → s.lz.busy = false → s.host = [] →
    ∃ t0 t, exec .lzStart s = .next t0 ∧
      runsWith P (2048 * (s.lz.srcLen.toNat - s.lz.start.toNat) + 2) t0 = .next t ∧
      (t.lz.phase = .done ∨ t.lz.phase = .fault)

/-- Layout L0 meets R60's contract and the vectors' OUT_CAP is in R7's range; the machine's LZ turn and its step are
those of that layout, and the machine is the one with these parameters, its state after reset too. -/
def Obligations.L0IsAnInstanceOfTheContract : Prop :=
  Layout.l0.contract ∧ Parameters.reference.legal ∧ (∀ s : State, lzTurnWith Layout.l0 s = lzTurnL0 exec s) ∧
  (∀ s : State, stepWith Layout.l0 s = step s) ∧ machineWith Parameters.reference = core

/-- Where a source exhaustion leaves SP (60_exceptions.md section 2): at max(LZ_BASE, LZ_SRCLEN). -/
def Obligations.SourceExhaustionLeavesSpAtTheEnd : Prop :=
  ∀ (s t : State) (rest : List HostOp), MachineSound s → lzHasTurn rest s → s.lz.busy = true → step s = .next t →
    t.lz.cause = .srcExhausted → t.lz.sp.toNat = max s.lz.base.toNat s.lz.srcLen.toNat

/-- The LZ unit's turn writes OUT only by appending (R42, R45): LZ_OLEN stays, and OUT is unchanged, or it grows by
1 and every index but the old LZ_OLEN is unchanged; never at or past OUT_CAP. -/
def Obligations.OutputIsOnlyAppended : Prop :=
  ∀ (s t : State) (rest : List HostOp), lzHasTurn rest s → step s = .next t →
    (t.lz.olen = s.lz.olen ∧ t.out = s.out) ∨
    (s.lz.olen.toNat < s.outCap.toNat ∧ t.lz.olen.toNat = s.lz.olen.toNat + 1 ∧
      (Memory.valueAt s.lz.olen.toNat t.out).isSome = true ∧
      ∀ k, k ≠ s.lz.olen.toNat → Memory.valueAt k t.out = Memory.valueAt k s.out)

/-- The LZ unit's turn changes neither SRC, nor the configuration registers, nor LZ_BASE, nor OUT_CAP, nor another
unit (R10, R36 item 7, R41, R56), and SP moves only forward, by what LZ_CONSUMED counts (R12, R24). -/
def Obligations.RunLeavesSourceAndConfigurationAlone : Prop :=
  ∀ (s t : State) (rest : List HostOp), lzHasTurn rest s → step s = .next t →
    t.src = s.src ∧ t.lz.srcLen = s.lz.srcLen ∧ t.lz.start = s.lz.start ∧ t.lz.hintEn = s.lz.hintEn ∧
    t.lz.hint = s.lz.hint ∧ t.lz.base = s.lz.base ∧ t.outCap = s.outCap ∧ t.tile = s.tile ∧ t.cIn = s.cIn ∧
    t.host = rest ∧ t.hostData = s.hostData ∧
    ∃ n : Nat, n ≤ 4 ∧ n ≤ bytesLeft s ∧ t.lz.sp.toNat = s.lz.sp.toNat + n ∧
      t.lz.consumed = s.lz.consumed + BitVec.ofNat 32 n

/-- The units share no state (R10): every instruction leaves the other units, SRC, OUT_CAP and the host's fields as
they were; no instruction writes a byte of OUT (the run steps do). -/
def Obligations.InstructionsStayInTheirUnit : Prop :=
  ∀ (i : Instr) (s t : State), exec i s = .next t →
    t.src = s.src ∧ t.outCap = s.outCap ∧ t.host = s.host ∧ t.hostData = s.hostData ∧ t.out = s.out ∧
    (i.isToken = true ∨ i = .lzStart → t.tile = s.tile ∧ t.cIn = s.cIn) ∧
    (i = .tileDec → t.lz = s.lz ∧ t.cIn = s.cIn) ∧
    ((∃ word, i = .colConv word) → t.lz = s.lz ∧ t.tile = s.tile)

/-- What the host does besides waiting and resetting leaves a run alone while BUSY (R178, R183): the LZ registers,
OUT, and the slice the run reads. That the slice's bytes stay is the model's choice (log 10): it gives the host no
write of SRC below LZ_SRCLEN while BUSY, as R176 and 93 U6 say of a model, and hosts that break R176 are outside. -/
def Obligations.HostAccessesLeaveARunAlone : Prop :=
  ∀ (s t : State) (op : HostOp) (rest : List HostOp), s.lz.busy = true → s.host = op :: rest →
    op ≠ .yield → op ≠ .reset → step s = .next t →
    t.lz = s.lz ∧ t.out = s.out ∧ t.outCap = s.outCap ∧
    ∀ a, a < s.lz.srcLen.toNat → srcByte t.src a = srcByte s.src a

/-- FAULT and DONE are left only by LZ.START or reset (R153): no other step and no other host interaction changes
PHASE, LZ_CAUSE or LZ_FADDR; LZ.START clears both and begins a new run from LZ_START, of which nothing is resumed;
reset leaves the phase too. -/
def Obligations.FaultStaysUntilStartOrReset : Prop :=
  ∀ s : State, s.lz.phase = .fault ∨ s.lz.phase = .done →
    (∀ t, step s = .next t → s.host.head? ≠ some (.write 0 1) → s.host.head? ≠ some .reset →
      t.lz.phase = s.lz.phase ∧ t.lz.cause = s.lz.cause ∧ t.lz.faddr = s.lz.faddr) ∧
    (s.host.head? = some (.write 0 1) → ∃ t, step s = .next t ∧
      t.lz.phase = .fetch ∧ t.lz.stop = .none ∧ t.lz.cause = .none ∧ t.lz.faddr = 0 ∧ t.lz.base = s.lz.start ∧
      t.lz.sp = s.lz.start ∧ t.lz.consumed = 0 ∧ t.lz.olen = 0 ∧ t.lz.cnt = 0) ∧
    (s.host.head? = some .reset → ∃ t, step s = .next t ∧
      t.lz.phase = .idle ∧ t.lz.cause = .none ∧ t.lz.faddr = 0)

/-! ### The TILE unit -/

/-- TILE.DEC over a written T_IN with T_LEN = 32 (R91): bit q of entry 8 * r + x is bit 7 - x of plane q's byte of
row r; T_STATUS <- DONE, T_CAUSE <- 0; nothing else changes. -/
def Obligations.TileDecodeInterleavesThePlanes : Prop :=
  ∀ (s : State) (f : Nat → Byte), s.tile.len = 32 →
    (∀ k, k < 32 → Memory.valueAt k s.tile.tIn = some (f k)) →
    ∃ t, exec .tileDec s = .next t ∧
      (∀ r x, r < 8 → x < 8 → ∃ v : Index4, Memory.valueAt (8 * r + x) t.tile.tOut = some v ∧
        v.getLsbD 0 = (f (2 * r)).getLsbD (7 - x) ∧ v.getLsbD 1 = (f (2 * r + 1)).getLsbD (7 - x) ∧
        v.getLsbD 2 = (f (16 + 2 * r)).getLsbD (7 - x) ∧ v.getLsbD 3 = (f (17 + 2 * r)).getLsbD (7 - x)) ∧
      t = { s with tile := { s.tile with tOut := t.tile.tOut, status := .done, cause := .none } }

/-- TILE.DEC with T_LEN = 32 over a T_IN not wholly written: it completes, an entry whose four bytes have values
has its value, and an entry that depends on an unwritten byte has none (the model's choice, log 8; 93 U3). -/
def Obligations.TileEntryNeedsItsFourBytes : Prop :=
  ∀ s : State, s.tile.len = 32 → ∃ t, exec .tileDec s = .next t ∧ t.tile.status = .done ∧
    ∀ r x, r < 8 → x < 8 → ((Memory.valueAt (8 * r + x) t.tile.tOut).isSome = true ↔
      (Memory.valueAt (2 * r) s.tile.tIn).isSome = true ∧ (Memory.valueAt (2 * r + 1) s.tile.tIn).isSome = true ∧
      (Memory.valueAt (16 + 2 * r) s.tile.tIn).isSome = true ∧
      (Memory.valueAt (17 + 2 * r) s.tile.tIn).isSome = true)

/-- TILE.DEC with T_LEN other than 32 (R92, R149, R150): T_CAUSE <- 8, T_STATUS <- FAULT, T_OUT has no value;
T_IN, T_LEN and everything else are unchanged. -/
def Obligations.WrongTileSizeFaults : Prop :=
  ∀ s : State, s.tile.len.toNat ≠ 32 → ∃ t, exec .tileDec s = .next t ∧ readReg 18 t = 2 ∧ readReg 19 t = 8 ∧
    (∀ k, Memory.valueAt k t.tile.tOut = none) ∧
    t = { s with tile := { s.tile with tOut := t.tile.tOut, status := .fault, cause := .invalidTileSize } }

/-- The map from planes to pixels loses nothing (41_tile_decoder.md section on R93): two blocks with the same tile
are the same block. -/
def Obligations.TileDeterminesItsBlock : Prop :=
  ∀ s s' t t' : State, s.tile.len = 32 → s'.tile.len = 32 →
    (∀ k, k < 32 → (Memory.valueAt k s.tile.tIn).isSome = true ∧ (Memory.valueAt k s'.tile.tIn).isSome = true) →
    exec .tileDec s = .next t → exec .tileDec s' = .next t' →
    (∀ k, k < 64 → Memory.valueAt k t.tile.tOut = Memory.valueAt k t'.tile.tOut) →
    ∀ k, k < 32 → Memory.valueAt k s.tile.tIn = Memory.valueAt k s'.tile.tIn

/-! ### The host's accesses of SRC, and its reads of the buffers -/

/-- The host writes a byte of its source slice (R41, R172, R176): while the unit is not BUSY, and at any time at or
above LZ_SRCLEN, it reads back and no other byte and nothing else changes. Below LZ_SRCLEN while BUSY the model
refuses it (log 10, R176, 93 U6). -/
def Obligations.HostWritesOfSource : Prop :=
  ∀ (s : State) (rest : List HostOp) (index : Word) (value : Byte), s.host = .putSrc index value :: rest →
    (s.lz.busy = true → index.toNat < s.lz.srcLen.toNat → step s = .refused .srcWriteWhileBusy) ∧
    (s.lz.busy = false ∨ s.lz.srcLen.toNat ≤ index.toNat → ∃ t, step s = .next t ∧
      srcByte t.src index.toNat = value ∧
      (∀ a, a ≠ index.toNat → srcByte t.src a = srcByte s.src a) ∧
      t = { s with host := rest, src := t.src })

/-- The host reads OUT (R177): refused while BUSY and at or above LZ_OLEN; otherwise, where R36 holds, it gets the
byte, and nothing else changes. -/
def Obligations.HostReadsOfOut : Prop :=
  ∀ (s : State) (rest : List HostOp) (index : Word), s.host = .readOut index :: rest →
    (s.lz.busy = true → step s = .refused .outReadWhileBusy) ∧
    (s.lz.busy = false → s.lz.olen.toNat ≤ index.toNat → step s = .refused .outReadPastEnd) ∧
    (s.lz.busy = false → index.toNat < s.lz.olen.toNat → LzSound s →
      ∃ v : Byte, Memory.valueAt index.toNat s.out = some v ∧
        step s = .next { s with host := rest, hostData := v.setWidth 32 })

/-- The host's accesses to the tile buffers (R33): T_OUT is refused unless T_STATUS = DONE, and otherwise gives the
entry zero-extended; a written T_IN entry reads back; neither disturbs anything else. -/
def Obligations.HostAccessesOfTileBuffers : Prop :=
  (∀ (s : State) (rest : List HostOp) (index : BitVec 6), s.host = .readTOut index :: rest →
    (s.tile.status ≠ .done → step s = .refused .tOutReadNotDone) ∧
    ∀ v : Index4, s.tile.status = .done → Memory.valueAt index.toNat s.tile.tOut = some v →
      step s = .next { s with host := rest, hostData := v.setWidth 32 }) ∧
  (∀ (s : State) (rest : List HostOp) (index : BitVec 5) (value : Byte),
    s.host = .putTIn index value :: .readTIn index :: rest →
    ∃ t, runs 2 s = .next t ∧ t.hostData = value.setWidth 32 ∧
      (∀ k, k ≠ index.toNat → Memory.valueAt k t.tile.tIn = Memory.valueAt k s.tile.tIn) ∧
      t = { s with host := rest, hostData := t.hostData, tile := { s.tile with tIn := t.tile.tIn } })

/-! ### The COL unit -/

/-- COL.CONV (R81, R82): each 5-bit field times 8 is its channel, bit 15 is ignored, C_IN keeps all 16 bits, and
nothing else changes. -/
def Obligations.ColourChannels : Prop :=
  ∀ (s : State) (word : ColourWord), ∃ t, exec (.colConv word) s = .next t ∧ t = { s with cIn := word } ∧
    (readReg 24 t).toNat = word.toNat ∧
    (readReg 25 t).toNat = (word.toNat % 32) * 8 ∧
    (readReg 26 t).toNat = (word.toNat / 32 % 32) * 8 ∧
    (readReg 27 t).toNat = (word.toNat / 1024 % 32) * 8

/-- The conversion can be undone on bits 14:0 (40_color_converter.md section on R84): the three channels give
them back. -/
def Obligations.ColourChannelsDetermineTheWord : Prop :=
  ∀ word : ColourWord, word.toNat % 2 ^ 15
    = (colR word).toNat / 8 + (colG word).toNat / 8 * 32 + (colB word).toNat / 8 * 1024

/-- The memory form of a colour word is little-endian (R83), and the channels in terms of its two bytes. -/
def Obligations.ColourWordFromTwoBytes : Prop :=
  ∀ b0 b1 : Byte, (colWord b0 b1).toNat = b0.toNat + 256 * b1.toNat ∧
    (colR (colWord b0 b1)).toNat = b0.toNat % 32 * 8 ∧
    (colG (colWord b0 b1)).toNat = (b1.toNat % 4 * 8 + b0.toNat / 32) * 8 ∧
    (colB (colWord b0 b1)).toNat = b1.toNat / 4 % 32 * 8
end

