-- ==== Sys2Proof/Laws/Fields.lean ====
section
/-! SUPPORT. The header fields of layout L0: what the encoder puts together the decoder's field functions take
apart, and the other way round. -/

namespace Sys2Proof.Laws

@[simp] theorem opShort_shortControl (op : BitVec 3) (len : BitVec 5) : opShort (shortControl op len) = op := by
  revert op len; decide

@[simp] theorem lenShort_shortControl (op : BitVec 3) (len : BitVec 5) : lenShort (shortControl op len) = len := by
  revert op len; decide

@[simp] theorem opShort_longControl (op : BitVec 3) (lenHi : BitVec 2) : opShort (longControl op lenHi) = 7 := by
  revert op lenHi; decide

@[simp] theorem opLong_longControl (op : BitVec 3) (lenHi : BitVec 2) : opLong (longControl op lenHi) = op := by
  revert op lenHi; decide

@[simp] theorem lenHigh_longControl (op : BitVec 3) (lenHi : BitVec 2) :
    lenHigh (longControl op lenHi) = lenHi := by
  revert op lenHi; decide

theorem shortControl_ne_terminator {op : BitVec 3} (len : BitVec 5) (h : op ≠ 7) :
    ¬ shortControl op len = 255#8 := by
  revert op len; decide

theorem longControl_ne_terminator {op : BitVec 3} {lenHi : BitVec 2} (h : op ≠ 7 ∨ lenHi ≠ 3) :
    ¬ longControl op lenHi = 255#8 := by
  revert op lenHi; decide

/-- A control byte is its two format S fields. -/
theorem shortControl_fields (c : Byte) : shortControl (opShort c) (lenShort c) = c := by
  revert c; decide

/-- A control byte of format X is its fields. -/
theorem longControl_fields {c : Byte} (h : opShort c = 7) : longControl (opLong c) (lenHigh c) = c := by
  revert c; decide

theorem lenHigh_ne_of_not_terminator {c : Byte} (h : c ≠ 255) (hs : opShort c = 7) (hl : opLong c = 7) :
    lenHigh c ≠ 3 := by
  revert c; decide

@[simp] theorem distanceOf_distanceBytes (dist : BitVec 16) :
    distanceOf (dist.extractLsb' 0 8) (dist.extractLsb' 8 8) = dist := by
  apply BitVec.eq_of_toNat_eq
  have := dist.isLt
  simp only [distanceOf, BitVec.toNat_append, BitVec.extractLsb'_toNat, Nat.shiftRight_zero]
  rw [Nat.shiftLeft_eq, Nat.or_comm, Nat.or_comm, ← Nat.shiftLeft_eq, Nat.shiftRight_eq_div_pow,
    ← Nat.shiftLeft_add_eq_or_of_lt (by omega), Nat.shiftLeft_eq]
  omega

theorem distanceOf_toNat (d0 d1 : Byte) : (distanceOf d0 d1).toNat = d0.toNat + 256 * d1.toNat := by
  have := d0.isLt
  rw [distanceOf, BitVec.toNat_append, ← Nat.shiftLeft_add_eq_or_of_lt (by omega), Nat.shiftLeft_eq]
  omega

@[simp] theorem lenLong_longHeader (op : BitVec 3) (len : BitVec 10) :
    lenLong (longControl op (len.extractLsb' 8 2)) (len.extractLsb' 0 8) = len := by
  apply BitVec.eq_of_toNat_eq
  have := len.isLt
  rw [lenLong, lenHigh_longControl, BitVec.toNat_append,
    ← Nat.shiftLeft_add_eq_or_of_lt (BitVec.isLt _), Nat.shiftLeft_eq]
  simp only [BitVec.extractLsb'_toNat, Nat.shiftRight_eq_div_pow]
  omega

theorem lenLong_toNat (c b : Byte) : (lenLong c b).toNat = 256 * (lenHigh c).toNat + b.toNat := by
  rw [lenLong, BitVec.toNat_append, ← Nat.shiftLeft_add_eq_or_of_lt (BitVec.isLt _), Nat.shiftLeft_eq]
  omega

end Sys2Proof.Laws
end

