-- ==== Sys2Proof/Laws/State.lean ====
section
/-! SUPPORT. One lemma per field per named update of the state, true by unfolding the update, so that no later
proof unfolds a record update. -/

namespace Sys2Proof.Laws

open Sys2Proof.Machine

@[simp] theorem lzFault_lz_hintEn (c : LzCause) (s : State) : (lzFault c s).lz.hintEn = s.lz.hintEn := rfl
@[simp] theorem lzFault_lz_srcLen (c : LzCause) (s : State) : (lzFault c s).lz.srcLen = s.lz.srcLen := rfl
@[simp] theorem lzFault_lz_start (c : LzCause) (s : State) : (lzFault c s).lz.start = s.lz.start := rfl
@[simp] theorem lzFault_lz_hint (c : LzCause) (s : State) : (lzFault c s).lz.hint = s.lz.hint := rfl
@[simp] theorem lzFault_lz_phase (c : LzCause) (s : State) : (lzFault c s).lz.phase = .fault := rfl
@[simp] theorem lzFault_lz_stop (c : LzCause) (s : State) : (lzFault c s).lz.stop = .none := rfl
@[simp] theorem lzFault_lz_cause (c : LzCause) (s : State) : (lzFault c s).lz.cause = c := rfl
@[simp] theorem lzFault_lz_faddr (c : LzCause) (s : State) : (lzFault c s).lz.faddr = s.lz.t0 := rfl
@[simp] theorem lzFault_lz_sp (c : LzCause) (s : State) : (lzFault c s).lz.sp = s.lz.sp := rfl
@[simp] theorem lzFault_lz_consumed (c : LzCause) (s : State) : (lzFault c s).lz.consumed = s.lz.consumed := rfl
@[simp] theorem lzFault_lz_base (c : LzCause) (s : State) : (lzFault c s).lz.base = s.lz.base := rfl
@[simp] theorem lzFault_lz_olen (c : LzCause) (s : State) : (lzFault c s).lz.olen = s.lz.olen := rfl
@[simp] theorem lzFault_lz_op (c : LzCause) (s : State) : (lzFault c s).lz.op = s.lz.op := rfl
@[simp] theorem lzFault_lz_cnt (c : LzCause) (s : State) : (lzFault c s).lz.cnt = s.lz.cnt := rfl
@[simp] theorem lzFault_lz_cpy (c : LzCause) (s : State) : (lzFault c s).lz.cpy = s.lz.cpy := rfl
@[simp] theorem lzFault_lz_t0 (c : LzCause) (s : State) : (lzFault c s).lz.t0 = s.lz.t0 := rfl
@[simp] theorem lzFault_out (c : LzCause) (s : State) : (lzFault c s).out = s.out := rfl
@[simp] theorem lzFault_tile (c : LzCause) (s : State) : (lzFault c s).tile = s.tile := rfl
@[simp] theorem lzFault_cIn (c : LzCause) (s : State) : (lzFault c s).cIn = s.cIn := rfl
@[simp] theorem lzFault_src (c : LzCause) (s : State) : (lzFault c s).src = s.src := rfl
@[simp] theorem lzFault_outCap (c : LzCause) (s : State) : (lzFault c s).outCap = s.outCap := rfl
@[simp] theorem lzFault_host (c : LzCause) (s : State) : (lzFault c s).host = s.host := rfl
@[simp] theorem lzFault_hostData (c : LzCause) (s : State) : (lzFault c s).hostData = s.hostData := rfl

@[simp] theorem startRun_lz_hintEn (s : State) : (startRun s).lz.hintEn = s.lz.hintEn := rfl
@[simp] theorem startRun_lz_srcLen (s : State) : (startRun s).lz.srcLen = s.lz.srcLen := rfl
@[simp] theorem startRun_lz_start (s : State) : (startRun s).lz.start = s.lz.start := rfl
@[simp] theorem startRun_lz_hint (s : State) : (startRun s).lz.hint = s.lz.hint := rfl
@[simp] theorem startRun_lz_phase (s : State) : (startRun s).lz.phase = .fetch := rfl
@[simp] theorem startRun_lz_stop (s : State) : (startRun s).lz.stop = .none := rfl
@[simp] theorem startRun_lz_cause (s : State) : (startRun s).lz.cause = .none := rfl
@[simp] theorem startRun_lz_faddr (s : State) : (startRun s).lz.faddr = 0 := rfl
@[simp] theorem startRun_lz_sp (s : State) : (startRun s).lz.sp = s.lz.start := rfl
@[simp] theorem startRun_lz_consumed (s : State) : (startRun s).lz.consumed = 0 := rfl
@[simp] theorem startRun_lz_base (s : State) : (startRun s).lz.base = s.lz.start := rfl
@[simp] theorem startRun_lz_olen (s : State) : (startRun s).lz.olen = 0 := rfl
@[simp] theorem startRun_lz_op (s : State) : (startRun s).lz.op = .lit := rfl
@[simp] theorem startRun_lz_cnt (s : State) : (startRun s).lz.cnt = 0 := rfl
@[simp] theorem startRun_lz_cpy (s : State) : (startRun s).lz.cpy = 0 := rfl
@[simp] theorem startRun_lz_t0 (s : State) : (startRun s).lz.t0 = s.lz.start := rfl
@[simp] theorem startRun_out (s : State) : (startRun s).out = s.out := rfl
@[simp] theorem startRun_tile (s : State) : (startRun s).tile = s.tile := rfl
@[simp] theorem startRun_cIn (s : State) : (startRun s).cIn = s.cIn := rfl
@[simp] theorem startRun_src (s : State) : (startRun s).src = s.src := rfl
@[simp] theorem startRun_outCap (s : State) : (startRun s).outCap = s.outCap := rfl
@[simp] theorem startRun_host (s : State) : (startRun s).host = s.host := rfl
@[simp] theorem startRun_hostData (s : State) : (startRun s).hostData = s.hostData := rfl

@[simp] theorem stopByHint_lz_hintEn (s : State) : (stopByHint s).lz.hintEn = s.lz.hintEn := rfl
@[simp] theorem stopByHint_lz_srcLen (s : State) : (stopByHint s).lz.srcLen = s.lz.srcLen := rfl
@[simp] theorem stopByHint_lz_start (s : State) : (stopByHint s).lz.start = s.lz.start := rfl
@[simp] theorem stopByHint_lz_hint (s : State) : (stopByHint s).lz.hint = s.lz.hint := rfl
@[simp] theorem stopByHint_lz_phase (s : State) : (stopByHint s).lz.phase = .done := rfl
@[simp] theorem stopByHint_lz_stop (s : State) : (stopByHint s).lz.stop = .hint := rfl
@[simp] theorem stopByHint_lz_cause (s : State) : (stopByHint s).lz.cause = s.lz.cause := rfl
@[simp] theorem stopByHint_lz_faddr (s : State) : (stopByHint s).lz.faddr = s.lz.faddr := rfl
@[simp] theorem stopByHint_lz_sp (s : State) : (stopByHint s).lz.sp = s.lz.sp := rfl
@[simp] theorem stopByHint_lz_consumed (s : State) : (stopByHint s).lz.consumed = s.lz.consumed := rfl
@[simp] theorem stopByHint_lz_base (s : State) : (stopByHint s).lz.base = s.lz.base := rfl
@[simp] theorem stopByHint_lz_olen (s : State) : (stopByHint s).lz.olen = s.lz.olen := rfl
@[simp] theorem stopByHint_lz_op (s : State) : (stopByHint s).lz.op = s.lz.op := rfl
@[simp] theorem stopByHint_lz_cnt (s : State) : (stopByHint s).lz.cnt = s.lz.cnt := rfl
@[simp] theorem stopByHint_lz_cpy (s : State) : (stopByHint s).lz.cpy = s.lz.cpy := rfl
@[simp] theorem stopByHint_lz_t0 (s : State) : (stopByHint s).lz.t0 = s.lz.t0 := rfl
@[simp] theorem stopByHint_out (s : State) : (stopByHint s).out = s.out := rfl
@[simp] theorem stopByHint_tile (s : State) : (stopByHint s).tile = s.tile := rfl
@[simp] theorem stopByHint_cIn (s : State) : (stopByHint s).cIn = s.cIn := rfl
@[simp] theorem stopByHint_src (s : State) : (stopByHint s).src = s.src := rfl
@[simp] theorem stopByHint_outCap (s : State) : (stopByHint s).outCap = s.outCap := rfl
@[simp] theorem stopByHint_host (s : State) : (stopByHint s).host = s.host := rfl
@[simp] theorem stopByHint_hostData (s : State) : (stopByHint s).hostData = s.hostData := rfl

@[simp] theorem stopByTerminator_lz_hintEn (s : State) : (stopByTerminator s).lz.hintEn = s.lz.hintEn := rfl
@[simp] theorem stopByTerminator_lz_srcLen (s : State) : (stopByTerminator s).lz.srcLen = s.lz.srcLen := rfl
@[simp] theorem stopByTerminator_lz_start (s : State) : (stopByTerminator s).lz.start = s.lz.start := rfl
@[simp] theorem stopByTerminator_lz_hint (s : State) : (stopByTerminator s).lz.hint = s.lz.hint := rfl
@[simp] theorem stopByTerminator_lz_phase (s : State) : (stopByTerminator s).lz.phase = .done := rfl
@[simp] theorem stopByTerminator_lz_stop (s : State) : (stopByTerminator s).lz.stop = .terminator := rfl
@[simp] theorem stopByTerminator_lz_cause (s : State) : (stopByTerminator s).lz.cause = s.lz.cause := rfl
@[simp] theorem stopByTerminator_lz_faddr (s : State) : (stopByTerminator s).lz.faddr = s.lz.faddr := rfl
@[simp] theorem stopByTerminator_lz_sp (s : State) : (stopByTerminator s).lz.sp = s.lz.sp := rfl
@[simp] theorem stopByTerminator_lz_consumed (s : State) : (stopByTerminator s).lz.consumed = s.lz.consumed := rfl
@[simp] theorem stopByTerminator_lz_base (s : State) : (stopByTerminator s).lz.base = s.lz.base := rfl
@[simp] theorem stopByTerminator_lz_olen (s : State) : (stopByTerminator s).lz.olen = s.lz.olen := rfl
@[simp] theorem stopByTerminator_lz_op (s : State) : (stopByTerminator s).lz.op = s.lz.op := rfl
@[simp] theorem stopByTerminator_lz_cnt (s : State) : (stopByTerminator s).lz.cnt = s.lz.cnt := rfl
@[simp] theorem stopByTerminator_lz_cpy (s : State) : (stopByTerminator s).lz.cpy = s.lz.cpy := rfl
@[simp] theorem stopByTerminator_lz_t0 (s : State) : (stopByTerminator s).lz.t0 = s.lz.t0 := rfl
@[simp] theorem stopByTerminator_out (s : State) : (stopByTerminator s).out = s.out := rfl
@[simp] theorem stopByTerminator_tile (s : State) : (stopByTerminator s).tile = s.tile := rfl
@[simp] theorem stopByTerminator_cIn (s : State) : (stopByTerminator s).cIn = s.cIn := rfl
@[simp] theorem stopByTerminator_src (s : State) : (stopByTerminator s).src = s.src := rfl
@[simp] theorem stopByTerminator_outCap (s : State) : (stopByTerminator s).outCap = s.outCap := rfl
@[simp] theorem stopByTerminator_host (s : State) : (stopByTerminator s).host = s.host := rfl
@[simp] theorem stopByTerminator_hostData (s : State) : (stopByTerminator s).hostData = s.hostData := rfl

@[simp] theorem advanceSource_lz_hintEn (s : State) : (advanceSource s).lz.hintEn = s.lz.hintEn := rfl
@[simp] theorem advanceSource_lz_srcLen (s : State) : (advanceSource s).lz.srcLen = s.lz.srcLen := rfl
@[simp] theorem advanceSource_lz_start (s : State) : (advanceSource s).lz.start = s.lz.start := rfl
@[simp] theorem advanceSource_lz_hint (s : State) : (advanceSource s).lz.hint = s.lz.hint := rfl
@[simp] theorem advanceSource_lz_phase (s : State) : (advanceSource s).lz.phase = s.lz.phase := rfl
@[simp] theorem advanceSource_lz_stop (s : State) : (advanceSource s).lz.stop = s.lz.stop := rfl
@[simp] theorem advanceSource_lz_cause (s : State) : (advanceSource s).lz.cause = s.lz.cause := rfl
@[simp] theorem advanceSource_lz_faddr (s : State) : (advanceSource s).lz.faddr = s.lz.faddr := rfl
@[simp] theorem advanceSource_lz_sp (s : State) : (advanceSource s).lz.sp = s.lz.sp + 1 := rfl
@[simp] theorem advanceSource_lz_consumed (s : State) : (advanceSource s).lz.consumed = s.lz.consumed + 1 := rfl
@[simp] theorem advanceSource_lz_base (s : State) : (advanceSource s).lz.base = s.lz.base := rfl
@[simp] theorem advanceSource_lz_olen (s : State) : (advanceSource s).lz.olen = s.lz.olen := rfl
@[simp] theorem advanceSource_lz_op (s : State) : (advanceSource s).lz.op = s.lz.op := rfl
@[simp] theorem advanceSource_lz_cnt (s : State) : (advanceSource s).lz.cnt = s.lz.cnt := rfl
@[simp] theorem advanceSource_lz_cpy (s : State) : (advanceSource s).lz.cpy = s.lz.cpy := rfl
@[simp] theorem advanceSource_lz_t0 (s : State) : (advanceSource s).lz.t0 = s.lz.t0 := rfl
@[simp] theorem advanceSource_out (s : State) : (advanceSource s).out = s.out := rfl
@[simp] theorem advanceSource_tile (s : State) : (advanceSource s).tile = s.tile := rfl
@[simp] theorem advanceSource_cIn (s : State) : (advanceSource s).cIn = s.cIn := rfl
@[simp] theorem advanceSource_src (s : State) : (advanceSource s).src = s.src := rfl
@[simp] theorem advanceSource_outCap (s : State) : (advanceSource s).outCap = s.outCap := rfl
@[simp] theorem advanceSource_host (s : State) : (advanceSource s).host = s.host := rfl
@[simp] theorem advanceSource_hostData (s : State) : (advanceSource s).hostData = s.hostData := rfl

@[simp] theorem appendByte_lz_hintEn (v : Byte) (s : State) : (appendByte v s).lz.hintEn = s.lz.hintEn := rfl
@[simp] theorem appendByte_lz_srcLen (v : Byte) (s : State) : (appendByte v s).lz.srcLen = s.lz.srcLen := rfl
@[simp] theorem appendByte_lz_start (v : Byte) (s : State) : (appendByte v s).lz.start = s.lz.start := rfl
@[simp] theorem appendByte_lz_hint (v : Byte) (s : State) : (appendByte v s).lz.hint = s.lz.hint := rfl
@[simp] theorem appendByte_lz_phase (v : Byte) (s : State) : (appendByte v s).lz.phase = s.lz.phase := rfl
@[simp] theorem appendByte_lz_stop (v : Byte) (s : State) : (appendByte v s).lz.stop = s.lz.stop := rfl
@[simp] theorem appendByte_lz_cause (v : Byte) (s : State) : (appendByte v s).lz.cause = s.lz.cause := rfl
@[simp] theorem appendByte_lz_faddr (v : Byte) (s : State) : (appendByte v s).lz.faddr = s.lz.faddr := rfl
@[simp] theorem appendByte_lz_sp (v : Byte) (s : State) : (appendByte v s).lz.sp = s.lz.sp := rfl
@[simp] theorem appendByte_lz_consumed (v : Byte) (s : State) : (appendByte v s).lz.consumed = s.lz.consumed := rfl
@[simp] theorem appendByte_lz_base (v : Byte) (s : State) : (appendByte v s).lz.base = s.lz.base := rfl
@[simp] theorem appendByte_lz_olen (v : Byte) (s : State) : (appendByte v s).lz.olen = s.lz.olen + 1 := rfl
@[simp] theorem appendByte_lz_op (v : Byte) (s : State) : (appendByte v s).lz.op = s.lz.op := rfl
@[simp] theorem appendByte_lz_cnt (v : Byte) (s : State) : (appendByte v s).lz.cnt = s.lz.cnt := rfl
@[simp] theorem appendByte_lz_cpy (v : Byte) (s : State) : (appendByte v s).lz.cpy = s.lz.cpy := rfl
@[simp] theorem appendByte_lz_t0 (v : Byte) (s : State) : (appendByte v s).lz.t0 = s.lz.t0 := rfl
@[simp] theorem appendByte_out (v : Byte) (s : State) : (appendByte v s).out = Memory.put s.lz.olen.toNat v s.out := rfl
@[simp] theorem appendByte_tile (v : Byte) (s : State) : (appendByte v s).tile = s.tile := rfl
@[simp] theorem appendByte_cIn (v : Byte) (s : State) : (appendByte v s).cIn = s.cIn := rfl
@[simp] theorem appendByte_src (v : Byte) (s : State) : (appendByte v s).src = s.src := rfl
@[simp] theorem appendByte_outCap (v : Byte) (s : State) : (appendByte v s).outCap = s.outCap := rfl
@[simp] theorem appendByte_host (v : Byte) (s : State) : (appendByte v s).host = s.host := rfl
@[simp] theorem appendByte_hostData (v : Byte) (s : State) : (appendByte v s).hostData = s.hostData := rfl

@[simp] theorem latchT0_lz_hintEn (s : State) : (latchT0 s).lz.hintEn = s.lz.hintEn := rfl
@[simp] theorem latchT0_lz_srcLen (s : State) : (latchT0 s).lz.srcLen = s.lz.srcLen := rfl
@[simp] theorem latchT0_lz_start (s : State) : (latchT0 s).lz.start = s.lz.start := rfl
@[simp] theorem latchT0_lz_hint (s : State) : (latchT0 s).lz.hint = s.lz.hint := rfl
@[simp] theorem latchT0_lz_phase (s : State) : (latchT0 s).lz.phase = s.lz.phase := rfl
@[simp] theorem latchT0_lz_stop (s : State) : (latchT0 s).lz.stop = s.lz.stop := rfl
@[simp] theorem latchT0_lz_cause (s : State) : (latchT0 s).lz.cause = s.lz.cause := rfl
@[simp] theorem latchT0_lz_faddr (s : State) : (latchT0 s).lz.faddr = s.lz.faddr := rfl
@[simp] theorem latchT0_lz_sp (s : State) : (latchT0 s).lz.sp = s.lz.sp := rfl
@[simp] theorem latchT0_lz_consumed (s : State) : (latchT0 s).lz.consumed = s.lz.consumed := rfl
@[simp] theorem latchT0_lz_base (s : State) : (latchT0 s).lz.base = s.lz.base := rfl
@[simp] theorem latchT0_lz_olen (s : State) : (latchT0 s).lz.olen = s.lz.olen := rfl
@[simp] theorem latchT0_lz_op (s : State) : (latchT0 s).lz.op = s.lz.op := rfl
@[simp] theorem latchT0_lz_cnt (s : State) : (latchT0 s).lz.cnt = s.lz.cnt := rfl
@[simp] theorem latchT0_lz_cpy (s : State) : (latchT0 s).lz.cpy = s.lz.cpy := rfl
@[simp] theorem latchT0_lz_t0 (s : State) : (latchT0 s).lz.t0 = s.lz.sp := rfl
@[simp] theorem latchT0_out (s : State) : (latchT0 s).out = s.out := rfl
@[simp] theorem latchT0_tile (s : State) : (latchT0 s).tile = s.tile := rfl
@[simp] theorem latchT0_cIn (s : State) : (latchT0 s).cIn = s.cIn := rfl
@[simp] theorem latchT0_src (s : State) : (latchT0 s).src = s.src := rfl
@[simp] theorem latchT0_outCap (s : State) : (latchT0 s).outCap = s.outCap := rfl
@[simp] theorem latchT0_host (s : State) : (latchT0 s).host = s.host := rfl
@[simp] theorem latchT0_hostData (s : State) : (latchT0 s).hostData = s.hostData := rfl

@[simp] theorem startLiteral_lz_hintEn (n : BitVec 11) (s : State) : (startLiteral n s).lz.hintEn = s.lz.hintEn := rfl
@[simp] theorem startLiteral_lz_srcLen (n : BitVec 11) (s : State) : (startLiteral n s).lz.srcLen = s.lz.srcLen := rfl
@[simp] theorem startLiteral_lz_start (n : BitVec 11) (s : State) : (startLiteral n s).lz.start = s.lz.start := rfl
@[simp] theorem startLiteral_lz_hint (n : BitVec 11) (s : State) : (startLiteral n s).lz.hint = s.lz.hint := rfl
@[simp] theorem startLiteral_lz_phase (n : BitVec 11) (s : State) : (startLiteral n s).lz.phase = .runLit := rfl
@[simp] theorem startLiteral_lz_stop (n : BitVec 11) (s : State) : (startLiteral n s).lz.stop = s.lz.stop := rfl
@[simp] theorem startLiteral_lz_cause (n : BitVec 11) (s : State) : (startLiteral n s).lz.cause = s.lz.cause := rfl
@[simp] theorem startLiteral_lz_faddr (n : BitVec 11) (s : State) : (startLiteral n s).lz.faddr = s.lz.faddr := rfl
@[simp] theorem startLiteral_lz_sp (n : BitVec 11) (s : State) : (startLiteral n s).lz.sp = s.lz.sp := rfl
@[simp] theorem startLiteral_lz_consumed (n : BitVec 11) (s : State) : (startLiteral n s).lz.consumed = s.lz.consumed := rfl
@[simp] theorem startLiteral_lz_base (n : BitVec 11) (s : State) : (startLiteral n s).lz.base = s.lz.base := rfl
@[simp] theorem startLiteral_lz_olen (n : BitVec 11) (s : State) : (startLiteral n s).lz.olen = s.lz.olen := rfl
@[simp] theorem startLiteral_lz_op (n : BitVec 11) (s : State) : (startLiteral n s).lz.op = .lit := rfl
@[simp] theorem startLiteral_lz_cnt (n : BitVec 11) (s : State) : (startLiteral n s).lz.cnt = n := rfl
@[simp] theorem startLiteral_lz_cpy (n : BitVec 11) (s : State) : (startLiteral n s).lz.cpy = s.lz.cpy := rfl
@[simp] theorem startLiteral_lz_t0 (n : BitVec 11) (s : State) : (startLiteral n s).lz.t0 = s.lz.t0 := rfl
@[simp] theorem startLiteral_out (n : BitVec 11) (s : State) : (startLiteral n s).out = s.out := rfl
@[simp] theorem startLiteral_tile (n : BitVec 11) (s : State) : (startLiteral n s).tile = s.tile := rfl
@[simp] theorem startLiteral_cIn (n : BitVec 11) (s : State) : (startLiteral n s).cIn = s.cIn := rfl
@[simp] theorem startLiteral_src (n : BitVec 11) (s : State) : (startLiteral n s).src = s.src := rfl
@[simp] theorem startLiteral_outCap (n : BitVec 11) (s : State) : (startLiteral n s).outCap = s.outCap := rfl
@[simp] theorem startLiteral_host (n : BitVec 11) (s : State) : (startLiteral n s).host = s.host := rfl
@[simp] theorem startLiteral_hostData (n : BitVec 11) (s : State) : (startLiteral n s).hostData = s.hostData := rfl

@[simp] theorem countByte_lz_hintEn (s : State) : (countByte s).lz.hintEn = s.lz.hintEn := rfl
@[simp] theorem countByte_lz_srcLen (s : State) : (countByte s).lz.srcLen = s.lz.srcLen := rfl
@[simp] theorem countByte_lz_start (s : State) : (countByte s).lz.start = s.lz.start := rfl
@[simp] theorem countByte_lz_hint (s : State) : (countByte s).lz.hint = s.lz.hint := rfl
@[simp] theorem countByte_lz_phase (s : State) : (countByte s).lz.phase = if s.lz.cnt - 1 = 0 then .fetch else s.lz.phase := rfl
@[simp] theorem countByte_lz_stop (s : State) : (countByte s).lz.stop = s.lz.stop := rfl
@[simp] theorem countByte_lz_cause (s : State) : (countByte s).lz.cause = s.lz.cause := rfl
@[simp] theorem countByte_lz_faddr (s : State) : (countByte s).lz.faddr = s.lz.faddr := rfl
@[simp] theorem countByte_lz_sp (s : State) : (countByte s).lz.sp = s.lz.sp := rfl
@[simp] theorem countByte_lz_consumed (s : State) : (countByte s).lz.consumed = s.lz.consumed := rfl
@[simp] theorem countByte_lz_base (s : State) : (countByte s).lz.base = s.lz.base := rfl
@[simp] theorem countByte_lz_olen (s : State) : (countByte s).lz.olen = s.lz.olen := rfl
@[simp] theorem countByte_lz_op (s : State) : (countByte s).lz.op = s.lz.op := rfl
@[simp] theorem countByte_lz_cnt (s : State) : (countByte s).lz.cnt = s.lz.cnt - 1 := rfl
@[simp] theorem countByte_lz_cpy (s : State) : (countByte s).lz.cpy = s.lz.cpy := rfl
@[simp] theorem countByte_lz_t0 (s : State) : (countByte s).lz.t0 = s.lz.t0 := rfl
@[simp] theorem countByte_out (s : State) : (countByte s).out = s.out := rfl
@[simp] theorem countByte_tile (s : State) : (countByte s).tile = s.tile := rfl
@[simp] theorem countByte_cIn (s : State) : (countByte s).cIn = s.cIn := rfl
@[simp] theorem countByte_src (s : State) : (countByte s).src = s.src := rfl
@[simp] theorem countByte_outCap (s : State) : (countByte s).outCap = s.outCap := rfl
@[simp] theorem countByte_host (s : State) : (countByte s).host = s.host := rfl
@[simp] theorem countByte_hostData (s : State) : (countByte s).hostData = s.hostData := rfl

@[simp] theorem advanceCopy_lz_hintEn (s : State) : (advanceCopy s).lz.hintEn = s.lz.hintEn := rfl
@[simp] theorem advanceCopy_lz_srcLen (s : State) : (advanceCopy s).lz.srcLen = s.lz.srcLen := rfl
@[simp] theorem advanceCopy_lz_start (s : State) : (advanceCopy s).lz.start = s.lz.start := rfl
@[simp] theorem advanceCopy_lz_hint (s : State) : (advanceCopy s).lz.hint = s.lz.hint := rfl
@[simp] theorem advanceCopy_lz_phase (s : State) : (advanceCopy s).lz.phase = s.lz.phase := rfl
@[simp] theorem advanceCopy_lz_stop (s : State) : (advanceCopy s).lz.stop = s.lz.stop := rfl
@[simp] theorem advanceCopy_lz_cause (s : State) : (advanceCopy s).lz.cause = s.lz.cause := rfl
@[simp] theorem advanceCopy_lz_faddr (s : State) : (advanceCopy s).lz.faddr = s.lz.faddr := rfl
@[simp] theorem advanceCopy_lz_sp (s : State) : (advanceCopy s).lz.sp = s.lz.sp := rfl
@[simp] theorem advanceCopy_lz_consumed (s : State) : (advanceCopy s).lz.consumed = s.lz.consumed := rfl
@[simp] theorem advanceCopy_lz_base (s : State) : (advanceCopy s).lz.base = s.lz.base := rfl
@[simp] theorem advanceCopy_lz_olen (s : State) : (advanceCopy s).lz.olen = s.lz.olen := rfl
@[simp] theorem advanceCopy_lz_op (s : State) : (advanceCopy s).lz.op = s.lz.op := rfl
@[simp] theorem advanceCopy_lz_cnt (s : State) : (advanceCopy s).lz.cnt = s.lz.cnt := rfl
@[simp] theorem advanceCopy_lz_cpy (s : State) : (advanceCopy s).lz.cpy = s.lz.cpy + 1 := rfl
@[simp] theorem advanceCopy_lz_t0 (s : State) : (advanceCopy s).lz.t0 = s.lz.t0 := rfl
@[simp] theorem advanceCopy_out (s : State) : (advanceCopy s).out = s.out := rfl
@[simp] theorem advanceCopy_tile (s : State) : (advanceCopy s).tile = s.tile := rfl
@[simp] theorem advanceCopy_cIn (s : State) : (advanceCopy s).cIn = s.cIn := rfl
@[simp] theorem advanceCopy_src (s : State) : (advanceCopy s).src = s.src := rfl
@[simp] theorem advanceCopy_outCap (s : State) : (advanceCopy s).outCap = s.outCap := rfl
@[simp] theorem advanceCopy_host (s : State) : (advanceCopy s).host = s.host := rfl
@[simp] theorem advanceCopy_hostData (s : State) : (advanceCopy s).hostData = s.hostData := rfl

@[simp] theorem withHint_lz_hintEn (h : Word) (s : State) : (withHint h s).lz.hintEn = true := rfl
@[simp] theorem withHint_lz_srcLen (h : Word) (s : State) : (withHint h s).lz.srcLen = s.lz.srcLen := rfl
@[simp] theorem withHint_lz_start (h : Word) (s : State) : (withHint h s).lz.start = s.lz.start := rfl
@[simp] theorem withHint_lz_hint (h : Word) (s : State) : (withHint h s).lz.hint = h := rfl
@[simp] theorem withHint_lz_phase (h : Word) (s : State) : (withHint h s).lz.phase = s.lz.phase := rfl
@[simp] theorem withHint_lz_stop (h : Word) (s : State) : (withHint h s).lz.stop = s.lz.stop := rfl
@[simp] theorem withHint_lz_cause (h : Word) (s : State) : (withHint h s).lz.cause = s.lz.cause := rfl
@[simp] theorem withHint_lz_faddr (h : Word) (s : State) : (withHint h s).lz.faddr = s.lz.faddr := rfl
@[simp] theorem withHint_lz_sp (h : Word) (s : State) : (withHint h s).lz.sp = s.lz.sp := rfl
@[simp] theorem withHint_lz_consumed (h : Word) (s : State) : (withHint h s).lz.consumed = s.lz.consumed := rfl
@[simp] theorem withHint_lz_base (h : Word) (s : State) : (withHint h s).lz.base = s.lz.base := rfl
@[simp] theorem withHint_lz_olen (h : Word) (s : State) : (withHint h s).lz.olen = s.lz.olen := rfl
@[simp] theorem withHint_lz_op (h : Word) (s : State) : (withHint h s).lz.op = s.lz.op := rfl
@[simp] theorem withHint_lz_cnt (h : Word) (s : State) : (withHint h s).lz.cnt = s.lz.cnt := rfl
@[simp] theorem withHint_lz_cpy (h : Word) (s : State) : (withHint h s).lz.cpy = s.lz.cpy := rfl
@[simp] theorem withHint_lz_t0 (h : Word) (s : State) : (withHint h s).lz.t0 = s.lz.t0 := rfl
@[simp] theorem withHint_out (h : Word) (s : State) : (withHint h s).out = s.out := rfl
@[simp] theorem withHint_tile (h : Word) (s : State) : (withHint h s).tile = s.tile := rfl
@[simp] theorem withHint_cIn (h : Word) (s : State) : (withHint h s).cIn = s.cIn := rfl
@[simp] theorem withHint_src (h : Word) (s : State) : (withHint h s).src = s.src := rfl
@[simp] theorem withHint_outCap (h : Word) (s : State) : (withHint h s).outCap = s.outCap := rfl
@[simp] theorem withHint_host (h : Word) (s : State) : (withHint h s).host = s.host := rfl
@[simp] theorem withHint_hostData (h : Word) (s : State) : (withHint h s).hostData = s.hostData := rfl

@[simp] theorem tileFault_lz (s : State) : (tileFault s).lz = s.lz := rfl
@[simp] theorem tileFault_out (s : State) : (tileFault s).out = s.out := rfl
@[simp] theorem tileFault_tile (s : State) : (tileFault s).tile = { s.tile with cause := .invalidTileSize, status := .fault, tOut := [] } := rfl
@[simp] theorem tileFault_cIn (s : State) : (tileFault s).cIn = s.cIn := rfl
@[simp] theorem tileFault_src (s : State) : (tileFault s).src = s.src := rfl
@[simp] theorem tileFault_outCap (s : State) : (tileFault s).outCap = s.outCap := rfl
@[simp] theorem tileFault_host (s : State) : (tileFault s).host = s.host := rfl
@[simp] theorem tileFault_hostData (s : State) : (tileFault s).hostData = s.hostData := rfl

@[simp] theorem decodeTile_lz (s : State) : (decodeTile s).lz = s.lz := rfl
@[simp] theorem decodeTile_out (s : State) : (decodeTile s).out = s.out := rfl
@[simp] theorem decodeTile_tile (s : State) : (decodeTile s).tile = { s.tile with tOut := tileImage s.tile.tIn, status := .done, cause := .none } := rfl
@[simp] theorem decodeTile_cIn (s : State) : (decodeTile s).cIn = s.cIn := rfl
@[simp] theorem decodeTile_src (s : State) : (decodeTile s).src = s.src := rfl
@[simp] theorem decodeTile_outCap (s : State) : (decodeTile s).outCap = s.outCap := rfl
@[simp] theorem decodeTile_host (s : State) : (decodeTile s).host = s.host := rfl
@[simp] theorem decodeTile_hostData (s : State) : (decodeTile s).hostData = s.hostData := rfl

@[simp] theorem hostReturns_lz (v : Word) (s : State) : (hostReturns v s).lz = s.lz := rfl
@[simp] theorem hostReturns_out (v : Word) (s : State) : (hostReturns v s).out = s.out := rfl
@[simp] theorem hostReturns_tile (v : Word) (s : State) : (hostReturns v s).tile = s.tile := rfl
@[simp] theorem hostReturns_cIn (v : Word) (s : State) : (hostReturns v s).cIn = s.cIn := rfl
@[simp] theorem hostReturns_src (v : Word) (s : State) : (hostReturns v s).src = s.src := rfl
@[simp] theorem hostReturns_outCap (v : Word) (s : State) : (hostReturns v s).outCap = s.outCap := rfl
@[simp] theorem hostReturns_host (v : Word) (s : State) : (hostReturns v s).host = s.host := rfl
@[simp] theorem hostReturns_hostData (v : Word) (s : State) : (hostReturns v s).hostData = v := rfl

@[simp] theorem resetEvent_lz (s : State) : (resetEvent s).lz = LzUnit.atReset := rfl
@[simp] theorem resetEvent_out (s : State) : (resetEvent s).out = [] := rfl
@[simp] theorem resetEvent_tile (s : State) : (resetEvent s).tile = TileUnit.atReset := rfl
@[simp] theorem resetEvent_cIn (s : State) : (resetEvent s).cIn = 0 := rfl
@[simp] theorem resetEvent_src (s : State) : (resetEvent s).src = s.src := rfl
@[simp] theorem resetEvent_outCap (s : State) : (resetEvent s).outCap = s.outCap := rfl
@[simp] theorem resetEvent_host (s : State) : (resetEvent s).host = s.host := rfl
@[simp] theorem resetEvent_hostData (s : State) : (resetEvent s).hostData = s.hostData := rfl

end Sys2Proof.Laws
end

