-- ==== Sys2Proof/Laws/Memory.lean ====
section
/-! SUPPORT. The laws of the memories: a read after a write, other indices, and the canonical form. -/

namespace Sys2Proof.Laws

open Sys2Proof.Machine

variable {w : Nat}

@[simp] theorem valueAt_nil (a : Nat) : Memory.valueAt a ([] : Memory w) = none := rfl

@[simp] theorem valueAt_put_same (a : Nat) (v : BitVec w) (m : Memory w) :
    Memory.valueAt a (Memory.put a v m) = some v := by
  induction m with
  | nil => simp [Memory.put, Memory.valueAt]
  | cons p m ih =>
    obtain ⟨b, u⟩ := p
    simp only [Memory.put]
    split_ifs with h1 h2
    · simp [Memory.valueAt]
    · simp [Memory.valueAt]
    · simp [Memory.valueAt, ih, Ne.symm h2]

theorem valueAt_put_other {a b : Nat} (h : b ≠ a) (v : BitVec w) (m : Memory w) :
    Memory.valueAt b (Memory.put a v m) = Memory.valueAt b m := by
  induction m with
  | nil => simp [Memory.put, Memory.valueAt, Ne.symm h]
  | cons p m ih =>
    obtain ⟨c, u⟩ := p
    simp only [Memory.put]
    split_ifs with h1 h2
    · simp [Memory.valueAt, Ne.symm h]
    · subst h2
      simp [Memory.valueAt, Ne.symm h]
    · by_cases hc : c = b <;> simp [Memory.valueAt, hc, ih]

theorem valueAt_put (a b : Nat) (v : BitVec w) (m : Memory w) :
    Memory.valueAt b (Memory.put a v m) = if b = a then some v else Memory.valueAt b m := by
  by_cases h : b = a
  · subst h; simp
  · simp [h, valueAt_put_other h]

theorem clear_cons (a b : Nat) (u : BitVec w) (m : Memory w) :
    Memory.clear a ((b, u) :: m) = if b = a then Memory.clear a m else (b, u) :: Memory.clear a m := by
  by_cases h : b = a <;> simp [Memory.clear, h]

@[simp] theorem valueAt_clear_same (a : Nat) (m : Memory w) : Memory.valueAt a (Memory.clear a m) = none := by
  induction m with
  | nil => rfl
  | cons p m ih =>
    obtain ⟨b, u⟩ := p
    rw [clear_cons]
    split_ifs with hb
    · exact ih
    · simp [Memory.valueAt, hb, ih]

theorem valueAt_clear_other {a b : Nat} (h : b ≠ a) (m : Memory w) :
    Memory.valueAt b (Memory.clear a m) = Memory.valueAt b m := by
  induction m with
  | nil => rfl
  | cons p m ih =>
    obtain ⟨c, u⟩ := p
    rw [clear_cons]
    split_ifs with hc
    · simp [Memory.valueAt, ih, hc, Ne.symm h]
    · by_cases hcb : c = b <;> simp [Memory.valueAt, hcb, ih]

/-- A read of SRC after a write of one byte. -/
theorem srcByte_putSrcByte (a b : Nat) (v : Byte) (m : Memory 8) :
    srcByte (putSrcByte a v m) b = if b = a then v else srcByte m b := by
  by_cases hv : v = 0
  · subst hv
    by_cases hb : b = a
    · subst hb; simp [srcByte, putSrcByte]
    · simp [srcByte, putSrcByte, hb, valueAt_clear_other hb]
  · simp only [srcByte, putSrcByte, hv, if_false, valueAt_put]
    split_ifs <;> rfl

theorem mem_put {a : Nat} {v : BitVec w} {m : Memory w} {p : Nat × BitVec w} (h : p ∈ Memory.put a v m) :
    p = (a, v) ∨ p ∈ m := by
  induction m with
  | nil => simp_all [Memory.put]
  | cons q m ih =>
    obtain ⟨b, u⟩ := q
    simp only [Memory.put] at h
    split_ifs at h with h1 h2
    · simpa using h
    · rcases List.mem_cons.1 h with h | h
      · exact .inl h
      · exact .inr (List.mem_cons_of_mem _ h)
    · rcases List.mem_cons.1 h with h | h
      · exact .inr (by simp [h])
      · rcases ih h with h | h
        · exact .inl h
        · exact .inr (List.mem_cons_of_mem _ h)

/-- A write keeps the canonical form. -/
theorem wf_put {size a : Nat} {v : BitVec w} {m : Memory w} (h : Memory.wf size m) (ha : a < size) :
    Memory.wf size (Memory.put a v m) := by
  obtain ⟨hr, hb⟩ := h
  refine ⟨?_, fun p hp => ?_⟩
  · clear hb
    induction m with
    | nil => simp [Memory.put]
    | cons q m ih =>
      obtain ⟨b, u⟩ := q
      have hr' := List.pairwise_cons.1 hr
      simp only [Memory.put]
      split_ifs with h1 h2
      · refine List.pairwise_cons.2 ⟨fun p hp => ?_, hr⟩
        rcases List.mem_cons.1 hp with rfl | hp
        · exact h1
        · exact lt_trans h1 (hr'.1 p hp)
      · subst h2
        exact List.pairwise_cons.2 ⟨fun p hp => hr'.1 p hp, hr'.2⟩
      · refine List.pairwise_cons.2 ⟨fun p hp => ?_, ih hr'.2⟩
        rcases mem_put hp with rfl | hp
        · have : b < a := by omega
          exact this
        · exact hr'.1 p hp
  · rcases mem_put hp with rfl | hp
    · exact ha
    · exact hb p hp

/-- Taking an index off keeps the canonical form. -/
theorem wf_clear {size : Nat} (a : Nat) {m : Memory w} (h : Memory.wf size m) :
    Memory.wf size (Memory.clear a m) :=
  ⟨h.1.filter _, fun p hp => h.2 p (List.mem_filter.1 hp).1⟩

/-- A write of a source byte keeps the canonical form. -/
theorem wf_putSrcByte {size a : Nat} {v : Byte} {m : Memory 8} (h : Memory.wf size m) (ha : a < size) :
    Memory.wf size (putSrcByte a v m) := by
  unfold putSrcByte
  split_ifs
  · exact wf_clear a h
  · exact wf_put h ha

/-- No source entry holds 00, what an unlisted index reads as. -/
theorem nonzero_putSrcByte {a : Nat} {v : Byte} {m : Memory 8} (h : ∀ p ∈ m, p.2 ≠ 0) :
    ∀ p ∈ putSrcByte a v m, p.2 ≠ 0 := by
  intro p hp
  unfold putSrcByte at hp
  split_ifs at hp with hv
  · exact h p (List.mem_filter.1 hp).1
  · rcases mem_put hp with rfl | hp
    · exact hv
    · exact h p hp

end Sys2Proof.Laws
end

