-- ==== Sys2Proof/Laws/Ops.lean ====
section
/-! SUPPORT. What each shared operation can do, said once: reading source bytes, the fetch step, the run steps, the
window check, and the LZ unit's turn. -/

namespace Sys2Proof.Laws

open Sys2Proof.Machine

/-! ### Words that do not wrap (R131) -/

theorem toNat_succ_of_lt {x y : Word} (h : x < y) : (x + 1).toNat = x.toNat + 1 := by
  have h' : x.toNat < y.toNat := h
  have hy := y.isLt
  rw [BitVec.toNat_add]
  exact Nat.mod_eq_of_lt (by simp; omega)

theorem toNat_add_ofNat {x : Word} {k : Nat} (h : x.toNat + k < 2 ^ 32) :
    (x + BitVec.ofNat 32 k).toNat = x.toNat + k := by
  rw [BitVec.toNat_add, BitVec.toNat_ofNat]
  omega

@[simp] theorem sourceExhausted_iff (u : LzUnit) : sourceExhausted u = true ↔ u.srcLen.toNat ≤ u.sp.toNat := by
  simp [sourceExhausted, BitVec.le_def]

@[simp] theorem outFull_iff (s : State) : outFull s = true ↔ s.outCap.toNat ≤ s.lz.olen.toNat := by
  simp [outFull, BitVec.le_def]

@[simp] theorem hintReached_iff (u : LzUnit) :
    hintReached u = true ↔ u.hintEn = true ∧ u.hint.toNat ≤ u.olen.toNat := by
  simp [hintReached, BitVec.le_def]

theorem busy_iff (u : LzUnit) :
    u.busy = true ↔ u.phase = .fetch ∨ u.phase = .runLit ∨ u.phase = .runCopy := by
  unfold LzUnit.busy
  cases u.phase <;> simp

/-! ### Reading source bytes -/

/-- `k` source bytes have been read (R44). -/
def advanceBy (k : Nat) (s : State) : State :=
  { s with lz := { s.lz with sp := s.lz.sp + BitVec.ofNat 32 k, consumed := s.lz.consumed + BitVec.ofNat 32 k } }

@[simp] theorem advanceBy_zero (s : State) : advanceBy 0 s = s := by simp [advanceBy]

@[simp] theorem advanceBy_advanceSource (k : Nat) (s : State) :
    advanceBy k (advanceSource s) = advanceBy (k + 1) s := by
  have h : ∀ x : Word, x + 1 + BitVec.ofNat 32 k = x + BitVec.ofNat 32 (k + 1) := by
    intro x
    apply BitVec.eq_of_toNat_eq
    simp [BitVec.toNat_add]
    omega
  simp only [advanceBy, advanceSource, h]

theorem srcBytes_succ (src : Memory 8) (a n : Nat) :
    srcBytes src a (n + 1) = srcByte src a :: srcBytes src (a + 1) n := by
  simp [srcBytes, List.range_succ_eq_map, Function.comp_def, Nat.add_comm, Nat.add_left_comm]

theorem srcFetch_of_lt {s : State} (h : s.lz.sp.toNat < s.lz.srcLen.toNat) :
    srcFetch s = .read (nextSourceByte s) (advanceSource s) := by
  have : ¬ sourceExhausted s.lz = true := by simpa using h
  simp [srcFetch, this]

theorem srcFetch_of_le {s : State} (h : s.lz.srcLen.toNat ≤ s.lz.sp.toNat) :
    srcFetch s = .raised .srcExhausted s := by
  have : sourceExhausted s.lz = true := by simpa using h
  simp [srcFetch, this]

theorem advanceSource_sp_toNat {s : State} (h : s.lz.sp.toNat < s.lz.srcLen.toNat) :
    (advanceSource s).lz.sp.toNat = s.lz.sp.toNat + 1 := toNat_succ_of_lt h

/-- A header whose bytes are all in the slice is read, and SP and LZ_CONSUMED grow by their number. -/
theorem readSource_of_feed {α : Type} (r : HeaderReader α) :
    ∀ (n : Nat) (a : α) (s : State), r.feed (srcBytes s.src s.lz.sp.toNat n) = .ok (a, []) →
      s.lz.sp.toNat + n ≤ s.lz.srcLen.toNat → readSource r s = .read a (advanceBy n s) := by
  induction r with
  | done b =>
    intro n a s h _
    simp only [HeaderReader.feed] at h
    injection h with h
    injection h with h1 h2
    have : n = 0 := by simpa [srcBytes] using h2
    subst h1 this
    simp [readSource]
  | fetch k ih =>
    intro n a s h hn
    cases n with
    | zero => simp [srcBytes, HeaderReader.feed] at h
    | succ n =>
      rw [srcBytes_succ] at h
      have hlt : s.lz.sp.toNat < s.lz.srcLen.toNat := by omega
      simp only [readSource, srcFetch_of_lt hlt]
      rw [ih _ n a (advanceSource s) (by rw [advanceSource_sp_toNat hlt]; exact h)
        (by simp only [advanceSource_sp_toNat hlt, advanceSource_lz_srcLen]; omega)]
      simp

/-- A header cut short by the end of the slice raises SRC_EXHAUSTED after the bytes that exist (R144, R148). -/
theorem readSource_of_feed_error {α : Type} (r : HeaderReader α) :
    ∀ (n : Nat) (e : DecodeError) (s : State), n = s.lz.srcLen.toNat - s.lz.sp.toNat →
      r.feed (srcBytes s.src s.lz.sp.toNat n) = .error e →
      readSource r s = .raised .srcExhausted (advanceBy n s) := by
  induction r with
  | done b => intro n e s _ h; simp [HeaderReader.feed] at h
  | fetch k ih =>
    intro n e s hn h
    cases n with
    | zero => simp [readSource, srcFetch_of_le (show s.lz.srcLen.toNat ≤ s.lz.sp.toNat by omega)]
    | succ n =>
      rw [srcBytes_succ] at h
      have hlt : s.lz.sp.toNat < s.lz.srcLen.toNat := by omega
      simp only [readSource, srcFetch_of_lt hlt]
      rw [ih _ n e (advanceSource s)
        (by simp only [advanceSource_sp_toNat hlt, advanceSource_lz_srcLen]; omega)
        (by rw [advanceSource_sp_toNat hlt]; exact h)]
      simp

/-- All that reading a header can do: it has read some bytes of the slice, and either it has its answer or the
slice has ended and the cause is SRC_EXHAUSTED. -/
theorem readSource_cases {α : Type} (r : HeaderReader α) :
    ∀ s : State, (∃ n a, readSource r s = .read a (advanceBy n s) ∧
        r.feed (srcBytes s.src s.lz.sp.toNat n) = .ok (a, []) ∧
        s.lz.sp.toNat + n ≤ max s.lz.sp.toNat s.lz.srcLen.toNat) ∨
      (∃ e, readSource r s = .raised .srcExhausted (advanceBy (s.lz.srcLen.toNat - s.lz.sp.toNat) s) ∧
        r.feed (srcBytes s.src s.lz.sp.toNat (s.lz.srcLen.toNat - s.lz.sp.toNat)) = .error e) := by
  induction r with
  | done b => exact fun s => .inl ⟨0, b, by simp [readSource], by simp [HeaderReader.feed, srcBytes], by simp⟩
  | fetch k ih =>
    intro s
    by_cases hlt : s.lz.sp.toNat < s.lz.srcLen.toNat
    · have hsp := advanceSource_sp_toNat hlt
      rcases ih (nextSourceByte s) (advanceSource s) with ⟨n, a, h1, h2, h3⟩ | ⟨e, h1, h2⟩
      · refine .inl ⟨n + 1, a, by simp [readSource, srcFetch_of_lt hlt, h1], ?_, ?_⟩
        · rw [srcBytes_succ]
          rw [hsp] at h2; exact h2
        · simp only [hsp, advanceSource_lz_srcLen] at h3; omega
      · have hn : s.lz.srcLen.toNat - s.lz.sp.toNat
            = ((advanceSource s).lz.srcLen.toNat - (advanceSource s).lz.sp.toNat) + 1 := by
          simp only [hsp, advanceSource_lz_srcLen]; omega
        refine .inr ⟨e, by simp [readSource, srcFetch_of_lt hlt, h1, hn], ?_⟩
        rw [hn, srcBytes_succ]
        rw [hsp] at h2 ⊢
        exact h2
    · have hle : s.lz.srcLen.toNat ≤ s.lz.sp.toNat := by omega
      have h0 : s.lz.srcLen.toNat - s.lz.sp.toNat = 0 := by omega
      exact .inr ⟨.headerCutShort, by simp [readSource, srcFetch_of_le hle, h0],
        by simp [h0, srcBytes, HeaderReader.feed]⟩

/-! ### The window check (R129) -/

/-- All that the start of a copy can do. -/
theorem startCopy_cases (n : BitVec 11) (p : Int) (s : State) :
    (p < 0 ∧ startCopy n p s = lzFault .windowBeforeStart s) ∨
    ((s.lz.olen.toNat : Int) ≤ p ∧ startCopy n p s = lzFault .windowPastEnd s) ∨
    (0 ≤ p ∧ p < s.lz.olen.toNat ∧ startCopy n p s = { s with lz := { s.lz with
      op := .bref, cnt := n, cpy := BitVec.ofNat 32 p.toNat, phase := .runCopy } }) := by
  unfold startCopy
  split_ifs with h1 h2
  · exact .inl ⟨h1, rfl⟩
  · exact .inr (.inl ⟨h2, rfl⟩)
  · exact .inr (.inr ⟨not_lt.1 h1, not_le.1 h2, rfl⟩)

/-! ### The run steps (R127, R128) -/

theorem countByte_cnt_toNat {s : State} (h : 1 ≤ s.lz.cnt.toNat) :
    (countByte s).lz.cnt.toNat = s.lz.cnt.toNat - 1 := by
  have := s.lz.cnt.isLt
  rw [countByte_lz_cnt, BitVec.toNat_sub]
  simp
  omega

/-- PHASE becomes FETCH exactly with the last byte of the run. -/
theorem countByte_phase {s : State} (h : 1 ≤ s.lz.cnt.toNat) :
    (countByte s).lz.phase = if s.lz.cnt.toNat = 1 then .fetch else s.lz.phase := by
  have hc := countByte_cnt_toNat h
  rw [countByte_lz_cnt] at hc
  rw [countByte_lz_phase]
  congr 1
  rw [← BitVec.toNat_inj, hc]
  simp
  omega

/-- All that a RUN_LIT step past its hint check can do. -/
theorem runLitStep_cases (s : State) :
    (s.lz.srcLen.toNat ≤ s.lz.sp.toNat ∧ runLitStep s = .next (lzFault .srcExhausted s)) ∨
    (s.lz.sp.toNat < s.lz.srcLen.toNat ∧ s.outCap.toNat ≤ s.lz.olen.toNat ∧
      runLitStep s = .next (lzFault .outFull s)) ∨
    (s.lz.sp.toNat < s.lz.srcLen.toNat ∧ s.lz.olen.toNat < s.outCap.toNat ∧
      runLitStep s = .next (countByte (appendByte (nextSourceByte s) (advanceSource s)))) := by
  unfold runLitStep
  split_ifs with h1 h2 <;> (try rw [sourceExhausted_iff] at h1) <;> (try rw [outFull_iff] at h2)
  · exact .inl ⟨h1, rfl⟩
  · exact .inr (.inl ⟨by omega, h2, rfl⟩)
  · exact .inr (.inr ⟨by omega, by omega, rfl⟩)

/-- All that a RUN_COPY step past its hint check can do. -/
theorem runCopyStep_cases (s : State) :
    (s.outCap.toNat ≤ s.lz.olen.toNat ∧ runCopyStep s = .next (lzFault .outFull s)) ∨
    (s.lz.olen.toNat < s.outCap.toNat ∧ ∃ v, Memory.valueAt s.lz.cpy.toNat s.out = some v ∧
      runCopyStep s = .next (countByte (advanceCopy (appendByte v s)))) ∨
    (s.lz.olen.toNat < s.outCap.toNat ∧ Memory.valueAt s.lz.cpy.toNat s.out = none ∧
      runCopyStep s = .fault (.outByteWithoutValue s.lz.cpy.toNat)) := by
  unfold runCopyStep
  split_ifs with h1 <;> simp only [outFull_iff] at h1
  · exact .inl ⟨h1, rfl⟩
  · cases hv : Memory.valueAt s.lz.cpy.toNat s.out with
    | none => exact .inr (.inr ⟨by omega, rfl, rfl⟩)
    | some v => exact .inr (.inl ⟨by omega, v, rfl, rfl⟩)

/-! ### The LZ unit's turn -/

/-- A unit that is not BUSY waits (R103). -/
theorem lzTurn_idle {fetch : State → Answer} {s : State} (h : s.lz.busy = false) : lzTurn fetch s = .next s := by
  unfold lzTurn
  cases hp : s.lz.phase <;> simp_all [LzUnit.busy]

/-- The size-hint check comes first in every step (R104). -/
theorem lzTurn_hint {fetch : State → Answer} {s : State} (hb : s.lz.busy = true)
    (hh : hintReached s.lz = true) : lzTurn fetch s = .next (stopByHint s) := by
  unfold lzTurn
  cases hp : s.lz.phase <;> simp_all [LzUnit.busy]

/-- The FETCH step of L0 after its hint check: either a token's header has been read and its meaning runs, or the
slice ended inside the header. -/
theorem fetchStep_cases (run : Instr → State → Answer) (s : State) :
    (∃ n i, decode (srcBytes s.src s.lz.sp.toNat n) = .ok (i, []) ∧ 1 ≤ n ∧
        s.lz.sp.toNat + n ≤ s.lz.srcLen.toNat ∧
        fetchStep readHeader run s = run i (advanceBy n (latchT0 s))) ∨
    ((∃ e, decode (srcBytes s.src s.lz.sp.toNat (bytesLeft s)) = .error e) ∧
      fetchStep readHeader run s = .next (lzFault .srcExhausted (advanceBy (bytesLeft s) (latchT0 s)))) := by
  have key : ∀ n, (HeaderReader.fetch readHeader).feed (srcBytes s.src s.lz.sp.toNat n)
      = match n with
        | 0 => .error .headerCutShort
        | n + 1 => decode (srcBytes s.src s.lz.sp.toNat (n + 1)) := by
    intro n
    cases n with
    | zero => simp [srcBytes, HeaderReader.feed]
    | succ n => simp [srcBytes_succ, HeaderReader.feed, decode]
  rcases readSource_cases (.fetch readHeader) (latchT0 s) with ⟨n, i, h1, h2, h3⟩ | ⟨e, h1, h2⟩
  · left
    cases n with
    | zero => simp [srcBytes, HeaderReader.feed] at h2
    | succ n =>
      refine ⟨n + 1, i, ?_, by omega, ?_, by simp [fetchStep, h1]⟩
      · have := key (n + 1)
        simp only [latchT0_src, latchT0_lz_sp] at h2
        rw [h2] at this
        exact this.symm
      · simp only [latchT0_lz_sp, latchT0_lz_srcLen] at h3; omega
  · right
    refine ⟨?_, by simp only [fetchStep, h1, latchT0_lz_sp, latchT0_lz_srcLen, bytesLeft]⟩
    simp only [latchT0_src, latchT0_lz_sp, latchT0_lz_srcLen] at h2
    cases hb : bytesLeft s with
    | zero => exact ⟨.noControlByte, rfl⟩
    | succ n =>
      have h2' : (HeaderReader.fetch readHeader).feed (srcBytes s.src s.lz.sp.toNat (n + 1)) = .error e := by
        rw [← hb]; exact h2
      exact ⟨e, (key (n + 1)).symm.trans h2'⟩

end Sys2Proof.Laws
end

