-- ==== Sys2Proof/Laws/Turn.lean ====
section
/-! SUPPORT. What a step is when the host acts, and when it is the LZ unit's turn, phase by phase. -/

namespace Sys2Proof.Laws

open Sys2Proof.Machine

/-- With an interaction pending the step is that interaction. -/
theorem step_of_host {op : HostOp} {rest : List HostOp} {s : State} (h : s.host = op :: rest) :
    step s = hostAct exec (lzTurnL0 exec) op { s with host := rest } := by
  simp [step, turn, h]

/-- When it is the LZ unit's turn, the step is its turn, with the host's `yield` taken off. -/
theorem step_of_lzHasTurn {rest : List HostOp} {s : State} (h : lzHasTurn rest s) :
    step s = lzTurnL0 exec { s with host := rest } := by
  rcases h with ⟨h, rfl⟩ | h
  · have hs : { s with host := [] } = s := by cases s; simp_all
    simp only [step, turn, h, hs]
  · simp [step, turn, h, hostAct]

/-- With nothing pending the step is the LZ unit's turn, and the host still has nothing pending. -/
theorem step_of_host_nil {s : State} (h : s.host = []) : step s = lzTurnL0 exec s := by
  simp [step, turn, h]

theorem hintReached_eq_false {s : State} (h : ¬ hintDue s) : hintReached s.lz = false := by
  cases hh : hintReached s.lz
  · rfl
  · exact absurd ((hintReached_iff _).1 hh) h

theorem lzTurnL0_fetch {run : Instr → State → Answer} {s : State} (hp : s.lz.phase = .fetch) (hh : ¬ hintDue s) :
    lzTurnL0 run s = fetchStep readHeader run s := by
  simp [lzTurnL0, lzTurn, hp, hintReached_eq_false hh]

theorem lzTurnL0_runLit {run : Instr → State → Answer} {s : State} (hp : s.lz.phase = .runLit)
    (hh : ¬ hintDue s) : lzTurnL0 run s = runLitStep s := by
  simp [lzTurnL0, lzTurn, hp, hintReached_eq_false hh]

theorem lzTurnL0_runCopy {run : Instr → State → Answer} {s : State} (hp : s.lz.phase = .runCopy)
    (hh : ¬ hintDue s) : lzTurnL0 run s = runCopyStep s := by
  simp [lzTurnL0, lzTurn, hp, hintReached_eq_false hh]

theorem lzTurnL0_hint {run : Instr → State → Answer} {s : State} (hb : s.lz.busy = true) (hh : hintDue s) :
    lzTurnL0 run s = .next (stopByHint s) :=
  lzTurn_hint hb ((hintReached_iff _).2 hh)

theorem lzTurnL0_waiting {run : Instr → State → Answer} {s : State} (hb : s.lz.busy = false) :
    lzTurnL0 run s = .next s :=
  lzTurn_idle hb

/-- All that the LZ unit's turn can do, by phase and hint. -/
theorem lzTurnL0_cases (run : Instr → State → Answer) (s : State) :
    (s.lz.busy = false ∧ lzTurnL0 run s = .next s) ∨
    (s.lz.busy = true ∧ hintDue s ∧ lzTurnL0 run s = .next (stopByHint s)) ∨
    (s.lz.phase = .fetch ∧ ¬ hintDue s ∧ lzTurnL0 run s = fetchStep readHeader run s) ∨
    (s.lz.phase = .runLit ∧ ¬ hintDue s ∧ lzTurnL0 run s = runLitStep s) ∨
    (s.lz.phase = .runCopy ∧ ¬ hintDue s ∧ lzTurnL0 run s = runCopyStep s) := by
  by_cases hb : s.lz.busy = true
  · by_cases hh : hintDue s
    · exact .inr (.inl ⟨hb, hh, lzTurnL0_hint hb hh⟩)
    · rcases (busy_iff _).1 hb with h | h | h
      · exact .inr (.inr (.inl ⟨h, hh, lzTurnL0_fetch h hh⟩))
      · exact .inr (.inr (.inr (.inl ⟨h, hh, lzTurnL0_runLit h hh⟩)))
      · exact .inr (.inr (.inr (.inr ⟨h, hh, lzTurnL0_runCopy h hh⟩)))
  · exact .inl ⟨by simpa using hb, lzTurnL0_waiting (by simpa using hb)⟩

/-- A whole header in the slice, for any reader: the FETCH step goes on with its answer. -/
theorem fetchStep_of_feed {α : Type} {reader : Byte → HeaderReader α} {start : α → State → Answer} {s : State}
    {n : Nat} {a : α} (hf : (HeaderReader.fetch reader).feed (srcBytes s.src s.lz.sp.toNat n) = .ok (a, []))
    (hn : s.lz.sp.toNat + n ≤ s.lz.srcLen.toNat) :
    fetchStep reader start s = start a (advanceBy n (latchT0 s)) := by
  simp [fetchStep, readSource_of_feed (.fetch reader) n a (latchT0 s) hf hn]

/-- A header cut short by the end of the slice, for any reader: the FETCH step raises SRC_EXHAUSTED. -/
theorem fetchStep_of_feed_error {α : Type} {reader : Byte → HeaderReader α} {start : α → State → Answer} {s : State}
    {e : DecodeError}
    (hf : (HeaderReader.fetch reader).feed (srcBytes s.src s.lz.sp.toNat (bytesLeft s)) = .error e) :
    fetchStep reader start s = .next (lzFault .srcExhausted (advanceBy (bytesLeft s) (latchT0 s))) := by
  simp only [fetchStep, readSource_of_feed_error (.fetch reader) (bytesLeft s) e (latchT0 s) rfl hf]

/-- A whole header in the slice: the FETCH step runs the token's meaning. -/
theorem fetchStep_of_decode {run : Instr → State → Answer} {s : State} {n : Nat} {i : Instr}
    (hd : decode (srcBytes s.src s.lz.sp.toNat n) = .ok (i, []))
    (hn : s.lz.sp.toNat + n ≤ s.lz.srcLen.toNat) :
    fetchStep readHeader run s = run i (advanceBy n (latchT0 s)) := by
  cases n with
  | zero => simp [srcBytes, decode] at hd
  | succ n => exact fetchStep_of_feed (by rw [srcBytes_succ] at hd ⊢; exact hd) hn

/-- A header cut short by the end of the slice: the FETCH step raises SRC_EXHAUSTED. -/
theorem fetchStep_of_decode_error {run : Instr → State → Answer} {s : State} {e : DecodeError}
    (hd : decode (srcBytes s.src s.lz.sp.toNat (bytesLeft s)) = .error e) :
    fetchStep readHeader run s = .next (lzFault .srcExhausted (advanceBy (bytesLeft s) (latchT0 s))) := by
  cases hb : bytesLeft s with
  | zero => rw [← hb]; exact fetchStep_of_feed_error (e := .headerCutShort) (by rw [hb]; rfl)
  | succ n => rw [← hb]; exact fetchStep_of_feed_error (e := e) (by rw [hb, srcBytes_succ] at hd ⊢; exact hd)

end Sys2Proof.Laws
end

