-- ==== Sys2Proof/Laws/Layout.lean ====
section
/-! SUPPORT. The machine under any layout: what its step is, and all that its LZ unit's turn can do. -/

namespace Sys2Proof.Laws

open Sys2Proof.Machine

/-- When it is the LZ unit's turn, the step under a layout is its turn, with the host's `yield` taken off. -/
theorem stepWith_of_lzHasTurn {L : Layout} {rest : List HostOp} {s : State} (h : lzHasTurn rest s) :
    stepWith L s = lzTurnWith L { s with host := rest } := by
  rcases h with ⟨h, rfl⟩ | h
  · have hs : { s with host := [] } = s := by cases s; simp_all
    simp only [stepWith, turn, h, hs]
  · simp [stepWith, turn, h, hostAct]

/-- With an interaction pending the step under a layout is that interaction. -/
theorem stepWith_of_host {L : Layout} {op : HostOp} {rest : List HostOp} {s : State} (h : s.host = op :: rest) :
    stepWith L s = hostAct exec (lzTurnWith L) op { s with host := rest } := by
  simp [stepWith, turn, h]

/-- An interaction other than waiting does not ask for the LZ unit's turn. -/
theorem hostAct_unitTurn {op : HostOp} (h : op ≠ .yield) (run : Instr → State → Answer) (f g : State → Answer)
    (s : State) : hostAct run f op s = hostAct run g op s := by
  cases op <;> first | rfl | exact absurd rfl h

theorem lzTurnWith_fetch {L : Layout} {s : State} (hp : s.lz.phase = .fetch) (hh : ¬ hintDue s) :
    lzTurnWith L s = fetchStep L.reader (fun f t => startClass (f t.lz.olen) t) s := by
  simp [lzTurnWith, lzTurn, hp, hintReached_eq_false hh]

/-- Outside the FETCH step the LZ unit's turn is the same under every layout. -/
theorem lzTurnWith_eq {L : Layout} {s : State} (h : ¬ (s.lz.phase = .fetch ∧ ¬ hintDue s)) :
    lzTurnWith L s = lzTurnL0 exec s := by
  unfold lzTurnWith lzTurnL0 lzTurn
  cases hp : s.lz.phase <;> try rfl
  have hd : hintReached s.lz = true := (hintReached_iff _).2 (by_contra fun hd => h ⟨hp, hd⟩)
  simp [hd]

/-- All that the LZ unit's turn can do under a layout, by phase and hint. -/
theorem lzTurnWith_cases (L : Layout) (s : State) :
    (s.lz.busy = false ∧ lzTurnWith L s = .next s) ∨
    (s.lz.busy = true ∧ hintDue s ∧ lzTurnWith L s = .next (stopByHint s)) ∨
    (s.lz.phase = .fetch ∧ ¬ hintDue s ∧
      ((∃ (n : Nat) (f : Word → TokenClass), 1 ≤ n ∧ s.lz.sp.toNat + n ≤ s.lz.srcLen.toNat ∧
          (HeaderReader.fetch L.reader).feed (srcBytes s.src s.lz.sp.toNat n) = .ok (f, []) ∧
          lzTurnWith L s = startClass (f s.lz.olen) (advanceBy n (latchT0 s))) ∨
        (∃ e, (HeaderReader.fetch L.reader).feed (srcBytes s.src s.lz.sp.toNat (bytesLeft s)) = .error e ∧
          lzTurnWith L s = .next (lzFault .srcExhausted (advanceBy (bytesLeft s) (latchT0 s)))))) ∨
    (s.lz.phase = .runLit ∧ ¬ hintDue s ∧ lzTurnWith L s = runLitStep s) ∨
    (s.lz.phase = .runCopy ∧ ¬ hintDue s ∧ lzTurnWith L s = runCopyStep s) := by
  by_cases hf : s.lz.phase = .fetch ∧ ¬ hintDue s
  · refine .inr (.inr (.inl ⟨hf.1, hf.2, ?_⟩))
    rw [lzTurnWith_fetch hf.1 hf.2]
    rcases readSource_cases (.fetch L.reader) (latchT0 s) with ⟨n, f, h1, h2, h3⟩ | ⟨e, h1, h2⟩
    · refine .inl ⟨n, f, ?_, ?_, h2, by simp [fetchStep, h1, advanceBy]⟩
      · cases n with
        | zero => simp [srcBytes, HeaderReader.feed] at h2
        | succ n => omega
      · have hn : 1 ≤ n := by
          cases n with
          | zero => simp [srcBytes, HeaderReader.feed] at h2
          | succ n => omega
        simp only [latchT0_lz_sp, latchT0_lz_srcLen] at h3
        omega
    · exact .inr ⟨e, h2, by simp only [fetchStep, h1, latchT0_lz_sp, latchT0_lz_srcLen, bytesLeft]⟩
  · rw [lzTurnWith_eq hf]
    rcases lzTurnL0_cases exec s with h | h | ⟨hp, hd, _⟩ | h | h
    · exact .inl h
    · exact .inr (.inl h)
    · exact absurd ⟨hp, hd⟩ hf
    · exact .inr (.inr (.inr (.inl h)))
    · exact .inr (.inr (.inr (.inr h)))

end Sys2Proof.Laws
end

