-- ==== Sys2Proof/Laws/Token.lean ====
section
/-! SUPPORT. What decoding can answer, what a token's meaning can do, and all the next states of the LZ unit's
turn. -/

namespace Sys2Proof.Laws

open Sys2Proof.Machine

/-! ### Readers -/

/-- What holds of every answer of a reader holds of what it answers when fed. -/
theorem feed_of_everyAnswer {α : Type} {p : α → Prop} (r : HeaderReader α) :
    ∀ {bs rest : List Byte} {a : α}, everyAnswer p r → r.feed bs = .ok (a, rest) → p a := by
  induction r with
  | done b =>
    intro bs rest a h hf
    simp only [HeaderReader.feed, Except.ok.injEq, Prod.mk.injEq] at hf
    exact hf.1 ▸ h
  | fetch k ih =>
    intro bs rest a h hf
    cases bs with
    | nil => simp [HeaderReader.feed] at hf
    | cons b bs => exact ih b (h b) hf

/-- What holds of every answer of a reader holds of what it answers when the source feeds it. -/
theorem readSource_of_everyAnswer {α : Type} {p : α → Prop} (r : HeaderReader α) :
    ∀ {s t : State} {a : α}, everyAnswer p r → readSource r s = .read a t → p a := by
  induction r with
  | done b =>
    intro s t a h hf
    simp only [readSource, Fetched.read.injEq] at hf
    exact hf.1 ▸ h
  | fetch k ih =>
    intro s t a h hf
    simp only [readSource] at hf
    split at hf
    · cases hf
    · exact ih _ (h _) hf

/-- What holds of every answer passed on through `f`. -/
theorem everyAnswer_map {α β : Type} (f : α → β) (p : β → Prop) (r : HeaderReader α) :
    everyAnswer p (r.map f) ↔ everyAnswer (fun a => p (f a)) r := by
  induction r with
  | done a => rfl
  | fetch k ih =>
    simp only [HeaderReader.map, everyAnswer]
    exact forall_congr' fun b => ih b

theorem everyAnswer_mono {α : Type} {p q : α → Prop} (h : ∀ a, p a → q a) (r : HeaderReader α) :
    everyAnswer p r → everyAnswer q r := by
  induction r with
  | done a => exact h a
  | fetch k ih => exact fun hr b => ih b (hr b)

/-- Reading through `map` is reading, with the answer passed on. -/
theorem readSource_map {α β : Type} (f : α → β) (r : HeaderReader α) :
    ∀ s, readSource (r.map f) s = match readSource r s with
      | .read a t => .read (f a) t
      | .raised c t => .raised c t := by
  induction r with
  | done b => intro s; rfl
  | fetch k ih =>
    intro s
    simp only [HeaderReader.map, readSource]
    cases srcFetch s with
    | raised c t => rfl
    | read b t => exact ih b t

/-- The header readers of L0 answer with tokens only. -/
theorem readHeader_isToken (c : Byte) : everyAnswer (fun i => i.isToken = true) (readHeader c) := by
  unfold readHeader
  split_ifs
  · rfl
  · split <;> first | rfl | (intro d0 d1; rfl) | skip
    unfold readLongHeader
    split <;> first | rfl | (intro b; rfl) | (intro b d0 d1; rfl)

theorem decode_isToken {bs rest : List Byte} {i : Instr} (h : decode bs = .ok (i, rest)) : i.isToken = true := by
  cases bs with
  | nil => simp [decode] at h
  | cons c bs => exact feed_of_everyAnswer (p := fun i => i.isToken = true) _ (readHeader_isToken c) h

/-- Bytes that are exactly one token's header and operand are as many as the encoding's (R69). -/
theorem decode_length {bs : List Byte} {i : Instr} (h : decode bs = .ok (i, [])) :
    bs.length = (tokenBytes i).length := by
  cases bs with
  | nil => simp [decode] at h
  | cons c bs =>
    simp only [decode, readHeader, readLongHeader, readDistance] at h
    split_ifs at h
    · simp only [HeaderReader.feed, Except.ok.injEq, Prod.mk.injEq] at h
      obtain ⟨rfl, rfl⟩ := h
      rfl
    · split at h
      case h_5 =>
        match bs, h with
        | [d0, d1], h =>
          simp only [HeaderReader.feed, Except.ok.injEq, Prod.mk.injEq, and_true] at h
          subst h; rfl
        | [], h => simp [HeaderReader.feed] at h
        | [_], h => simp [HeaderReader.feed] at h
        | _ :: _ :: _ :: _, h => simp [HeaderReader.feed] at h
      case h_8 =>
        split at h
        case h_1 =>
          match bs, h with
          | [b], h =>
            simp only [HeaderReader.feed, Except.ok.injEq, Prod.mk.injEq, and_true] at h
            subst h; rfl
          | [], h => simp [HeaderReader.feed] at h
          | _ :: _ :: _, h => simp [HeaderReader.feed] at h
        case h_5 =>
          match bs, h with
          | [b, d0, d1], h =>
            simp only [HeaderReader.feed, Except.ok.injEq, Prod.mk.injEq, and_true] at h
            subst h; rfl
          | [], h => simp [HeaderReader.feed] at h
          | [_], h => simp [HeaderReader.feed] at h
          | [_, _], h => simp [HeaderReader.feed] at h
          | _ :: _ :: _ :: _ :: _, h => simp [HeaderReader.feed] at h
        all_goals
          simp only [HeaderReader.feed, Except.ok.injEq, Prod.mk.injEq] at h
          obtain ⟨rfl, rfl⟩ := h
          rfl
      all_goals
        simp only [HeaderReader.feed, Except.ok.injEq, Prod.mk.injEq] at h
        obtain ⟨rfl, rfl⟩ := h
        rfl

/-- Four bytes always hold a whole header and operand (R69): bytes that do not decode are at most three. -/
theorem decode_error_length {bs : List Byte} {e : DecodeError} (h : decode bs = .error e) : bs.length ≤ 3 := by
  match bs, h with
  | [], _ | [_], _ | [_, _], _ | [_, _, _], _ => simp
  | c :: b :: d0 :: d1 :: rest, h =>
    exfalso
    simp only [decode, readHeader, readLongHeader, readDistance] at h
    split_ifs at h
    · simp [HeaderReader.feed] at h
    · split at h <;> try simp [HeaderReader.feed] at h
      split at h <;> simp [HeaderReader.feed] at h

@[simp] theorem length_srcBytes (src : Memory 8) (a n : Nat) : (srcBytes src a n).length = n := by
  simp [srcBytes]

/-! ### Run lengths -/

@[simp] theorem runLengthShort_toNat (len : BitVec 5) : (runLengthShort len).toNat = len.toNat + 1 := by
  have := len.isLt
  simp [runLengthShort, BitVec.toNat_add]
  omega

@[simp] theorem runLengthLong_toNat (len : BitVec 10) : (runLengthLong len).toNat = len.toNat + 1 := by
  have := len.isLt
  simp [runLengthLong, BitVec.toNat_add]
  omega

/-! ### What a token's meaning can do -/

/-- All that the meaning of a token can do: it always answers a next state. The number of header and operand bytes
bounds the run of a copy. -/
theorem exec_token_cases {i : Instr} (h : i.isToken = true) (s : State) :
    (exec i s = .next (stopByTerminator s)) ∨
    (∃ n : BitVec 11, 1 ≤ n.toNat ∧ n.toNat ≤ 1024 ∧ exec i s = .next (startLiteral n s)) ∨
    (∃ (n : BitVec 11) (p : Int), 1 ≤ n.toNat ∧ n.toNat ≤ 1024 ∧ 3 ≤ (tokenBytes i).length ∧
      exec i s = .next (startCopy n p s)) ∨
    (exec i s = .next (lzFault .badOp s)) := by
  cases i with
  | endStream => exact .inl rfl
  | lit len =>
    have := len.isLt
    exact .inr (.inl ⟨_, by simp, by simp; omega, rfl⟩)
  | litx len =>
    have := len.isLt
    exact .inr (.inl ⟨_, by simp, by simp; omega, rfl⟩)
  | bref len dist =>
    have := len.isLt
    exact .inr (.inr (.inl ⟨_, _, by simp, by simp; omega, by simp [tokenBytes, distanceBytes], rfl⟩))
  | brefx len dist =>
    have := len.isLt
    exact .inr (.inr (.inl ⟨_, _, by simp, by simp; omega, by simp [tokenBytes, longHeader, distanceBytes], rfl⟩))
  | reservedS001 _ | reservedS010 _ | reservedS011 _ | reservedS101 _ | reservedS110 _ => exact .inr (.inr (.inr rfl))
  | reservedX001 _ | reservedX010 _ | reservedX011 _ | reservedX101 _ | reservedX110 _ | reservedX111 _ =>
    exact .inr (.inr (.inr rfl))
  | lzStart | tileDec | colConv _ => simp [Instr.isToken] at h

theorem length_tokenBytes_le (i : Instr) : (tokenBytes i).length ≤ 4 := by
  cases i <;> simp [tokenBytes, longHeader, distanceBytes]

/-- What the start of a copy leaves alone, whether the window check rejects it or not. -/
theorem startCopy_frame (n : BitVec 11) (p : Int) (s : State) :
    (startCopy n p s).out = s.out ∧ (startCopy n p s).src = s.src ∧ (startCopy n p s).outCap = s.outCap ∧
    (startCopy n p s).tile = s.tile ∧ (startCopy n p s).cIn = s.cIn ∧ (startCopy n p s).host = s.host ∧
    (startCopy n p s).hostData = s.hostData ∧ (startCopy n p s).lz.olen = s.lz.olen ∧
    (startCopy n p s).lz.sp = s.lz.sp ∧ (startCopy n p s).lz.consumed = s.lz.consumed ∧
    (startCopy n p s).lz.srcLen = s.lz.srcLen ∧ (startCopy n p s).lz.start = s.lz.start ∧
    (startCopy n p s).lz.hintEn = s.lz.hintEn ∧ (startCopy n p s).lz.hint = s.lz.hint ∧
    (startCopy n p s).lz.base = s.lz.base ∧ (startCopy n p s).lz.t0 = s.lz.t0 := by
  rcases startCopy_cases n p s with ⟨_, e⟩ | ⟨_, e⟩ | ⟨_, _, e⟩ <;> rw [e] <;> simp

/-! ### The next states of the LZ unit's turn -/

/-- The next states of the LZ unit's turn, by what the turn does. -/
inductive TurnTo (s : State) : State → Prop where
  /-- The unit is not BUSY and waits. -/
  | wait (h : s.lz.busy = false) : TurnTo s s
  /-- The size hint ends the run. -/
  | hint (h : s.lz.busy = true) (hd : hintDue s) : TurnTo s (stopByHint s)
  /-- The slice ends inside a header. -/
  | headerCut (h : s.lz.phase = .fetch) (hd : ¬ hintDue s) (h3 : bytesLeft s ≤ 3) :
      TurnTo s (lzFault .srcExhausted (advanceBy (bytesLeft s) (latchT0 s)))
  /-- The terminator. -/
  | terminator (h : s.lz.phase = .fetch) (hd : ¬ hintDue s) (n : Nat) (h1 : 1 ≤ n) (h4 : n ≤ 4)
      (hn : s.lz.sp.toNat + n ≤ s.lz.srcLen.toNat) :
      TurnTo s (stopByTerminator (advanceBy n (latchT0 s)))
  /-- A literal run begins. -/
  | literal (h : s.lz.phase = .fetch) (hd : ¬ hintDue s) (n : Nat) (h1 : 1 ≤ n) (h4 : n ≤ 4)
      (hn : s.lz.sp.toNat + n ≤ s.lz.srcLen.toNat) (c : BitVec 11) (hc : 1 ≤ c.toNat) (hc' : c.toNat ≤ 1024) :
      TurnTo s (startLiteral c (advanceBy n (latchT0 s)))
  /-- A back-reference run begins, or the window check rejects it. -/
  | copy (h : s.lz.phase = .fetch) (hd : ¬ hintDue s) (n : Nat) (h3 : 3 ≤ n) (h4 : n ≤ 4)
      (hn : s.lz.sp.toNat + n ≤ s.lz.srcLen.toNat) (c : BitVec 11) (hc : 1 ≤ c.toNat) (hc' : c.toNat ≤ 1024)
      (p : Int) : TurnTo s (startCopy c p (advanceBy n (latchT0 s)))
  /-- A reserved control byte. -/
  | reserved (h : s.lz.phase = .fetch) (hd : ¬ hintDue s) (n : Nat) (h1 : 1 ≤ n) (h4 : n ≤ 4)
      (hn : s.lz.sp.toNat + n ≤ s.lz.srcLen.toNat) :
      TurnTo s (lzFault .badOp (advanceBy n (latchT0 s)))
  /-- A literal payload byte is missing. -/
  | payloadCut (h : s.lz.phase = .runLit) (hd : ¬ hintDue s) (hx : s.lz.srcLen.toNat ≤ s.lz.sp.toNat) :
      TurnTo s (lzFault .srcExhausted s)
  /-- OUT is full in a run. -/
  | full (h : s.lz.phase = .runLit ∨ s.lz.phase = .runCopy) (hd : ¬ hintDue s)
      (hx : s.outCap.toNat ≤ s.lz.olen.toNat) : TurnTo s (lzFault .outFull s)
  /-- A literal byte moves. -/
  | literalByte (h : s.lz.phase = .runLit) (hd : ¬ hintDue s) (hs : s.lz.sp.toNat < s.lz.srcLen.toNat)
      (ho : s.lz.olen.toNat < s.outCap.toNat) :
      TurnTo s (countByte (appendByte (nextSourceByte s) (advanceSource s)))
  /-- A byte is copied. -/
  | copyByte (h : s.lz.phase = .runCopy) (hd : ¬ hintDue s) (ho : s.lz.olen.toNat < s.outCap.toNat) (v : Byte)
      (hv : Memory.valueAt s.lz.cpy.toNat s.out = some v) :
      TurnTo s (countByte (advanceCopy (appendByte v s)))

/-- The LZ unit's turn answers one of those next states, or faults at a copy from an index with no value. -/
theorem lzTurnL0_answers (s : State) :
    (∃ t, lzTurnL0 exec s = .next t ∧ TurnTo s t) ∨
    (s.lz.phase = .runCopy ∧ Memory.valueAt s.lz.cpy.toNat s.out = none ∧
      lzTurnL0 exec s = .fault (.outByteWithoutValue s.lz.cpy.toNat)) := by
  rcases lzTurnL0_cases exec s with ⟨hb, h⟩ | ⟨hb, hd, h⟩ | ⟨hp, hd, h⟩ | ⟨hp, hd, h⟩ | ⟨hp, hd, h⟩
  · exact .inl ⟨_, h, .wait hb⟩
  · exact .inl ⟨_, h, .hint hb hd⟩
  · left
    rcases fetchStep_cases exec s with ⟨n, i, hdec, h1, hn, hf⟩ | ⟨⟨e, he⟩, hf⟩
    · have hlen := decode_length hdec
      rw [length_srcBytes] at hlen
      have h4 := length_tokenBytes_le i
      rw [h, hf]
      rcases exec_token_cases (decode_isToken hdec) (advanceBy n (latchT0 s)) with
        he | ⟨c, hc, hc', he⟩ | ⟨c, p, hc, hc', h3, he⟩ | he <;> rw [he]
      · exact ⟨_, rfl, .terminator hp hd n h1 (by omega) hn⟩
      · exact ⟨_, rfl, .literal hp hd n h1 (by omega) hn c hc hc'⟩
      · exact ⟨_, rfl, .copy hp hd n (by omega) (by omega) hn c hc hc' p⟩
      · exact ⟨_, rfl, .reserved hp hd n h1 (by omega) hn⟩
    · have h3 := decode_error_length he
      rw [length_srcBytes] at h3
      exact ⟨_, by rw [h, hf], .headerCut hp hd h3⟩
  · left
    rcases runLitStep_cases s with ⟨hx, he⟩ | ⟨_, hx, he⟩ | ⟨hs, ho, he⟩ <;> rw [h, he]
    · exact ⟨_, rfl, .payloadCut hp hd hx⟩
    · exact ⟨_, rfl, .full (.inl hp) hd hx⟩
    · exact ⟨_, rfl, .literalByte hp hd hs ho⟩
  · rcases runCopyStep_cases s with ⟨hx, he⟩ | ⟨ho, v, hv, he⟩ | ⟨_, hv, he⟩ <;> rw [h, he]
    · exact .inl ⟨_, rfl, .full (.inr hp) hd hx⟩
    · exact .inl ⟨_, rfl, .copyByte hp hd ho v hv⟩
    · exact .inr ⟨hp, hv, rfl⟩

/-- The inversion of the LZ unit's turn. -/
theorem turnTo_of_next {s t : State} (h : lzTurnL0 exec s = .next t) : TurnTo s t := by
  rcases lzTurnL0_answers s with ⟨u, hu, ht⟩ | ⟨_, _, hf⟩
  · rw [h] at hu
    injection hu with hu
    exact hu ▸ ht
  · rw [h] at hf
    cases hf

end Sys2Proof.Laws
end

