-- ==== Sys2Proof/Laws/PerInstr.lean ====
section
/-! SUPPORT. A family of facts about instructions as syntax, one lemma per constructor: how many bytes the control
byte announces (30_encoding.md R69). -/

namespace Sys2Proof.Laws

/-- A token's control byte tells how many header and operand bytes follow it; a host command has no stream
bytes. -/
def HeaderLength.Statement (i : Instr) : Prop :=
  i.wellFormed = true →
    if i.isToken = true then ∃ c bs, tokenBytes i = c :: bs ∧ bytesAfterControl c = bs.length
    else tokenBytes i = []

theorem bytesAfterControl_short {op : BitVec 3} (h4 : op ≠ 4) (h7 : op ≠ 7) (len : BitVec 5) :
    bytesAfterControl (shortControl op len) = 0 := by
  revert op len; decide

theorem bytesAfterControl_long {op : BitVec 3} (h0 : op ≠ 0) (h4 : op ≠ 4) (lenHi : BitVec 2) :
    bytesAfterControl (longControl op lenHi) = 0 := by
  revert op lenHi; decide

theorem bytesAfterControl_bref (len : BitVec 5) : bytesAfterControl (shortControl 4 len) = 2 := by
  revert len; decide

theorem bytesAfterControl_litx (lenHi : BitVec 2) : bytesAfterControl (longControl 0 lenHi) = 1 := by
  revert lenHi; decide

theorem bytesAfterControl_brefx (lenHi : BitVec 2) : bytesAfterControl (longControl 4 lenHi) = 3 := by
  revert lenHi; decide

theorem HeaderLength.endStream : HeaderLength.Statement .endStream := fun _ => ⟨_, _, rfl, rfl⟩

theorem HeaderLength.lit (len : BitVec 5) : HeaderLength.Statement (.lit len) := fun _ =>
  ⟨_, _, rfl, bytesAfterControl_short (by decide) (by decide) _⟩

theorem HeaderLength.bref (len : BitVec 5) (dist : BitVec 16) : HeaderLength.Statement (.bref len dist) := fun _ =>
  ⟨_, _, rfl, bytesAfterControl_bref _⟩

theorem HeaderLength.litx (len : BitVec 10) : HeaderLength.Statement (.litx len) := fun _ =>
  ⟨_, _, rfl, bytesAfterControl_litx _⟩

theorem HeaderLength.brefx (len : BitVec 10) (dist : BitVec 16) : HeaderLength.Statement (.brefx len dist) :=
  fun _ => ⟨_, _, rfl, bytesAfterControl_brefx _⟩

theorem HeaderLength.reservedS001 (len : BitVec 5) : HeaderLength.Statement (.reservedS001 len) := fun _ =>
  ⟨_, _, rfl, bytesAfterControl_short (by decide) (by decide) _⟩

theorem HeaderLength.reservedS010 (len : BitVec 5) : HeaderLength.Statement (.reservedS010 len) := fun _ =>
  ⟨_, _, rfl, bytesAfterControl_short (by decide) (by decide) _⟩

theorem HeaderLength.reservedS011 (len : BitVec 5) : HeaderLength.Statement (.reservedS011 len) := fun _ =>
  ⟨_, _, rfl, bytesAfterControl_short (by decide) (by decide) _⟩

theorem HeaderLength.reservedS101 (len : BitVec 5) : HeaderLength.Statement (.reservedS101 len) := fun _ =>
  ⟨_, _, rfl, bytesAfterControl_short (by decide) (by decide) _⟩

theorem HeaderLength.reservedS110 (len : BitVec 5) : HeaderLength.Statement (.reservedS110 len) := fun _ =>
  ⟨_, _, rfl, bytesAfterControl_short (by decide) (by decide) _⟩

theorem HeaderLength.reservedX001 (lenHi : BitVec 2) : HeaderLength.Statement (.reservedX001 lenHi) := fun _ =>
  ⟨_, _, rfl, bytesAfterControl_long (by decide) (by decide) _⟩

theorem HeaderLength.reservedX010 (lenHi : BitVec 2) : HeaderLength.Statement (.reservedX010 lenHi) := fun _ =>
  ⟨_, _, rfl, bytesAfterControl_long (by decide) (by decide) _⟩

theorem HeaderLength.reservedX011 (lenHi : BitVec 2) : HeaderLength.Statement (.reservedX011 lenHi) := fun _ =>
  ⟨_, _, rfl, bytesAfterControl_long (by decide) (by decide) _⟩

theorem HeaderLength.reservedX101 (lenHi : BitVec 2) : HeaderLength.Statement (.reservedX101 lenHi) := fun _ =>
  ⟨_, _, rfl, bytesAfterControl_long (by decide) (by decide) _⟩

theorem HeaderLength.reservedX110 (lenHi : BitVec 2) : HeaderLength.Statement (.reservedX110 lenHi) := fun _ =>
  ⟨_, _, rfl, bytesAfterControl_long (by decide) (by decide) _⟩

theorem HeaderLength.reservedX111 (lenHi : BitVec 2) : HeaderLength.Statement (.reservedX111 lenHi) := fun _ =>
  ⟨_, _, rfl, bytesAfterControl_long (by decide) (by decide) _⟩

theorem HeaderLength.lzStart : HeaderLength.Statement .lzStart := fun _ => rfl

theorem HeaderLength.tileDec : HeaderLength.Statement .tileDec := fun _ => rfl

theorem HeaderLength.colConv (word : ColourWord) : HeaderLength.Statement (.colConv word) := fun _ => rfl

end Sys2Proof.Laws
end

