-- ==== Sys2Proof/Laws/Run.lean ====
section
/-! SUPPORT. Runs of several steps, and what one step of the LZ unit's turn leaves to the next. -/

namespace Sys2Proof.Laws

open Sys2Proof.Machine

@[simp] theorem runs_zero (s : State) : runs 0 s = .next s := rfl

/-- One more step at the front of a run. -/
theorem runs_succ (k : Nat) (s : State) :
    runs (k + 1) s = match step s with
      | .next t => runs k t
      | .fault r => .fault r
      | .refused r => .refused r := by
  have h : core.step s = step s := rfl
  cases hs : step s <;> simp [runs, Host.Core.run, h, hs] <;> rfl

theorem runs_succ_next {k : Nat} {s t : State} (h : step s = .next t) : runs (k + 1) s = runs k t := by
  rw [runs_succ, h]

/-- A run goes on from where its first part ends. -/
theorem runs_add {j k : Nat} {s t : State} (h : runs j s = .next t) : runs (j + k) s = runs k t := by
  induction j generalizing s with
  | zero => cases h; simp
  | succ j ih =>
    rw [runs_succ] at h
    rw [Nat.succ_add, runs_succ]
    cases hs : step s with
    | next u => rw [hs] at h; exact ih h
    | fault r => rw [hs] at h; cases h
    | refused r => rw [hs] at h; cases h

/-- The LZ unit's turn leaves the host's list alone. -/
theorem turnTo_host {s t : State} (h : TurnTo s t) : t.host = s.host := by
  cases h with
  | copy => exact (startCopy_frame _ _ _).2.2.2.2.2.1
  | _ => rfl

end Sys2Proof.Laws
end

