-- ==== Sys2Proof/Laws/Tile.lean ====
section
/-! SUPPORT. The tile image as a memory, the source bytes a host places, and the canonical form of every memory at
reset. -/

namespace Sys2Proof.Laws

open Sys2Proof.Machine

variable {w : Nat}

/-- A memory listed from a table of optional entries, index by index, is in its canonical form. -/
theorem wf_table (f : Nat → Option (BitVec w)) (n : Nat) :
    Memory.wf n ((List.range n).filterMap fun k => (f k).map fun v => (k, v)) := by
  constructor
  · rw [List.pairwise_filterMap]
    refine List.pairwise_lt_range.imp ?_
    intro a b hab p hp q hq
    simp only [Option.map_eq_some_iff] at hp hq
    obtain ⟨_, _, rfl⟩ := hp
    obtain ⟨_, _, rfl⟩ := hq
    exact hab
  · intro p hp
    simp only [List.mem_filterMap, List.mem_range, Option.map_eq_some_iff] at hp
    obtain ⟨a, ha, _, _, rfl⟩ := hp
    exact ha

theorem valueAt_append (a : Nat) (m m' : Memory w) :
    Memory.valueAt a (m ++ m') = (Memory.valueAt a m).or (Memory.valueAt a m') := by
  induction m with
  | nil => simp [Memory.valueAt]
  | cons p m ih =>
    obtain ⟨b, u⟩ := p
    by_cases h : b = a <;> simp [Memory.valueAt, h, ih]

/-- Its entries are the table's. -/
theorem valueAt_table (f : Nat → Option (BitVec w)) (n a : Nat) :
    Memory.valueAt a ((List.range n).filterMap fun k => (f k).map fun v => (k, v))
      = if a < n then f a else none := by
  induction n with
  | zero => simp
  | succ n ih =>
    rw [List.range_succ, List.filterMap_append, valueAt_append, ih]
    by_cases ha : a = n
    · subst ha
      cases h : f a <;> simp [h, Memory.valueAt]
    · have hlast : Memory.valueAt a ([n].filterMap fun k => (f k).map fun v => (k, v)) = none := by
        cases h : f n <;> simp [h, Memory.valueAt, Ne.symm ha]
      rw [hlast, Option.or_none]
      by_cases hlt : a < n
      · simp [hlt, Nat.lt_succ_of_lt hlt]
      · simp [hlt, show ¬ a < n + 1 by omega]

/-- T_OUT after TILE.DEC is in its canonical form. -/
theorem wf_tileImage (tIn : Memory 8) : Memory.wf Config.tileEntries (tileImage tIn) := wf_table _ _

/-- Entry 8 * r + x of T_OUT is the pixel of row r and column x (R91, R94). -/
theorem valueAt_tileImage (tIn : Memory 8) {r x : Nat} (hr : r < 8) (hx : x < 8) :
    Memory.valueAt (8 * r + x) (tileImage tIn) = pixel tIn r x := by
  have h : 8 * r + x < Config.tileEntries := by unfold Config.tileEntries; omega
  have hd : (8 * r + x) / 8 = r := by omega
  have hm : (8 * r + x) % 8 = x := by omega
  rw [tileImage, valueAt_table (fun k => pixel tIn (k / 8) (k % 8)), if_pos h, hd, hm]

/-- Bytes put into SRC keep its canonical form. -/
theorem wf_putSrcBytes {size : Nat} (bs : List Byte) :
    ∀ {a : Nat} {m : Memory 8}, Memory.wf size m → a + bs.length ≤ size → Memory.wf size (putSrcBytes a bs m) := by
  induction bs with
  | nil => exact fun h _ => h
  | cons b bs ih =>
    intro a m h ha
    simp only [List.length_cons] at ha
    exact ih (wf_putSrcByte h (by omega)) (by omega)

/-- Every memory of the machine after reset is in its canonical form, whatever its capacity. -/
theorem wf_resetWith (outCap : Word) :
    let s := State.resetWith outCap
    Memory.wf (2 ^ 32) s.src ∧ Memory.wf s.outCap.toNat s.out ∧ Memory.wf Config.tileBytes s.tile.tIn ∧
    Memory.wf Config.tileEntries s.tile.tOut := by
  simp [Memory.wf, State.resetWith, TileUnit.atReset]

end Sys2Proof.Laws
end

