-- ==== Sys2Proof/Tests/Slice0.lean ====
section
/-! SUPPORT. The model's own tests: the ill-formed term, the spec's words, single steps of the spec's vectors
(95_test_vectors.md, V<n> and P<n>), and a witness for the hypotheses of each statement. -/

namespace Sys2Proof.Tests

open Sys2Proof.Machine

/-! ### Well-formedness -/

theorem test_wellFormed_refuses_terminator_byte : (Instr.reservedX111 3).wellFormed = false := by decide

theorem test_wellFormed_accepts_its_neighbours :
    (Instr.reservedX111 2).wellFormed = true ∧ (Instr.reservedX110 3).wellFormed = true ∧
    Instr.endStream.wellFormed = true := by decide

/-! ### Words written out bit by bit (R62 to R68, R73) -/

/-- R64: format T. -/
theorem test_word_end : decode [0b11111111] = .ok (.endStream, []) := rfl

/-- R62: op 000, len 10011. -/
theorem test_word_lit : decode [0b00010011] = .ok (.lit 0b10011, []) := rfl

/-- R62, R68: op 100, len 00110, d0 = 0x34, d1 = 0x12. -/
theorem test_word_bref : decode [0b10000110, 0b00110100, 0b00010010] = .ok (.bref 0b00110 0x1234, []) := rfl

/-- R63, R67: escape 111, op 000, lenhi 10, low byte 0x01. -/
theorem test_word_litx : decode [0b11100010, 0b00000001] = .ok (.litx 0x201, []) := rfl

/-- R63, R67, R68: escape 111, op 100, lenhi 01, low byte 0x80, d0 = 0x00, d1 = 0xFF. -/
theorem test_word_brefx :
    decode [0b11110001, 0b10000000, 0b00000000, 0b11111111] = .ok (.brefx 0x180 0xFF00, []) := rfl

theorem test_word_reservedS001 : decode [0b00101010] = .ok (.reservedS001 0b01010, []) := rfl
theorem test_word_reservedS010 : decode [0b01001010] = .ok (.reservedS010 0b01010, []) := rfl
theorem test_word_reservedS011 : decode [0b01101010] = .ok (.reservedS011 0b01010, []) := rfl
theorem test_word_reservedS101 : decode [0b10101010] = .ok (.reservedS101 0b01010, []) := rfl
theorem test_word_reservedS110 : decode [0b11001010] = .ok (.reservedS110 0b01010, []) := rfl
theorem test_word_reservedX001 : decode [0b11100110] = .ok (.reservedX001 0b10, []) := rfl
theorem test_word_reservedX010 : decode [0b11101010] = .ok (.reservedX010 0b10, []) := rfl
theorem test_word_reservedX011 : decode [0b11101110] = .ok (.reservedX011 0b10, []) := rfl
theorem test_word_reservedX101 : decode [0b11110110] = .ok (.reservedX101 0b10, []) := rfl
theorem test_word_reservedX110 : decode [0b11111010] = .ok (.reservedX110 0b10, []) := rfl
theorem test_word_reservedX111 : decode [0b11111110] = .ok (.reservedX111 0b10, []) := rfl

/-- R73: 1 to LZ_CMD, register 0. -/
theorem test_word_lzStart : decodeHostWrite 0 1 = some .lzStart := rfl

/-- R73: 1 to T_CMD, register 16. -/
theorem test_word_tileDec : decodeHostWrite 16 1 = some .tileDec := rfl

/-- R73: any write of C_IN, register 24. -/
theorem test_word_colConv : decodeHostWrite 24 0x1234 = some (.colConv 0x1234) := rfl

/-- The ends of every short range of R70, bytes left over handed back. -/
theorem test_control_byte_ends_short :
    decode [0x00, 9] = .ok (.lit 0, [9]) ∧ decode [0x1F, 9] = .ok (.lit 31, [9]) ∧
    decode [0x20, 9] = .ok (.reservedS001 0, [9]) ∧ decode [0x3F, 9] = .ok (.reservedS001 31, [9]) ∧
    decode [0x40, 9] = .ok (.reservedS010 0, [9]) ∧ decode [0x5F, 9] = .ok (.reservedS010 31, [9]) ∧
    decode [0x60, 9] = .ok (.reservedS011 0, [9]) ∧ decode [0x7F, 9] = .ok (.reservedS011 31, [9]) ∧
    decode [0x80, 1, 2, 9] = .ok (.bref 0 0x0201, [9]) ∧ decode [0x9F, 1, 2, 9] = .ok (.bref 31 0x0201, [9]) ∧
    decode [0xA0, 9] = .ok (.reservedS101 0, [9]) ∧ decode [0xBF, 9] = .ok (.reservedS101 31, [9]) ∧
    decode [0xC0, 9] = .ok (.reservedS110 0, [9]) ∧ decode [0xDF, 9] = .ok (.reservedS110 31, [9]) :=
  ⟨rfl, rfl, rfl, rfl, rfl, rfl, rfl, rfl, rfl, rfl, rfl, rfl, rfl, rfl⟩

/-- The ends of every long range of R70. -/
theorem test_control_byte_ends_long :
    decode [0xE0, 0, 9] = .ok (.litx 0, [9]) ∧ decode [0xE3, 0xFF, 9] = .ok (.litx 1023, [9]) ∧
    decode [0xE4, 9] = .ok (.reservedX001 0, [9]) ∧ decode [0xE7, 9] = .ok (.reservedX001 3, [9]) ∧
    decode [0xE8, 9] = .ok (.reservedX010 0, [9]) ∧ decode [0xEB, 9] = .ok (.reservedX010 3, [9]) ∧
    decode [0xEC, 9] = .ok (.reservedX011 0, [9]) ∧ decode [0xEF, 9] = .ok (.reservedX011 3, [9]) ∧
    decode [0xF0, 0, 1, 2, 9] = .ok (.brefx 0 0x0201, [9]) ∧
    decode [0xF3, 0xFF, 1, 2, 9] = .ok (.brefx 1023 0x0201, [9]) ∧
    decode [0xF4, 9] = .ok (.reservedX101 0, [9]) ∧ decode [0xF7, 9] = .ok (.reservedX101 3, [9]) ∧
    decode [0xF8, 9] = .ok (.reservedX110 0, [9]) ∧ decode [0xFB, 9] = .ok (.reservedX110 3, [9]) ∧
    decode [0xFC, 9] = .ok (.reservedX111 0, [9]) ∧ decode [0xFE, 9] = .ok (.reservedX111 2, [9]) ∧
    decode [0xFF, 9] = .ok (.endStream, [9]) :=
  ⟨rfl, rfl, rfl, rfl, rfl, rfl, rfl, rfl, rfl, rfl, rfl, rfl, rfl, rfl, rfl, rfl, rfl⟩

/-- Bytes that are no whole header are refused by name. -/
theorem test_decode_refuses_missing_bytes :
    decode [] = .error .noControlByte ∧ decode [0xE0] = .error .headerCutShort ∧
    decode [0x80, 1] = .error .headerCutShort ∧ decode [0xF0, 0, 1] = .error .headerCutShort :=
  ⟨rfl, rfl, rfl, rfl⟩

/-- P1's three tokens in assembler form (R74). -/
theorem test_encode_P1 :
    tokenBytes (.lit 1) = [0x01] ∧ tokenBytes (.bref 5 2) = [0x85, 0x02, 0x00] ∧
    tokenBytes .endStream = [0xFF] := by decide

/-- V51's and V52's headers (R67, R68). -/
theorem test_encode_long :
    tokenBytes (.brefx 1023 1) = [0xF3, 0xFF, 0x01, 0x00] ∧ tokenBytes (.litx 1023) = [0xE3, 0xFF] := by decide

/-! ### Table words -/

theorem test_table_words_of_tokens :
    decodeTableWord 8 0xFF = some .endStream ∧ decodeTableWord 8 0x00 = some (.lit 0) ∧
    decodeTableWord 8 0x80 = some (.bref 0 0) ∧ decodeTableWord 8 0xE0 = some (.litx 0) ∧
    decodeTableWord 8 0xF0 = some (.brefx 0 0) ∧ decodeTableWord 8 0x20 = some (.reservedS001 0) ∧
    decodeTableWord 8 0x40 = some (.reservedS010 0) ∧ decodeTableWord 8 0x60 = some (.reservedS011 0) ∧
    decodeTableWord 8 0xA0 = some (.reservedS101 0) ∧ decodeTableWord 8 0xC0 = some (.reservedS110 0) ∧
    decodeTableWord 8 0xE4 = some (.reservedX001 0) ∧ decodeTableWord 8 0xE8 = some (.reservedX010 0) ∧
    decodeTableWord 8 0xEC = some (.reservedX011 0) ∧ decodeTableWord 8 0xF4 = some (.reservedX101 0) ∧
    decodeTableWord 8 0xF8 = some (.reservedX110 0) ∧ decodeTableWord 8 0xFC = some (.reservedX111 0) := by decide

/-- The 32-bit word is the same for LZ.START and TILE.DEC (log 14): register 0 is read; 40 bits name the
register. -/
theorem test_table_words_of_commands :
    decodeTableWord 32 1 = some .lzStart ∧ decodeTableWord 40 (16 * 2 ^ 32 + 1) = some .tileDec ∧
    decodeTableWord 16 0x7FE0 = some (.colConv 0x7FE0) := by decide

/-! ### Small states -/

/-- A unit in FETCH at offset 0 with these bytes as its whole slice. -/
def fetching (bs : List Byte) : State :=
  { State.reset with
    src := putSrcBytes 0 bs []
    lz := { LzUnit.atReset with srcLen := BitVec.ofNat 32 bs.length, phase := .fetch } }

/-- The unit after a step that answers a next state. -/
def lzAfter (o : Answer) : Option LzUnit :=
  match o with
  | .next s => some s.lz
  | .fault _ | .refused _ => none

/-- A byte of OUT after it. -/
def outAfter (a : Nat) (o : Answer) : Option Byte :=
  match o with
  | .next s => Memory.valueAt a s.out
  | .fault _ | .refused _ => none

/-- What the host got. -/
def dataAfter (o : Answer) : Option Word :=
  match o with
  | .next s => some s.hostData
  | .fault _ | .refused _ => none

/-- An entry of T_OUT after it. -/
def pixelAfter (a : Nat) (o : Answer) : Option Index4 :=
  match o with
  | .next s => Memory.valueAt a s.tile.tOut
  | .fault _ | .refused _ => none

/-- P1 before its step 5: BREF 6, 2 has begun behind AB CD. -/
def copying : State :=
  { fetching [0x01, 0xAB, 0xCD, 0x85, 0x02, 0x00, 0xFF] with
    out := [(0, 0xAB), (1, 0xCD)]
    lz := { LzUnit.atReset with
      srcLen := 7, phase := .runCopy, sp := 6, consumed := 6, olen := 2, op := .bref, cnt := 6, cpy := 0, t0 := 3 } }

/-- P1 before its step 2: LIT AB CD has begun. -/
def moving : State :=
  { fetching [0x01, 0xAB, 0xCD, 0x85, 0x02, 0x00, 0xFF] with
    lz := { LzUnit.atReset with srcLen := 7, phase := .runLit, sp := 1, consumed := 1, cnt := 2 } }

/-- P1 before its step 4: LIT AB CD is done. -/
def betweenTokens : State :=
  { fetching [0x01, 0xAB, 0xCD, 0x85, 0x02, 0x00, 0xFF] with
    out := [(0, 0xAB), (1, 0xCD)]
    lz := { LzUnit.atReset with srcLen := 7, phase := .fetch, sp := 3, consumed := 3, olen := 2 } }

/-- V70 after its run. -/
def faulted : State :=
  { State.reset with
    lz := { LzUnit.atReset with phase := .fault, cause := .badOp, faddr := 4, sp := 5, consumed := 5, t0 := 4 } }

/-- T_IN as V29 gives it: T_IN[k] = k. -/
def counting : List Host.Cell :=
  [(0, 0), (1, 1), (2, 2), (3, 3), (4, 4), (5, 5), (6, 6), (7, 7), (8, 8), (9, 9), (10, 10), (11, 11), (12, 12),
    (13, 13), (14, 14), (15, 15)] ++
  [(16, 16), (17, 17), (18, 18), (19, 19), (20, 20), (21, 21), (22, 22), (23, 23), (24, 24), (25, 25), (26, 26),
    (27, 27), (28, 28), (29, 29), (30, 30), (31, 31)]

/-- A TILE unit ready for V29. -/
def tileReady : State := { State.reset with tile := { TileUnit.atReset with len := 32, tIn := counting } }

/-! ### Single steps of the spec's vectors -/

/-- P1 step 1: LIT, c = 01. -/
theorem test_step_lit : lzAfter (step (fetching [0x01, 0xAB, 0xCD, 0x85, 0x02, 0x00, 0xFF]))
    = some { LzUnit.atReset with srcLen := 7, phase := .runLit, sp := 1, consumed := 1, cnt := 2 } := by decide

/-- P1 step 2. -/
theorem test_step_runLit :
    lzAfter (step moving)
      = some { LzUnit.atReset with srcLen := 7, phase := .runLit, sp := 2, consumed := 2, olen := 1, cnt := 1 } ∧
    outAfter 0 (step moving) = some 0xAB := by decide

/-- P1 step 4: BREF, c = 85, d = 2. -/
theorem test_step_bref : lzAfter (step betweenTokens) = some copying.lz := by decide

/-- P1 step 5. -/
theorem test_step_runCopy :
    lzAfter (step copying) = some { copying.lz with olen := 3, cnt := 5, cpy := 1 } ∧
    outAfter 2 (step copying) = some 0xAB := by decide

/-- V42: END. -/
theorem test_step_end : lzAfter (step (fetching [0xFF]))
    = some { LzUnit.atReset with srcLen := 1, phase := .done, stop := .terminator, sp := 1, consumed := 1 } := by
  decide

/-- V60's header: LITX of 320 bytes. -/
theorem test_step_litx : lzAfter (step (fetching [0xE1, 0x3F]))
    = some { LzUnit.atReset with srcLen := 2, phase := .runLit, sp := 2, consumed := 2, cnt := 320 } := by decide

/-- V51's second token: BREFX 1024, 1 behind one byte. -/
theorem test_step_brefx :
    (lzAfter (step { fetching [0xF3, 0xFF, 0x01, 0x00] with
      lz := { (fetching [0xF3, 0xFF, 0x01, 0x00]).lz with olen := 1 } })).map
        (fun u => (u.phase, u.sp, u.cnt, u.cpy, u.op)) = some (.runCopy, 4, 1024, 0, .bref) := by decide

/-- V75: BREF as the first token. -/
theorem test_step_bref_before_start : lzAfter (step (fetching [0x80, 0x01, 0x00, 0xFF]))
    = some { LzUnit.atReset with
        srcLen := 4, phase := .fault, cause := .windowBeforeStart, sp := 3, consumed := 3 } := by decide

/-- V78 at its second token: d = 0. -/
theorem test_step_bref_past_end :
    (lzAfter (step { fetching [0x00, 0xAA, 0x80, 0x00, 0x00, 0xFF] with
      lz := { LzUnit.atReset with srcLen := 6, phase := .fetch, sp := 2, consumed := 2, olen := 1 } })).map
        (fun u => (u.phase, u.cause, u.faddr, u.sp, u.consumed)) = some (.fault, .windowPastEnd, 2, 5, 5) := by
  decide

/-- V71, V72 and V74: the reserved bytes, one of each code, halt after one byte. -/
theorem test_step_reserved :
    [0x20, 0x40, 0x60, 0xA0, 0xC0, 0xE4, 0xE8, 0xEC, 0xF4, 0xF8, 0xFC].map
        (fun c : Byte => (lzAfter (step (fetching [c, 0x00, 0x00]))).map fun u => (u.phase, u.cause, u.faddr, u.sp))
      = List.replicate 11 (some (.fault, .badOp, 0, 1)) := by decide

/-- V84: d1 missing is met before the window check. -/
theorem test_step_header_cut : lzAfter (step (fetching [0xF0, 0x00, 0x01]))
    = some { LzUnit.atReset with
        srcLen := 3, phase := .fault, cause := .srcExhausted, sp := 3, consumed := 3 } := by decide

/-- V86: a start beyond the slice. -/
theorem test_step_start_beyond : lzAfter (step { fetching [0xFF] with
      lz := { LzUnit.atReset with srcLen := 1, start := 5, base := 5, sp := 5, phase := .fetch } })
    = some { LzUnit.atReset with
        srcLen := 1, start := 5, base := 5, sp := 5, t0 := 5, phase := .fault, cause := .srcExhausted, faddr := 5 } := by
  decide

/-- V92: at the third byte both bounds fail; the source is tested first. -/
theorem test_step_both_bounds :
    (lzAfter (step { fetching [0x02, 0x41, 0x42] with
      outCap := 2
      lz := { LzUnit.atReset with srcLen := 3, phase := .runLit, sp := 3, consumed := 3, olen := 2, cnt := 1 } })).map
        (fun u => (u.phase, u.cause)) = some (.fault, .srcExhausted) := by decide

/-- V100: hint 0 reads nothing. -/
theorem test_step_hint_zero :
    (lzAfter (step { fetching [0x02, 0x41, 0x42, 0x43, 0xFF] with
      lz := { LzUnit.atReset with srcLen := 5, phase := .fetch, hintEn := true } })).map
        (fun u => (u.phase, u.stop, u.sp, u.consumed)) = some (.done, .hint, 0, 0) := by decide

/-- V53's LZ.START (R102). -/
theorem test_step_lzStart :
    lzAfter (step { State.reset with
      host := [.write 0 1]
      lz := { faulted.lz with srcLen := 7, start := 3 } })
      = some { LzUnit.atReset with srcLen := 7, start := 3, base := 3, sp := 3, t0 := 3, phase := .fetch } := by
  decide

/-- P5: LZ.START while BUSY is ignored. -/
theorem test_step_lzStart_busy : lzAfter (step { copying with host := [.write 0 1] }) = some copying.lz := by
  decide

/-- V29: the last pixels of row 1 and of row 7. -/
theorem test_step_tileDec :
    [11, 14, 15, 59, 63].map (fun a => pixelAfter a (exec .tileDec tileReady))
      = [some 0xC, some 0xF, some 0xA, some 0xC, some 0xA] := by decide

/-- V31, V32: T_LEN = 31, 33, 0 and 64. -/
theorem test_step_tileDec_wrong_size :
    [31, 33, 0, 64].map (fun n => match exec .tileDec { tileReady with tile := { tileReady.tile with len := n } } with
        | .next s => some (readReg 18 s, readReg 19 s, s.tile.tOut)
        | _ => none)
      = List.replicate 4 (some (2, 8, [])) := by decide

/-- V4 and V9. -/
theorem test_colour_channels :
    (colR 0xFFFF, colG 0xFFFF, colB 0xFFFF) = (248, 248, 248) ∧
    (colR 0x1234, colG 0x1234, colB 0x1234) = (160, 136, 32) := by decide

/-- V12 by the host's write and three reads; C_IN keeps bit 15. -/
theorem test_step_colConv :
    (match exec (.colConv 0xFFE0) State.reset with
      | .next s => some (readReg 24 s, readReg 25 s, readReg 26 s, readReg 27 s)
      | _ => none) = some (0xFFE0, 0, 248, 248) := by decide

/-- P1's and P4's status words: 0x0C and 0x14. -/
theorem test_status_words :
    readReg 5 { State.reset with lz := { LzUnit.atReset with phase := .done, stop := .terminator } } = 0x0C ∧
    readReg 5 { State.reset with lz := { LzUnit.atReset with phase := .done, stop := .hint } } = 0x14 := by decide

/-- R83's example: the bytes E0 7F are the word 0x7FE0. -/
theorem test_colWord : colWord 0xE0 0x7F = 0x7FE0 := by decide

/-- R75: FILL of four bytes. -/
theorem test_fill : fillStream 0x5A 4 = [0x00, 0x5A, 0x82, 0x01, 0x00] := by decide

/-- A table word placed after reset is what the next step runs (log 15). -/
theorem test_withFetchWord_tokens :
    [0xFF, 0x00, 0x80, 0xE0, 0xF0, 0x20].map
        (fun w => (lzAfter (step (State.reset.withFetchWord 8 w))).map fun u => (u.phase, u.cause, u.sp))
      = [some (.done, .none, 1), some (.runLit, .none, 1), some (.fault, .windowPastEnd, 3),
        some (.runLit, .none, 2), some (.fault, .windowPastEnd, 4), some (.fault, .badOp, 1)] := by decide

theorem test_withFetchWord_commands :
    (lzAfter (step (State.reset.withFetchWord 32 1))).map (·.phase) = some .fetch ∧
    step (State.reset.withFetchWord 40 (16 * 2 ^ 32 + 1))
      = .next { State.reset with tile := { TileUnit.atReset with status := .fault, cause := .invalidTileSize } } ∧
    step (State.reset.withFetchWord 16 0x7FE0) = .next { State.reset with cIn := 0x7FE0 } :=
  ⟨by decide, rfl, rfl⟩

/-! ### Witnesses: states and operands that meet the hypotheses of each statement -/

/-- It is the unit's turn in a state with nothing pending. -/
theorem hasTurn_nil {s : State} (h : s.host = []) : lzHasTurn [] s := .inl ⟨h, rfl⟩

/-- No hint is due while it is not enabled. -/
theorem not_hintDue {s : State} (h : s.lz.hintEn = false) : ¬ hintDue s := by simp [hintDue, h]

/-- A sound busy state: P1 before its step 5. -/
theorem copying_sound : MachineSound copying where
  cap := by decide
  lz := by constructor <;> decide
  cnt_le := by decide
  op_lit := by decide
  op_bref := by decide
  tile := by constructor <;> decide
  mem := by constructor <;> decide

/-- Another: P1 before its step 2. -/
theorem moving_sound : MachineSound moving where
  cap := by decide
  lz := by constructor <;> decide
  cnt_le := by decide
  op_lit := by decide
  op_bref := by decide
  tile := by constructor <;> decide
  mem := by constructor <;> decide

theorem witness_TokenDecodeOfEncode :
    (Instr.brefx 1023 0xFFFF).wellFormed = true ∧ (Instr.brefx 1023 0xFFFF).isToken = true ∧
    (Instr.reservedX111 2).wellFormed = true ∧ (Instr.reservedX111 2).isToken = true := by decide

theorem witness_TokenEncodeOfDecode : decode [0xF3, 0xFF, 0x01, 0x00, 0xFF] = .ok (.brefx 1023 1, [0xFF]) := rfl

/-- `test_control_byte_ends_short` and `test_control_byte_ends_long` give a witness for each clause at both ends of
its range; this one says that the ranges' ends are in the ranges. -/
theorem witness_ControlByteMap :
    (0x1F#8).toNat ≤ 0x1F ∧ 0x20 ≤ (0x20#8).toNat ∧ 0x80 ≤ (0x80#8).toNat ∧ (0x9F#8).toNat ≤ 0x9F ∧
    0xE0 ≤ (0xE0#8).toNat ∧ (0xE3#8).toNat ≤ 0xE3 ∧ 0xF0 ≤ (0xF0#8).toNat ∧ (0xF3#8).toNat ≤ 0xF3 ∧
    0xFC ≤ (0xFC#8).toNat ∧ (0xFE#8).toNat ≤ 0xFE ∧ (0xFF#8).toNat = 0xFF := by decide

theorem witness_HostCommandCodes :
    Instr.lzStart.isToken = false ∧ Instr.tileDec.isToken = false ∧ (Instr.colConv 0xFFFF).isToken = false := by
  decide

theorem witness_StepRunsDecodedToken :
    lzHasTurn [] betweenTokens ∧ betweenTokens.lz.phase = .fetch ∧ ¬ hintDue betweenTokens ∧
    decode (srcBytes betweenTokens.src betweenTokens.lz.sp.toNat 3) = .ok (.bref 5 2, []) ∧
    betweenTokens.lz.sp.toNat + 3 ≤ betweenTokens.lz.srcLen.toNat :=
  ⟨hasTurn_nil rfl, rfl, not_hintDue rfl, rfl, by decide⟩

/-- The last byte of a slice: END, and the host waiting by `yield`. -/
theorem witness_StepRunsDecodedToken_yield :
    lzHasTurn [.read 5] { fetching [0xFF] with host := [.yield, .read 5] } ∧
    decode (srcBytes (fetching [0xFF]).src 0 1) = .ok (.endStream, []) ∧ 0 + 1 ≤ (fetching [0xFF]).lz.srcLen.toNat :=
  ⟨.inr rfl, rfl, by decide⟩

theorem witness_StepRunsHostCommand :
    ({ State.reset with host := [.write 24 0x7FE0, .read 25] } : State).host = .write 24 0x7FE0 :: [.read 25] ∧
    decodeHostWrite 24 0x7FE0 = some (.colConv 0x7FE0) := ⟨rfl, rfl⟩

theorem witness_WaitingUnitDoesNothing :
    lzHasTurn [] State.reset ∧ State.reset.lz.phase = .idle ∧
    lzHasTurn [.read 5] { faulted with host := [.yield, .read 5] } ∧ faulted.lz.phase = .fault :=
  ⟨hasTurn_nil rfl, rfl, .inr rfl, rfl⟩

theorem witness_ResetClearsEveryRegister :
    ({ copying with host := [.reset, .read 5] } : State).host = .reset :: [.read 5] := rfl

/-- Writes of registers 0 and 4 of a busy unit; reads of a busy unit, and of one in FAULT, DONE and IDLE. -/
theorem witness_BusyUnitIgnoresHostWrites :
    copying.lz.busy = true ∧ (0 : Nat) ≤ 4 ∧ (4 : Nat) ≤ 4 ∧
    ({ copying with host := [.write 0 1] } : State).host = .write 0 1 :: [] ∧
    ({ copying with host := [.write 4 7] } : State).host = .write 4 7 :: [] ∧
    dataAfter (step { copying with host := [.read 5] }) = some 3 ∧
    dataAfter (step { faulted with host := [.read 7] }) = some 4 ∧
    dataAfter (step { faulted with lz := { faulted.lz with phase := .done }, host := [.read 9] }) = some 5 ∧
    dataAfter (step { State.reset with host := [.read 5] }) = some 0 := by decide

/-- The unused numbers at both ends of each range, and their neighbours 11, 17, 19 and 27 as what they are. -/
theorem witness_RegisterReadMap :
    (∀ reg ∈ [0, 12, 16, 20, 23, 28, 1000],
      reg = 0 ∨ (12 ≤ reg ∧ reg ≤ 16) ∨ (20 ≤ reg ∧ reg ≤ 23) ∨ 28 ≤ reg) ∧
    (∀ reg ∈ [11, 17, 19, 27],
      ¬ (reg = 0 ∨ (12 ≤ reg ∧ reg ≤ 16) ∨ (20 ≤ reg ∧ reg ≤ 23) ∨ 28 ≤ reg)) ∧
    [7, 8, 9, 10, 11].map (fun reg => readReg reg
      { State.reset with lz := { LzUnit.atReset with faddr := 7, sp := 8, consumed := 9, base := 10, olen := 11 } })
      = [7, 8, 9, 10, 11] := by decide

/-- What a register reads after the host's write of it. -/
def readBack (reg : Nat) (value : Word) (s : State) : Option Word :=
  match step { s with host := [.write reg value] } with
  | .next t => some (readReg reg t)
  | .fault _ | .refused _ => none

/-- One witness for each register, the configuration registers of a unit that is not BUSY; a busy unit's T_LEN and
C_IN. -/
theorem witness_WrittenRegisterReadsBack :
    faulted.lz.busy = false ∧ copying.lz.busy = true ∧
    [1, 2, 3, 4].map (fun r => readBack r 0xFFFFFFFF faulted)
      = [some 1, some 0xFFFFFFFF, some 0xFFFFFFFF, some 0xFFFFFFFF] ∧
    [17, 24].map (fun r => readBack r 0xFFFFFFFF copying) = [some 0xFFFFFFFF, some 0xFFFF] := by decide

/-- The values where the clauses meet: 0 with 0, 5, 15, 18, 23, 25, and 16 with 2; such a register reads as
before. -/
theorem witness_OtherWritesAreIgnored :
    (∀ p ∈ [((0 : Nat), (0 : Word)), (5, 1), (15, 1), (18, 1), (23, 1), (25, 1), (16, 2)],
      (p.1 = 0 ∧ p.2 ≠ 1) ∨ (5 ≤ p.1 ∧ p.1 ≠ 16 ∧ p.1 ≠ 17 ∧ p.1 ≠ 24) ∨ (p.1 = 16 ∧ p.2 ≠ 1)) ∧
    [(0, 0), (5, 1), (15, 1), (18, 1), (23, 1), (25, 1), (16, 2)].map (fun p => readBack p.1 p.2 copying)
      = [some 0, some 3, some 0, some 0, some 0, some 0, some 0] := by decide

/-- Both clauses; not BUSY in IDLE, FAULT and DONE. -/
theorem witness_StartBeginsARun :
    State.reset.lz.busy = false ∧ faulted.lz.busy = false ∧
    ({ faulted with lz := { faulted.lz with phase := .done } } : State).lz.busy = false ∧
    copying.lz.busy = true := by decide

/-- END as the last byte of its slice. -/
theorem witness_TerminatorEndsTheRun :
    lzHasTurn [] (fetching [0xFF]) ∧ (fetching [0xFF]).lz.phase = .fetch ∧ ¬ hintDue (fetching [0xFF]) ∧
    (fetching [0xFF]).lz.sp.toNat < (fetching [0xFF]).lz.srcLen.toNat ∧
    srcByte (fetching [0xFF]).src (fetching [0xFF]).lz.sp.toNat = 0xFF :=
  ⟨hasTurn_nil rfl, rfl, not_hintDue rfl, by decide, rfl⟩

/-- The hint exactly reached, in a copy run; and a hint of 0 in FETCH. -/
theorem witness_HintStopsBeforeAnythingElse :
    lzHasTurn [] (withHint 2 copying) ∧ (withHint 2 copying).lz.busy = true ∧ hintDue (withHint 2 copying) ∧
    lzHasTurn [] (withHint 0 (fetching [])) ∧ (withHint 0 (fetching [])).lz.busy = true ∧
    hintDue (withHint 0 (fetching [])) :=
  ⟨hasTurn_nil rfl, rfl, ⟨rfl, by decide⟩, hasTurn_nil rfl, rfl, ⟨rfl, by decide⟩⟩

/-- The distance at both ends of the window: 1 and LZ_OLEN. -/
theorem witness_CopyHeaderInWindowStartsARun :
    1 ≤ (1#16).toNat ∧ (1#16).toNat ≤ copying.lz.olen.toNat ∧ 1 ≤ (2#16).toNat ∧
    (2#16).toNat ≤ copying.lz.olen.toNat := by decide

/-- The positions where the clauses meet: -1, 0, LZ_OLEN - 1 and LZ_OLEN. -/
theorem witness_WindowCheckOnTheFirstPosition :
    (-1 : Int) < 0 ∧ (0 : Int) ≤ 0 ∧ (0 : Int) < copying.lz.olen.toNat ∧ (1 : Int) < copying.lz.olen.toNat ∧
    (copying.lz.olen.toNat : Int) ≤ 2 ∧ (∃ len, Instr.bref 31 3 = .bref len 3) ∧
    (∃ len, Instr.brefx 1023 0 = .brefx len 0) :=
  ⟨by decide, by decide, by decide, by decide, by decide, ⟨_, rfl⟩, ⟨_, rfl⟩⟩

/-- LZ_OLEN + 1 (V75), and 0 (V78's token): the two clauses exclude each other. -/
theorem witness_DistanceOutsideWindowFaults :
    lzHasTurn [] (fetching [0x80, 0x01, 0x00]) ∧ ¬ hintDue (fetching [0x80, 0x01, 0x00]) ∧
    decode (srcBytes (fetching [0x80, 0x01, 0x00]).src 0 3) = .ok (.bref 0 1, []) ∧
    0 + 3 ≤ (fetching [0x80, 0x01, 0x00]).lz.srcLen.toNat ∧ (0#32).toNat < (1#16).toNat ∧
    lzHasTurn [] (fetching [0xF0, 0x00, 0x00, 0x00]) ∧
    decode (srcBytes (fetching [0xF0, 0x00, 0x00, 0x00]).src 0 4) = .ok (.brefx 0 0, []) ∧ (0#16).toNat = 0 :=
  ⟨hasTurn_nil rfl, not_hintDue rfl, rfl, by decide, by decide, hasTurn_nil rfl, rfl, rfl⟩

/-- Each reserved form, from its table word. -/
theorem witness_ReservedTokensRaiseBadOp :
    [0x20, 0x40, 0x60, 0xA0, 0xC0].map (decodeTableWord 8)
      = [some (.reservedS001 0), some (.reservedS010 0), some (.reservedS011 0), some (.reservedS101 0),
        some (.reservedS110 0)] ∧
    [0xE4, 0xE8, 0xEC, 0xF4, 0xF8, 0xFC].map (decodeTableWord 8)
      = [some (.reservedX001 0), some (.reservedX010 0), some (.reservedX011 0), some (.reservedX101 0),
        some (.reservedX110 0), some (.reservedX111 0)] := by decide

/-- The ends of the four ranges, each as the last byte of its slice. -/
theorem witness_ReservedByteHaltsAfterOneByte :
    ∀ c ∈ [0x20#8, 0x7F, 0xA0, 0xDF, 0xE4, 0xEF, 0xF4, 0xFE],
      lzHasTurn [] (fetching [c]) ∧ (fetching [c]).lz.phase = .fetch ∧ ¬ hintDue (fetching [c]) ∧
      (fetching [c]).lz.sp.toNat < (fetching [c]).lz.srcLen.toNat ∧
      reservedControl (srcByte (fetching [c]).src (fetching [c]).lz.sp.toNat) := by
  intro c hc
  refine ⟨hasTurn_nil rfl, rfl, not_hintDue rfl, (by decide : (0#32).toNat < (1#32).toNat), ?_⟩
  unfold reservedControl
  revert c
  decide

/-- No byte left, and one byte short of a whole BREFX. -/
theorem witness_HeaderCutShortFaults :
    lzHasTurn [] (fetching [0xF0, 0x00, 0x01]) ∧ ¬ hintDue (fetching [0xF0, 0x00, 0x01]) ∧
    decode (srcBytes (fetching [0xF0, 0x00, 0x01]).src 0 (bytesLeft (fetching [0xF0, 0x00, 0x01])))
      = .error .headerCutShort ∧
    decode (srcBytes (fetching []).src 0 (bytesLeft (fetching []))) = .error .noControlByte :=
  ⟨hasTurn_nil rfl, not_hintDue rfl, rfl, rfl⟩

/-- The last clause; the hint clause at the hint exactly reached. -/
theorem witness_RunLitStep :
    lzHasTurn [] moving ∧ moving.lz.phase = .runLit ∧ ¬ hintDue moving ∧ 1 ≤ moving.lz.cnt.toNat ∧
    moving.lz.sp.toNat < moving.lz.srcLen.toNat ∧ moving.lz.olen.toNat < moving.outCap.toNat ∧
    lzHasTurn [] (withHint 0 moving) ∧ hintDue (withHint 0 moving) :=
  ⟨hasTurn_nil rfl, rfl, not_hintDue rfl, by decide, by decide, by decide, hasTurn_nil rfl, ⟨rfl, by decide⟩⟩

/-- The last byte of the run, the last of the slice, the last place of OUT. -/
theorem witness_RunLitStep_last :
    (match step { moving with outCap := 1, lz := { moving.lz with srcLen := 2, cnt := 1 } } with
      | .next t => (t.lz.phase, t.lz.sp, t.lz.olen, t.lz.cnt)
      | _ => (.idle, 0, 0, 0)) = (.fetch, 2, 1, 0) := by decide

/-- SP at the end of the slice; and OUT full with a byte left. -/
theorem witness_RunLitStep_bounds :
    lzHasTurn [] { moving with lz := { moving.lz with srcLen := 1 } } ∧
    ¬ hintDue { moving with lz := { moving.lz with srcLen := 1 } } ∧ (1#32).toNat ≤ moving.lz.sp.toNat ∧
    ¬ hintDue { moving with outCap := 1, lz := { moving.lz with olen := 1 } } ∧
    moving.lz.sp.toNat < moving.lz.srcLen.toNat ∧ (1#32).toNat ≤ (1#32).toNat :=
  ⟨hasTurn_nil rfl, not_hintDue rfl, by decide, not_hintDue rfl, by decide, by decide⟩

/-- The last clause; the hint clause at the hint exactly reached. -/
theorem witness_RunCopyStep :
    lzHasTurn [] copying ∧ copying.lz.phase = .runCopy ∧ ¬ hintDue copying ∧ 1 ≤ copying.lz.cnt.toNat ∧
    copying.lz.cpy.toNat < copying.lz.olen.toNat ∧ copying.lz.olen.toNat < copying.outCap.toNat ∧
    Memory.valueAt copying.lz.cpy.toNat copying.out = some 0xAB ∧
    lzHasTurn [] (withHint 2 copying) ∧ hintDue (withHint 2 copying) :=
  ⟨hasTurn_nil rfl, rfl, not_hintDue rfl, by decide, by decide, by decide, rfl, hasTurn_nil rfl, ⟨rfl, by decide⟩⟩

/-- OUT just full; and the last place of OUT still free. -/
theorem witness_RunCopyStep_bounds :
    lzHasTurn [] { copying with outCap := 2 } ∧ ¬ hintDue { copying with outCap := 2 } ∧
    (2#32).toNat ≤ copying.lz.olen.toNat ∧
    (lzAfter (step { copying with outCap := 3, lz := { copying.lz with cnt := 1 } })).map
      (fun u => (u.phase, u.olen, u.cnt)) = some (.fetch, 3, 0) :=
  ⟨hasTurn_nil rfl, not_hintDue rfl, by decide, by decide⟩

/-- V91's literal: the payload ends the slice but for END, and fills OUT. -/
theorem witness_LiteralTokenCopiesItsPayload :
    let s : State := { fetching [0x01, 0x41, 0x42, 0xFF] with outCap := 2 }
    s.host = [] ∧ s.lz.phase = .fetch ∧ s.lz.hintEn = false ∧
    decode (srcBytes s.src s.lz.sp.toNat 1) = .ok (.lit 1, []) ∧ (∃ len, Instr.lit 1 = .lit len ∧ 2 = len.toNat + 1) ∧
    s.lz.sp.toNat + 1 + 2 ≤ s.lz.srcLen.toNat ∧ s.lz.olen.toNat + 2 ≤ s.outCap.toNat :=
  ⟨rfl, rfl, rfl, rfl, ⟨1, rfl, rfl⟩, by decide, by decide⟩

/-- The same for V49's long form. -/
theorem witness_LiteralTokenCopiesItsPayload_long :
    decode (srcBytes (fetching [0xE0, 0x00, 0x9C, 0xFF]).src 0 2) = .ok (.litx 0, []) ∧
    (∃ len, Instr.litx 0 = .litx len ∧ 1 = len.toNat + 1) := ⟨rfl, ⟨0, rfl, rfl⟩⟩

/-- V45's copy: d = 2 = LZ_OLEN < n = 6, filling an OUT of 8. -/
theorem witness_CopyTokenRepeatsThePattern :
    let s : State := { betweenTokens with outCap := 8 }
    s.host = [] ∧ s.lz.phase = .fetch ∧ s.lz.hintEn = false ∧
    decode (srcBytes s.src s.lz.sp.toNat 3) = .ok (.bref 5 2, []) ∧
    (∃ len, Instr.bref 5 2 = .bref len 2 ∧ 6 = len.toNat + 1) ∧ s.lz.sp.toNat + 3 ≤ s.lz.srcLen.toNat ∧
    1 ≤ (2#16).toNat ∧ (2#16).toNat ≤ s.lz.olen.toNat ∧ s.lz.olen.toNat + 6 ≤ s.outCap.toNat ∧
    (∀ a, a < s.lz.olen.toNat → (Memory.valueAt a s.out).isSome = true) :=
  ⟨rfl, rfl, rfl, rfl, ⟨5, rfl, rfl⟩, by decide, by decide, by decide, by decide, by decide⟩

/-- The long form of the same copy. -/
theorem witness_CopyTokenRepeatsThePattern_long :
    let s : State := { fetching [0xF0, 0x05, 0x02, 0x00, 0xFF] with
      out := [(0, 0xAB), (1, 0xCD)]
      outCap := 8
      lz := { (fetching [0xF0, 0x05, 0x02, 0x00, 0xFF]).lz with olen := 2 } }
    s.host = [] ∧ s.lz.phase = .fetch ∧ s.lz.hintEn = false ∧
    decode (srcBytes s.src s.lz.sp.toNat 4) = .ok (.brefx 5 2, []) ∧
    (∃ len, Instr.brefx 5 2 = .brefx len 2 ∧ 6 = len.toNat + 1) ∧ s.lz.sp.toNat + 4 ≤ s.lz.srcLen.toNat ∧
    1 ≤ (2#16).toNat ∧ (2#16).toNat ≤ s.lz.olen.toNat ∧ s.lz.olen.toNat + 6 ≤ s.outCap.toNat ∧
    (∀ a, a < s.lz.olen.toNat → (Memory.valueAt a s.out).isSome = true) :=
  ⟨rfl, rfl, rfl, rfl, ⟨5, rfl, rfl⟩, by decide, by decide, by decide, by decide, by decide⟩

/-- V41's stream, with OUT as large as its output; and the empty stream. -/
theorem witness_LiteralStreamDecodesToItsBytes :
    let s : State := { fetching [0x02, 0x41, 0x42, 0x43, 0xFF] with outCap := 3 }
    s.host = [] ∧ s.lz.phase = .fetch ∧ s.lz.hintEn = false ∧
    streamAt s (literalStream [0x41, 0x42, 0x43] ++ [0xFF]) ∧ s.lz.olen.toNat + 3 ≤ s.outCap.toNat ∧
    streamAt (fetching [0xFF]) (literalStream [] ++ [0xFF]) := by
  refine ⟨rfl, rfl, rfl, ⟨?_, ?_⟩, ?_, ⟨?_, ?_⟩⟩ <;> decide

theorem witness_EveryRunEnds : faulted.lz.busy = false ∧ faulted.host = [] := by decide

/-- After LZ.START from reset, one step (V87). -/
theorem witness_OutputOfARunIsBounded :
    State.reset.lz.busy = false ∧ State.reset.host = [] ∧ exec .lzStart State.reset = .next (startRun State.reset) ∧
    lzAfter (runs 1 (startRun State.reset))
      = some { LzUnit.atReset with phase := .fault, cause := .srcExhausted } :=
  ⟨rfl, rfl, rfl, by decide⟩

/-- Two states that differ in what is left of an earlier run, in bytes past the slice, and in the other units. -/
theorem witness_RunDependsOnItsInputsOnly :
    let s : State := { faulted with src := [(9, 1)], out := [(0, 0x41)] }
    let s' : State := { tileReady with src := [(9, 2)] }
    s.lz.busy = false ∧ s'.lz.busy = false ∧ s.host = [] ∧ s'.host = [] ∧ s.lz.srcLen = s'.lz.srcLen ∧
    s.lz.start = s'.lz.start ∧ s.lz.hintEn = s'.lz.hintEn ∧ (s.lz.hintEn = true → s.lz.hint = s'.lz.hint) ∧
    s.outCap = s'.outCap ∧ (∀ a, a < s.lz.srcLen.toNat → srcByte s.src a = srcByte s'.src a) := by decide

/-- P1 before its step 5, with a hint of 3: the next step reaches it. -/
theorem witness_HintedRunIsAPrefix :
    copying.host = [] ∧ copying.lz.hintEn = false ∧ runs 0 copying = .next copying ∧
    copying.lz.olen.toNat < (3#32).toNat ∧ (lzAfter (step copying)).map (·.olen.toNat) = some (3#32).toNat :=
  ⟨rfl, rfl, rfl, by decide, by decide⟩

theorem witness_StepKeepsInvariant :
    MachineSound copying ∧ lzAfter (step copying) = some { copying.lz with olen := 3, cnt := 5, cpy := 1 } :=
  ⟨copying_sound, by decide⟩

theorem witness_SoundStateNeverFaults : MachineSound copying ∧ lzHasTurn [] copying :=
  ⟨copying_sound, hasTurn_nil rfl⟩

/-- A layout in which every control byte is a literal of one byte. -/
def oneByteLayout : Layout where
  reader _ := .done fun _ => .lit 1

theorem oneByteLayout_contract : oneByteLayout.contract := by
  intro c olen
  show (1#11) ≠ 0
  decide

/-- A turn under another layout. -/
theorem witness_AnyLayoutKeepsTheUnitSound :
    oneByteLayout.contract ∧ LzSound copying ∧ (lzAfter (lzTurnWith oneByteLayout copying)).isSome = true :=
  ⟨oneByteLayout_contract, copying_sound.lz, by decide⟩

/-- A step under it; and a host command under it. -/
theorem witness_AnyLayoutKeepsTheBlockSound :
    oneByteLayout.contract ∧ BlockSound copying ∧ (lzAfter (stepWith oneByteLayout copying)).isSome = true ∧
    lzHasTurn [] copying ∧
    (lzAfter (stepWith oneByteLayout { faulted with host := [.write 0 1] })).map (·.phase) = some .fetch :=
  ⟨oneByteLayout_contract, copying_sound.toBlockSound, by decide, hasTurn_nil rfl, by decide⟩

/-- RUN_COPY for the first clause; a byte that ends L0's stream, a literal there; and no byte left. -/
theorem witness_StepUnderAnyLayout :
    ¬ (copying.lz.phase = .fetch ∧ ¬ hintDue copying ∧ ∃ rest, lzHasTurn rest copying) ∧
    (fetching [0xFF]).lz.phase = .fetch ∧ ¬ hintDue (fetching [0xFF]) ∧ lzHasTurn [] (fetching [0xFF]) ∧
    (HeaderReader.fetch oneByteLayout.reader).feed (srcBytes (fetching [0xFF]).src 0 1) = .ok (fun _ => .lit 1, []) ∧
    0 + 1 ≤ (fetching [0xFF]).lz.srcLen.toNat ∧
    (lzAfter (stepWith oneByteLayout (fetching [0xFF]))).map (·.phase) = some .runLit ∧
    (HeaderReader.fetch oneByteLayout.reader).feed (srcBytes (fetching []).src 0 (bytesLeft (fetching [])))
      = .error .headerCutShort :=
  ⟨fun h => absurd h.1 (by decide), rfl, not_hintDue rfl, hasTurn_nil rfl, rfl, by decide, by decide, rfl⟩

/-- The smallest and the largest capacity. -/
theorem witness_EveryRunEndsUnderAnyLayout :
    Parameters.legal { layout := oneByteLayout, outCap := 1 } ∧
    Parameters.legal { layout := oneByteLayout, outCap := 0xFFFFFFFF } ∧ faulted.lz.busy = false ∧
    faulted.host = [] :=
  ⟨⟨oneByteLayout_contract, by decide⟩, ⟨oneByteLayout_contract, by decide⟩, rfl, rfl⟩

/-- The ends of R7's range, and the value below it. -/
theorem witness_ResetMeetsInvariant :
    Config.outCapLegal 1 ∧ Config.outCapLegal 0xFFFFFFFF ∧ ¬ Config.outCapLegal 0 := by decide

/-- V79 at its end: the payload is cut short. -/
def payloadMissing : State :=
  { moving with lz := { moving.lz with srcLen := 1 } }

theorem payloadMissing_sound : MachineSound payloadMissing where
  cap := by decide
  lz := by constructor <;> decide
  cnt_le := by decide
  op_lit := by decide
  op_bref := by decide
  tile := by constructor <;> decide
  mem := by constructor <;> decide

theorem witness_SourceExhaustionLeavesSpAtTheEnd :
    MachineSound payloadMissing ∧ lzHasTurn [] payloadMissing ∧ payloadMissing.lz.busy = true ∧
    (lzAfter (step payloadMissing)).map (·.cause) = some .srcExhausted :=
  ⟨payloadMissing_sound, hasTurn_nil rfl, rfl, by decide⟩

theorem witness_OutputIsOnlyAppended :
    lzHasTurn [] moving ∧ (lzAfter (step moving)).isSome = true ∧ lzHasTurn [] betweenTokens ∧
    (lzAfter (step betweenTokens)).isSome = true :=
  ⟨hasTurn_nil rfl, by decide, hasTurn_nil rfl, by decide⟩

/-- The longest header: four bytes are read in one step. -/
theorem witness_RunLeavesSourceAndConfigurationAlone :
    lzHasTurn [] (fetching [0xF0, 0x00, 0x01, 0x00]) ∧
    (lzAfter (step (fetching [0xF0, 0x00, 0x01, 0x00]))).map (·.sp) = some 4 :=
  ⟨hasTurn_nil rfl, by decide⟩

theorem witness_InstructionsStayInTheirUnit :
    (lzAfter (exec (.bref 5 2) betweenTokens)).isSome = true ∧ (Instr.bref 5 2).isToken = true ∧
    (lzAfter (exec .lzStart State.reset)).isSome = true ∧ (lzAfter (exec .tileDec tileReady)).isSome = true ∧
    (lzAfter (exec (.colConv 1) copying)).isSome = true := by decide

/-- The host writes SRC just past the slice of a busy unit. -/
theorem witness_HostAccessesLeaveARunAlone :
    copying.lz.busy = true ∧
    (lzAfter (step { copying with host := [.putSrc 7 0x55] })).isSome = true ∧
    step { copying with host := [.putSrc 6 0x55] } = .refused .srcWriteWhileBusy :=
  ⟨rfl, by decide, rfl⟩

/-- All three clauses: a read of a register, LZ.START, reset. -/
theorem witness_FaultStaysUntilStartOrReset :
    faulted.lz.phase = .fault ∧
    (lzAfter (step { faulted with host := [.read 6] })).map (·.cause) = some .badOp ∧
    (lzAfter (step { faulted with host := [.write 0 1] })).map (·.phase) = some .fetch ∧
    (lzAfter (step { faulted with host := [.reset] })).map (·.phase) = some .idle := by decide

theorem witness_FaultStaysUntilStartOrReset_done :
    (lzAfter (step { faulted with
      lz := { faulted.lz with phase := .done, stop := .hint, cause := .none, faddr := 0 },
      host := [.write 1 1] })).map (·.phase) = some .done := by decide

theorem witness_TileDecodeInterleavesThePlanes :
    tileReady.tile.len = 32 ∧
    ∀ k, k < 32 → Memory.valueAt k tileReady.tile.tIn = some (BitVec.ofNat 8 k) := by decide

/-- An unwritten T_IN: no entry has a value; with T_IN[0], [1], [16] and [17] written, row 0 has. -/
theorem witness_TileEntryNeedsItsFourBytes :
    (pixelAfter 0 (exec .tileDec { State.reset with tile := { TileUnit.atReset with len := 32 } }) = none) ∧
    (pixelAfter 7 (exec .tileDec { State.reset with tile := { TileUnit.atReset with
      len := 32, tIn := [(0, 0x80), (1, 0x01), (16, 0), (17, 0)] } }) = some 2) := by decide

/-- The lengths on both sides of 32. -/
theorem witness_WrongTileSizeFaults : (31#32).toNat ≠ 32 ∧ (33#32).toNat ≠ 32 ∧ (0#32).toNat ≠ 32 := by decide

theorem witness_TileDeterminesItsBlock :
    tileReady.tile.len = 32 ∧ (∀ k, k < 32 → (Memory.valueAt k tileReady.tile.tIn).isSome = true) ∧
    (lzAfter (exec .tileDec tileReady)).isSome = true := by decide

/-- BUSY; not BUSY at LZ_OLEN; not BUSY just below it. -/
def finished : State := { copying with lz := { copying.lz with phase := .done, stop := .terminator } }

theorem finished_sound : LzSound finished := by constructor <;> decide

theorem witness_HostReadsOfOut :
    copying.lz.busy = true ∧ finished.lz.busy = false ∧ finished.lz.olen.toNat ≤ (2#32).toNat ∧
    (1#32).toNat < finished.lz.olen.toNat ∧ LzSound finished ∧
    dataAfter (step { finished with host := [.readOut 1] }) = some 0xCD :=
  ⟨rfl, rfl, by decide, by decide, finished_sound, by decide⟩

/-- Busy below LZ_SRCLEN (6 of 7) and at it; not busy at 0. -/
theorem witness_HostWritesOfSource :
    copying.lz.busy = true ∧ (6#32).toNat < copying.lz.srcLen.toNat ∧ copying.lz.srcLen.toNat ≤ (7#32).toNat ∧
    finished.lz.busy = false ∧
    (match step { copying with host := [.putSrc 7 0x55] } with
      | .next t => (srcByte t.src 7, srcByte t.src 6)
      | _ => (0, 0)) = (0x55, 0xFF) ∧
    (match step { finished with host := [.putSrc 0 0x55] } with
      | .next t => (srcByte t.src 0, srcByte t.src 1)
      | _ => (0, 0)) = (0x55, 0xAB) := by decide

/-- T_OUT in IDLE, T_OUT in DONE at its last index, T_IN at its last index. -/
theorem witness_HostAccessesOfTileBuffers :
    step { tileReady with host := [.readTOut 63] } = .refused .tOutReadNotDone ∧
    dataAfter (step { tileReady with
      tile := { tileReady.tile with status := .done, tOut := [(63, 8)] }, host := [.readTOut 63] }) = some 8 ∧
    dataAfter (runs 2 { tileReady with host := [.putTIn 31 0xA5, .readTIn 31] }) = some 0xA5 :=
  ⟨rfl, by decide, by decide⟩

end Sys2Proof.Tests
end

section
/-! PROOF. The control-byte map of layout L0 (30_encoding.md R70). Every control byte is the encoding of its fields
(R62, R63, R67, R68), and the decoder reads a token's encoding back, so each row of the map is one token form. -/

namespace Sys2Proof.Proofs

open Sys2Proof.Laws

/-! ### The decoder on an encoded token -/

/-- A format X byte that is not the terminator goes to the format X reader (R65). -/
theorem readHeader_longControl {op : BitVec 3} {lenHi : BitVec 2} (h : op ≠ 7 ∨ lenHi ≠ 3) :
    readHeader (longControl op lenHi) = readLongHeader (longControl op lenHi) := by
  simp [readHeader, longControl_ne_terminator h]

theorem decode_tokenBytes_append {i : Instr} (hw : i.wellFormed = true) (ht : i.isToken = true)
    (rest : List Byte) : decode (tokenBytes i ++ rest) = .ok (i, rest) := by
  cases i with
  | endStream => rfl
  | lzStart | tileDec | colConv word => cases ht
  | lit len | bref len dist | reservedS001 len | reservedS010 len | reservedS011 len | reservedS101 len
  | reservedS110 len =>
    simp [tokenBytes, distanceBytes, decode, readHeader, shortControl_ne_terminator, readDistance,
      HeaderReader.feed]
  | reservedX111 lenHi =>
    have hX : lenHi ≠ 3 := by simpa [Instr.wellFormed] using hw
    simp [tokenBytes, decode, readHeader_longControl (.inr hX), readLongHeader, HeaderReader.feed]
  | litx len | brefx len dist | reservedX001 lenHi | reservedX010 lenHi | reservedX011 lenHi
  | reservedX101 lenHi | reservedX110 lenHi =>
    simp [tokenBytes, longHeader, distanceBytes, decode, readHeader_longControl, readLongHeader, readDistance,
      HeaderReader.feed]

/-! ### The bytes of a range as encodings -/

theorem shortControl_toNat (op : BitVec 3) (len : BitVec 5) :
    (shortControl op len).toNat = 32 * op.toNat + len.toNat := by
  revert op len; decide

theorem longControl_toNat (op : BitVec 3) (lenHi : BitVec 2) :
    (longControl op lenHi).toNat = 0xE0 + 4 * op.toNat + lenHi.toNat := by
  revert op lenHi; decide

/-- The 32 control bytes of a format S operation differ in `len` (R62). -/
theorem exists_shortControl (op : BitVec 3) {c : Byte} (lo : 32 * op.toNat ≤ c.toNat)
    (hi : c.toNat ≤ 32 * op.toNat + 31) :
    ∃ len, len.toNat = c.toNat - 32 * op.toNat ∧ c = shortControl op len := by
  have hlen : (BitVec.ofNat 5 (c.toNat - 32 * op.toNat)).toNat = c.toNat - 32 * op.toNat := by
    rw [BitVec.toNat_ofNat]; omega
  refine ⟨_, hlen, BitVec.eq_of_toNat_eq ?_⟩
  rw [shortControl_toNat]
  omega

/-- The four control bytes of a format X operation differ in `lenhi` (R63). -/
theorem exists_longControl (op : BitVec 3) {c : Byte} (lo : 0xE0 + 4 * op.toNat ≤ c.toNat)
    (hi : c.toNat ≤ 0xE0 + 4 * op.toNat + 3) :
    ∃ lenHi, lenHi.toNat = c.toNat - (0xE0 + 4 * op.toNat) ∧ c = longControl op lenHi := by
  have hlen : (BitVec.ofNat 2 (c.toNat - (0xE0 + 4 * op.toNat))).toNat = c.toNat - (0xE0 + 4 * op.toNat) := by
    rw [BitVec.toNat_ofNat]; omega
  refine ⟨_, hlen, BitVec.eq_of_toNat_eq ?_⟩
  rw [longControl_toNat]
  omega

theorem longHeader_lenLong (op : BitVec 3) (lenHi : BitVec 2) (b : Byte) :
    longHeader op (lenLong (longControl op lenHi) b) = [longControl op lenHi, b] := by
  have hhi : (lenLong (longControl op lenHi) b).extractLsb' 8 2 = lenHigh (longControl op lenHi) :=
    BitVec.extractLsb'_append_eq_left
  have hlo : (lenLong (longControl op lenHi) b).extractLsb' 0 8 = b := BitVec.extractLsb'_append_eq_right
  rw [longHeader, hhi, hlo, lenHigh_longControl]

theorem distanceBytes_distanceOf (d0 d1 : Byte) : distanceBytes (distanceOf d0 d1) = [d0, d1] := by
  have hlo : (distanceOf d0 d1).extractLsb' 0 8 = d0 := BitVec.extractLsb'_append_eq_right
  have hhi : (distanceOf d0 d1).extractLsb' 8 8 = d1 := BitVec.extractLsb'_append_eq_left
  rw [distanceBytes, hlo, hhi]

/-- A format X control byte and any byte after it are the header of one 10-bit length (R67). -/
theorem exists_longHeader (op : BitVec 3) {c : Byte} (b : Byte) (lo : 0xE0 + 4 * op.toNat ≤ c.toNat)
    (hi : c.toNat ≤ 0xE0 + 4 * op.toNat + 3) :
    ∃ len, len.toNat = 256 * (c.toNat - (0xE0 + 4 * op.toNat)) + b.toNat ∧ longHeader op len = [c, b] := by
  obtain ⟨lenHi, hlen, rfl⟩ := exists_longControl op lo hi
  refine ⟨lenLong (longControl op lenHi) b, ?_, longHeader_lenLong op lenHi b⟩
  rw [lenLong_toNat, lenHigh_longControl, hlen]

/-! ### The rows -/

/-- A row of format S whose token is the control byte alone (R69). -/
theorem exists_decode_eq_short (op : BitVec 3) (token : BitVec 5 → Instr)
    (htoken : ∀ len, (token len).wellFormed = true ∧ (token len).isToken = true ∧
      tokenBytes (token len) = [shortControl op len])
    {c : Byte} (lo : 32 * op.toNat ≤ c.toNat) (hi : c.toNat ≤ 32 * op.toNat + 31) (rest : List Byte) :
    ∃ len, decode (c :: rest) = .ok (token len, rest) := by
  obtain ⟨len, -, rfl⟩ := exists_shortControl op lo hi
  obtain ⟨hw, ht, hbytes⟩ := htoken len
  have h := decode_tokenBytes_append hw ht rest
  rw [hbytes] at h
  exact ⟨len, h⟩

/-- A row of format X whose token is the control byte alone (R69), for each of its bytes that is a token. -/
theorem exists_decode_eq_long (op : BitVec 3) (token : BitVec 2 → Instr)
    (htoken : ∀ lenHi, (token lenHi).isToken = true ∧ tokenBytes (token lenHi) = [longControl op lenHi])
    {c : Byte} (lo : 0xE0 + 4 * op.toNat ≤ c.toNat) (hi : c.toNat ≤ 0xE0 + 4 * op.toNat + 3)
    (hw : ∀ lenHi, lenHi.toNat = c.toNat - (0xE0 + 4 * op.toNat) → (token lenHi).wellFormed = true)
    (rest : List Byte) :
    ∃ lenHi, decode (c :: rest) = .ok (token lenHi, rest) := by
  obtain ⟨lenHi, hlen, rfl⟩ := exists_longControl op lo hi
  obtain ⟨ht, hbytes⟩ := htoken lenHi
  have h := decode_tokenBytes_append (hw lenHi hlen) ht rest
  rw [hbytes] at h
  exact ⟨lenHi, h⟩

/-- Settles O3: each row's control bytes are the encodings of its token, which the decoder reads back. -/
theorem controlByteMap : Obligations.ControlByteMap := by
  intro c b d0 d1 rest
  refine ⟨?lit, ?s001, ?s010, ?s011, ?bref, ?s101, ?s110, ?litx, ?x001, ?x010, ?x011, ?brefx, ?x101, ?x110, ?x111,
    ?endStream⟩
  case lit =>
    intro hi
    obtain ⟨len, hlen, rfl⟩ := exists_shortControl 0 (Nat.zero_le _) hi
    exact ⟨len, hlen, (runLengthShort_toNat len).trans (congrArg (· + 1) hlen),
      decode_tokenBytes_append (i := .lit len) rfl rfl rest⟩
  case bref =>
    rintro ⟨lo, hi⟩
    obtain ⟨len, hlen, rfl⟩ := exists_shortControl 4 lo hi
    have h := decode_tokenBytes_append (i := .bref len (distanceOf d0 d1)) rfl rfl rest
    rw [tokenBytes, distanceBytes_distanceOf] at h
    exact ⟨len, distanceOf d0 d1, hlen, (runLengthShort_toNat len).trans (congrArg (· + 1) hlen),
      distanceOf_toNat d0 d1, h⟩
  case litx =>
    rintro ⟨lo, hi⟩
    obtain ⟨len, hlen, hbytes⟩ := exists_longHeader 0 b lo hi
    have h := decode_tokenBytes_append (i := .litx len) rfl rfl rest
    rw [tokenBytes, hbytes] at h
    exact ⟨len, hlen, h⟩
  case brefx =>
    rintro ⟨lo, hi⟩
    obtain ⟨len, hlen, hbytes⟩ := exists_longHeader 4 b lo hi
    have h := decode_tokenBytes_append (i := .brefx len (distanceOf d0 d1)) rfl rfl rest
    rw [tokenBytes, hbytes, distanceBytes_distanceOf] at h
    exact ⟨len, distanceOf d0 d1, hlen, distanceOf_toNat d0 d1, h⟩
  case s001 => exact fun ⟨lo, hi⟩ => exists_decode_eq_short 1 .reservedS001 (fun _ => ⟨rfl, rfl, rfl⟩) lo hi rest
  case s010 => exact fun ⟨lo, hi⟩ => exists_decode_eq_short 2 .reservedS010 (fun _ => ⟨rfl, rfl, rfl⟩) lo hi rest
  case s011 => exact fun ⟨lo, hi⟩ => exists_decode_eq_short 3 .reservedS011 (fun _ => ⟨rfl, rfl, rfl⟩) lo hi rest
  case s101 => exact fun ⟨lo, hi⟩ => exists_decode_eq_short 5 .reservedS101 (fun _ => ⟨rfl, rfl, rfl⟩) lo hi rest
  case s110 => exact fun ⟨lo, hi⟩ => exists_decode_eq_short 6 .reservedS110 (fun _ => ⟨rfl, rfl, rfl⟩) lo hi rest
  case x001 =>
    exact fun ⟨lo, hi⟩ => exists_decode_eq_long 1 .reservedX001 (fun _ => ⟨rfl, rfl⟩) lo hi (fun _ _ => rfl) rest
  case x010 =>
    exact fun ⟨lo, hi⟩ => exists_decode_eq_long 2 .reservedX010 (fun _ => ⟨rfl, rfl⟩) lo hi (fun _ _ => rfl) rest
  case x011 =>
    exact fun ⟨lo, hi⟩ => exists_decode_eq_long 3 .reservedX011 (fun _ => ⟨rfl, rfl⟩) lo hi (fun _ _ => rfl) rest
  case x101 =>
    exact fun ⟨lo, hi⟩ => exists_decode_eq_long 5 .reservedX101 (fun _ => ⟨rfl, rfl⟩) lo hi (fun _ _ => rfl) rest
  case x110 =>
    exact fun ⟨lo, hi⟩ => exists_decode_eq_long 6 .reservedX110 (fun _ => ⟨rfl, rfl⟩) lo hi (fun _ _ => rfl) rest
  case x111 =>
    rintro ⟨lo, hi⟩
    have hlenHi (lenHi : BitVec 2) (hlen : lenHi.toNat = c.toNat - 0xFC) :
        (Instr.reservedX111 lenHi).wellFormed = true := by
      have hne : lenHi ≠ 3 := by bv_omega
      simpa [Instr.wellFormed] using hne
    exact exists_decode_eq_long 7 .reservedX111 (fun _ => ⟨rfl, rfl⟩) lo (Nat.le_succ_of_le hi) hlenHi rest
  case endStream =>
    intro hc
    obtain rfl : c = 0xFF := BitVec.eq_of_toNat_eq hc
    rfl

end Sys2Proof.Proofs
end

section
/-! PROOF. COL.CONV (40_color_converter.md R80, R81): each channel is its field of C_IN times 8, and the registers
C_IN, C_R, C_G and C_B read so in the state the command leaves. -/

namespace Sys2Proof.Proofs

open Sys2Proof.Machine

/-! ### The channels as numbers -/

@[simp] theorem expandChannel_toNat (field : BitVec 5) : (expandChannel field).toNat = field.toNat * 8 := by
  have hlt := field.isLt
  rw [expandChannel, BitVec.toNat_shiftLeft, BitVec.toNat_setWidth, Nat.shiftLeft_eq]
  omega

@[simp] theorem colR_toNat (word : ColourWord) : (colR word).toNat = word.toNat % 32 * 8 := by
  rw [colR, expandChannel_toNat, BitVec.extractLsb'_toNat, Nat.shiftRight_zero]

@[simp] theorem colG_toNat (word : ColourWord) : (colG word).toNat = word.toNat / 32 % 32 * 8 := by
  rw [colG, expandChannel_toNat, BitVec.extractLsb'_toNat, Nat.shiftRight_eq_div_pow]

@[simp] theorem colB_toNat (word : ColourWord) : (colB word).toNat = word.toNat / 1024 % 32 * 8 := by
  rw [colB, expandChannel_toNat, BitVec.extractLsb'_toNat, Nat.shiftRight_eq_div_pow]

/-! ### The registers of the COL unit as numbers -/

@[simp] theorem readReg_cIn_toNat (s : State) : (readReg 24 s).toNat = s.cIn.toNat :=
  BitVec.toNat_setWidth_of_le (by decide)

@[simp] theorem readReg_colR_toNat (s : State) : (readReg 25 s).toNat = s.cIn.toNat % 32 * 8 :=
  (BitVec.toNat_setWidth_of_le (by decide)).trans (colR_toNat s.cIn)

@[simp] theorem readReg_colG_toNat (s : State) : (readReg 26 s).toNat = s.cIn.toNat / 32 % 32 * 8 :=
  (BitVec.toNat_setWidth_of_le (by decide)).trans (colG_toNat s.cIn)

@[simp] theorem readReg_colB_toNat (s : State) : (readReg 27 s).toNat = s.cIn.toNat / 1024 % 32 * 8 :=
  (BitVec.toNat_setWidth_of_le (by decide)).trans (colB_toNat s.cIn)

/-! ### The command -/

theorem exec_colConv (word : ColourWord) (s : State) : exec (.colConv word) s = .next { s with cIn := word } := rfl

/-- Settles O51: the command leaves the word in C_IN, and the four registers are functions of C_IN alone. -/
theorem colourChannels : Obligations.ColourChannels := fun s word =>
  ⟨_, exec_colConv word s, rfl,
    readReg_cIn_toNat _, readReg_colR_toNat _, readReg_colG_toNat _, readReg_colB_toNat _⟩

end Sys2Proof.Proofs
end

section
/-! PROOF. The size check of TILE.DEC (41_tile_decoder.md R92): a T_LEN other than 32 takes the command to the fault
entry of the TILE unit (60_exceptions.md R149, R150), which never looks at T_IN. -/

namespace Sys2Proof.Proofs

open Sys2Proof.Machine Sys2Proof.Laws

/-! ### The size check -/

@[simp] theorem tileSizeOk_iff (u : TileUnit) : tileSizeOk u = true ↔ u.len.toNat = 32 := by
  rw [tileSizeOk, beq_iff_eq, BitVec.toNat_eq]
  rfl

theorem exec_tileDec_of_len_ne {s : State} (h : s.tile.len.toNat ≠ 32) : exec .tileDec s = .next (tileFault s) :=
  if_neg (mt (tileSizeOk_iff s.tile).mp h)

/-! ### The state the fault entry leaves -/

@[simp] theorem readReg_tStatus_tileFault (s : State) : readReg 18 (tileFault s) = 2 := rfl

@[simp] theorem readReg_tCause_tileFault (s : State) : readReg 19 (tileFault s) = 8 := rfl

theorem valueAt_tOut_tileFault (k : Nat) (s : State) :
    Memory.valueAt k (tileFault s).tile.tOut = none := by
  rw [tileFault_tile, valueAt_nil]

/-- Settles O47: the failed size check leads to the fault entry, whose registers, empty T_OUT and frame are read
off its definition. -/
theorem wrongTileSizeFaults : Obligations.WrongTileSizeFaults := fun s hlen =>
  ⟨tileFault s, exec_tileDec_of_len_ne hlen, readReg_tStatus_tileFault s, readReg_tCause_tileFault s,
    fun k => valueAt_tOut_tileFault k s, rfl⟩

end Sys2Proof.Proofs
end

section
/-! PROOF. Run control of the LZ unit (42_lz_run_control.md): LZ.START begins a run unless one is BUSY (R102), and the
size-hint check comes first in every step of a BUSY unit (R104). -/

namespace Sys2Proof.Proofs

open Sys2Proof.Machine Sys2Proof.Laws

/-! ### LZ.START -/

theorem exec_lzStart_of_not_busy {s : State} (h : s.lz.busy = false) : exec .lzStart s = .next (startRun s) :=
  if_neg (ne_true_of_eq_false h)

theorem exec_lzStart_of_busy {s : State} (h : s.lz.busy = true) : exec .lzStart s = .next s :=
  if_pos h

/-- Settles O16: the two branches of the command; R102's registers are those that `startRun` writes. -/
theorem startBeginsARun : Obligations.StartBeginsARun := fun _ =>
  ⟨exec_lzStart_of_not_busy, exec_lzStart_of_busy⟩

/-! ### The size-hint check -/

/-- The check looks at the LZ unit alone, so taking the host's `yield` off first does not matter to it. -/
theorem step_of_hintDue {s : State} {rest : List HostOp} (hturn : lzHasTurn rest s) (hbusy : s.lz.busy = true)
    (hdue : hintDue s) : step s = .next (stopByHint { s with host := rest }) :=
  (step_of_lzHasTurn hturn).trans (lzTurnL0_hint (s := { s with host := rest }) hbusy hdue)

/-- Settles O18: the step of a BUSY unit whose hint is due is the stop by hint, in each of the three phases. -/
theorem hintStopsBeforeAnythingElse : Obligations.HintStopsBeforeAnythingElse := fun _ _ hturn hbusy hdue =>
  step_of_hintDue hturn hbusy hdue

end Sys2Proof.Proofs
end

section
/-! PROOF. The tokens of one byte met in the stream (43_lz_tokens.md R120, R125, R126): the terminator and the
reserved control bytes. A FETCH step counts the control byte and runs the token it decodes to. -/

namespace Sys2Proof.Proofs

open Sys2Proof.Machine Sys2Proof.Laws

/-! ### The FETCH step -/

/-- R120, past the hint check: T0 is latched, the header's bytes are counted, and the token's meaning runs. -/
theorem step_of_decode {s : State} {rest : List HostOp} {n : Nat} {i : Instr} (hturn : lzHasTurn rest s)
    (hphase : s.lz.phase = .fetch) (hdue : ¬ hintDue s)
    (hdecode : decode (srcBytes s.src s.lz.sp.toNat n) = .ok (i, []))
    (hfit : s.lz.sp.toNat + n ≤ s.lz.srcLen.toNat) :
    step s = exec i (advanceBy n (latchT0 { s with host := rest })) :=
  calc step s
    _ = lzTurnL0 exec { s with host := rest } := step_of_lzHasTurn hturn
    _ = fetchStep readHeader exec { s with host := rest } := lzTurnL0_fetch hphase hdue
    _ = exec i (advanceBy n (latchT0 { s with host := rest })) := fetchStep_of_decode hdecode hfit

theorem srcBytes_one (src : Memory 8) (a : Nat) : srcBytes src a 1 = [srcByte src a] :=
  srcBytes_succ src a 0

/-- The same step for a control byte that is a whole token. -/
theorem step_of_decode_control {s : State} {rest : List HostOp} {i : Instr} (hturn : lzHasTurn rest s)
    (hphase : s.lz.phase = .fetch) (hdue : ¬ hintDue s) (hleft : s.lz.sp.toNat < s.lz.srcLen.toNat)
    (hdecode : decode [srcByte s.src s.lz.sp.toNat] = .ok (i, [])) :
    step s = exec i (advanceBy 1 (latchT0 { s with host := rest })) :=
  step_of_decode hturn hphase hdue (by rwa [srcBytes_one]) hleft

/-! ### END -/

theorem exec_endStream (s : State) : exec .endStream s = .next (stopByTerminator s) := rfl

/-- Settles O17: the byte FF is the whole token END, whose meaning is the stop by terminator. -/
theorem terminatorEndsTheRun : Obligations.TerminatorEndsTheRun := by
  refine ⟨exec_endStream, fun s rest hturn hphase hdue hleft hbyte => ?_⟩
  have hdecode : decode [srcByte s.src s.lz.sp.toNat] = .ok (.endStream, []) := by rw [hbyte]; rfl
  exact (step_of_decode_control hturn hphase hdue hleft hdecode).trans (exec_endStream _)

/-! ### The reserved control bytes -/

/-- The token that a byte of one row of the control-byte map decodes to, when every token of the row is BAD_OP. -/
theorem exists_badOp_of_row {α : Type} {token : α → Instr} {bs rest : List Byte}
    (hrow : ∃ a, decode bs = .ok (token a, rest)) (hexec : ∀ a s, exec (token a) s = badOp s) :
    ∃ i, decode bs = .ok (i, rest) ∧ ∀ s, exec i s = badOp s :=
  let ⟨a, hdecode⟩ := hrow
  ⟨token a, hdecode, hexec a⟩

/-- The four ranges of R125 are the eleven reserved rows of the control-byte map (R70). -/
theorem decode_reservedControl {c : Byte} (h : reservedControl c) :
    ∃ i, decode [c] = .ok (i, []) ∧ ∀ s, exec i s = badOp s := by
  obtain ⟨-, s001, s010, s011, -, s101, s110, -, x001, x010, x011, -, x101, x110, x111, -⟩ :=
    controlByteMap c 0 0 0 []
  obtain ⟨lo, hi⟩ | ⟨lo, hi⟩ | ⟨lo, hi⟩ | ⟨lo, hi⟩ := h
  · -- 0x20 to 0x7F
    by_cases h3F : c.toNat ≤ 0x3F
    · exact exists_badOp_of_row (s001 ⟨lo, h3F⟩) fun _ _ => rfl
    by_cases h5F : c.toNat ≤ 0x5F
    · exact exists_badOp_of_row (s010 ⟨by omega, h5F⟩) fun _ _ => rfl
    · exact exists_badOp_of_row (s011 ⟨by omega, hi⟩) fun _ _ => rfl
  · -- 0xA0 to 0xDF
    by_cases hBF : c.toNat ≤ 0xBF
    · exact exists_badOp_of_row (s101 ⟨lo, hBF⟩) fun _ _ => rfl
    · exact exists_badOp_of_row (s110 ⟨by omega, hi⟩) fun _ _ => rfl
  · -- 0xE4 to 0xEF
    by_cases hE7 : c.toNat ≤ 0xE7
    · exact exists_badOp_of_row (x001 ⟨lo, hE7⟩) fun _ _ => rfl
    by_cases hEB : c.toNat ≤ 0xEB
    · exact exists_badOp_of_row (x010 ⟨by omega, hEB⟩) fun _ _ => rfl
    · exact exists_badOp_of_row (x011 ⟨by omega, hi⟩) fun _ _ => rfl
  · -- 0xF4 to 0xFE
    by_cases hF7 : c.toNat ≤ 0xF7
    · exact exists_badOp_of_row (x101 ⟨lo, hF7⟩) fun _ _ => rfl
    by_cases hFB : c.toNat ≤ 0xFB
    · exact exists_badOp_of_row (x110 ⟨by omega, hFB⟩) fun _ _ => rfl
    · exact exists_badOp_of_row (x111 ⟨by omega, hi⟩) fun _ _ => rfl

/-- Settles O24: a reserved byte is a whole token, whose meaning is the fault entry with BAD_OP; T0, which becomes
LZ_FADDR, was latched at that byte. -/
theorem reservedByteHaltsAfterOneByte : Obligations.ReservedByteHaltsAfterOneByte := by
  intro s rest hturn hphase hdue hleft hbyte
  obtain ⟨i, hdecode, hexec⟩ := decode_reservedControl hbyte
  exact (step_of_decode_control hturn hphase hdue hleft hdecode).trans (hexec _)

end Sys2Proof.Proofs
end

section
/-! PROOF. The window check (43_lz_tokens.md R129): of the three places a source position can have, each decides
what the start of a copy does, for any layout; L0's position is LZ_OLEN - d (R68). -/

namespace Sys2Proof.Proofs

open Sys2Proof.Machine Sys2Proof.Laws

/-! ### The three places of a source position -/

theorem startCopy_of_neg {n : BitVec 11} {p : Int} {s : State} (h : p < 0) :
    startCopy n p s = lzFault .windowBeforeStart s :=
  if_pos h

theorem startCopy_of_olen_le {n : BitVec 11} {p : Int} {s : State} (h : (s.lz.olen.toNat : Int) ≤ p) :
    startCopy n p s = lzFault .windowPastEnd s :=
  (if_neg (by omega)).trans (if_pos h)

/-- A position in the window is below 2^32, so CPY holds it exactly. -/
theorem exists_startCopy_of_inWindow {n : BitVec 11} {p : Int} {s : State} (h0 : 0 ≤ p)
    (h : p < s.lz.olen.toNat) :
    ∃ cpy : Word, (cpy.toNat : Int) = p ∧
      startCopy n p s = { s with lz := { s.lz with op := .bref, cnt := n, cpy := cpy, phase := .runCopy } } := by
  have hlt := s.lz.olen.isLt
  refine ⟨BitVec.ofNat 32 p.toNat, ?_, (if_neg (by omega)).trans (if_neg (by omega))⟩
  rw [BitVec.toNat_ofNat]
  omega

/-! ### The position under L0 -/

theorem copySource_neg_iff (olen : Word) (dist : BitVec 16) :
    copySource olen dist < 0 ↔ olen.toNat < dist.toNat := by
  unfold copySource; omega

theorem le_copySource_iff (olen : Word) (dist : BitVec 16) :
    (olen.toNat : Int) ≤ copySource olen dist ↔ dist.toNat = 0 := by
  unfold copySource; omega

/-- Both back-reference tokens of L0 are the start of a copy from LZ_OLEN - d; they differ in the length field. -/
theorem exists_exec_eq_startClass {i : Instr} {dist : BitVec 16} (s : State)
    (hi : (∃ len, i = .bref len dist) ∨ (∃ len, i = .brefx len dist)) :
    ∃ n, exec i s = startClass (.bref n (copySource s.lz.olen dist)) s := by
  obtain ⟨len, rfl⟩ | ⟨len, rfl⟩ := hi
  · exact ⟨runLengthShort len, rfl⟩
  · exact ⟨runLengthLong len, rfl⟩

/-- Settles O21: the three places of the position for any layout, then where L0's position lies. -/
theorem windowCheckOnTheFirstPosition : Obligations.WindowCheckOnTheFirstPosition := by
  refine ⟨fun s n p => ⟨fun hneg => ?before, fun hle => ?past, fun h0 hlt => ?inside⟩, fun s i dist hi => ?l0⟩
  case before => exact congrArg Host.Outcome.next (startCopy_of_neg hneg)
  case past => exact congrArg Host.Outcome.next (startCopy_of_olen_le hle)
  case inside =>
    obtain ⟨cpy, hcpy, hstart⟩ := exists_startCopy_of_inWindow (n := n) h0 hlt
    exact ⟨cpy, hcpy, congrArg Host.Outcome.next hstart⟩
  case l0 =>
    obtain ⟨n, hexec⟩ := exists_exec_eq_startClass s hi
    exact ⟨n, _, rfl, hexec, copySource_neg_iff _ _, le_copySource_iff _ _⟩

end Sys2Proof.Proofs
end

section
/-! PROOF. The run steps (43_lz_tokens.md R127, R128): the hint check, the bounds in their order, and the one byte
moved. -/

namespace Sys2Proof.Proofs

open Sys2Proof.Machine Sys2Proof.Laws

/-! ### The end of a run step -/

theorem countByte_phase_of_cnt_eq_zero {s : State} (h : (countByte s).lz.cnt.toNat = 0) :
    (countByte s).lz.phase = .fetch :=
  if_pos (BitVec.eq_of_toNat_eq h)

theorem countByte_phase_of_cnt_ne_zero {s : State} (h : (countByte s).lz.cnt.toNat ≠ 0) :
    (countByte s).lz.phase = s.lz.phase :=
  if_neg (mt (congrArg BitVec.toNat) h)

/-! ### RUN_LIT -/

theorem step_runLit {s : State} {rest : List HostOp} (hturn : lzHasTurn rest s) (hphase : s.lz.phase = .runLit)
    (hdue : ¬ hintDue s) : step s = runLitStep { s with host := rest } :=
  (step_of_lzHasTurn hturn).trans (lzTurnL0_runLit (s := { s with host := rest }) hphase hdue)

theorem runLitStep_of_exhausted {s : State} (hsrc : s.lz.srcLen.toNat ≤ s.lz.sp.toNat) :
    runLitStep s = .next (lzFault .srcExhausted s) :=
  if_pos ((sourceExhausted_iff _).2 hsrc)

theorem runLitStep_of_full {s : State} (hsrc : s.lz.sp.toNat < s.lz.srcLen.toNat)
    (hout : s.outCap.toNat ≤ s.lz.olen.toNat) : runLitStep s = .next (lzFault .outFull s) :=
  (if_neg (mt (sourceExhausted_iff _).1 hsrc.not_ge)).trans (if_pos ((outFull_iff s).2 hout))

theorem runLitStep_of_room {s : State} (hsrc : s.lz.sp.toNat < s.lz.srcLen.toNat)
    (hout : s.lz.olen.toNat < s.outCap.toNat) :
    runLitStep s = .next (countByte (appendByte (nextSourceByte s) (advanceSource s))) :=
  (if_neg (mt (sourceExhausted_iff _).1 hsrc.not_ge)).trans (if_neg (mt (outFull_iff s).1 hout.not_ge))

/-- Settles O26: the four cases of the step; the moved byte's registers do not wrap, being below a bound. -/
theorem runLitStep_spec : Obligations.RunLitStep := by
  intro s rest hturn hphase
  have hbusy : s.lz.busy = true := (busy_iff _).2 (.inr (.inl hphase))
  refine ⟨step_of_hintDue hturn hbusy, fun hdue hsrc => ?exhausted, fun hdue hsrc hout => ?full,
    fun hdue hcnt hsrc hout => ?room⟩
  case exhausted => exact (step_runLit hturn hphase hdue).trans (runLitStep_of_exhausted hsrc)
  case full => exact (step_runLit hturn hphase hdue).trans (runLitStep_of_full hsrc hout)
  case room =>
    exact ⟨_, (step_runLit hturn hphase hdue).trans (runLitStep_of_room hsrc hout),
      advanceSource_sp_toNat hsrc, rfl, toNat_succ_of_lt (y := s.outCap) hout, countByte_cnt_toNat hcnt,
      countByte_phase_of_cnt_eq_zero, fun hne => (countByte_phase_of_cnt_ne_zero hne).trans hphase,
      valueAt_put_same _ _ _, fun k hk => valueAt_put_other hk _ _, rfl⟩

/-! ### RUN_COPY -/

theorem step_runCopy {s : State} {rest : List HostOp} (hturn : lzHasTurn rest s) (hphase : s.lz.phase = .runCopy)
    (hdue : ¬ hintDue s) : step s = runCopyStep { s with host := rest } :=
  (step_of_lzHasTurn hturn).trans (lzTurnL0_runCopy (s := { s with host := rest }) hphase hdue)

theorem runCopyStep_of_full {s : State} (hout : s.outCap.toNat ≤ s.lz.olen.toNat) :
    runCopyStep s = .next (lzFault .outFull s) :=
  if_pos ((outFull_iff s).2 hout)

theorem runCopyStep_of_room {s : State} {v : Byte} (hout : s.lz.olen.toNat < s.outCap.toNat)
    (hv : Memory.valueAt s.lz.cpy.toNat s.out = some v) :
    runCopyStep s = .next (countByte (advanceCopy (appendByte v s))) := by
  rw [runCopyStep, if_neg (mt (outFull_iff s).1 hout.not_ge), hv]

/-- Settles O27: the three cases of the step; CPY does not wrap, being below LZ_OLEN, nor does LZ_OLEN, being below
OUT_CAP. -/
theorem runCopyStep_spec : Obligations.RunCopyStep := by
  intro s rest hturn hphase
  have hbusy : s.lz.busy = true := (busy_iff _).2 (.inr (.inr hphase))
  refine ⟨step_of_hintDue hturn hbusy, fun hdue hout => ?full, fun v hdue hcnt hcpy hout hv => ?room⟩
  case full => exact (step_runCopy hturn hphase hdue).trans (runCopyStep_of_full hout)
  case room =>
    exact ⟨_, (step_runCopy hturn hphase hdue).trans (runCopyStep_of_room hout hv),
      toNat_succ_of_lt (y := s.lz.olen) hcpy, toNat_succ_of_lt (y := s.outCap) hout, countByte_cnt_toNat hcnt,
      countByte_phase_of_cnt_eq_zero, fun hne => (countByte_phase_of_cnt_ne_zero hne).trans hphase,
      valueAt_put_same _ _ _, fun k hk => valueAt_put_other hk _ _, rfl⟩

end Sys2Proof.Proofs
end

section
/-! PROOF. The window check met in the stream (60_exceptions.md R142, R143): a FETCH step that has read a whole
back-reference header is the start of a copy from LZ_OLEN - d, with the header's bytes counted and T0 latched. -/

namespace Sys2Proof.Proofs

open Sys2Proof.Machine Sys2Proof.Laws

/-- The window check looks at LZ_OLEN alone, which neither the latch of T0 nor the count of bytes changes. -/
theorem exists_step_eq_startCopy {s : State} {rest : List HostOp} {n : Nat} {i : Instr} {dist : BitVec 16}
    (hturn : lzHasTurn rest s) (hphase : s.lz.phase = .fetch) (hdue : ¬ hintDue s)
    (hdecode : decode (srcBytes s.src s.lz.sp.toNat n) = .ok (i, []))
    (hi : (∃ len, i = .bref len dist) ∨ (∃ len, i = .brefx len dist))
    (hfit : s.lz.sp.toNat + n ≤ s.lz.srcLen.toNat) :
    ∃ c, step s
      = .next (startCopy c (copySource s.lz.olen dist) (advanceBy n (latchT0 { s with host := rest }))) := by
  obtain ⟨c, hexec⟩ := exists_exec_eq_startClass (advanceBy n (latchT0 { s with host := rest })) hi
  exact ⟨c, (step_of_decode hturn hphase hdue hdecode hfit).trans hexec⟩

/-- Settles O22: d > LZ_OLEN puts the source position below 0 and d = 0 puts it at LZ_OLEN; fault entry then takes
the latched T0, the control byte's offset, for LZ_FADDR. -/
theorem distanceOutsideWindowFaults : Obligations.DistanceOutsideWindowFaults := by
  intro s rest n i dist hturn hphase hdue hdecode hi hfit
  obtain ⟨c, hstep⟩ := exists_step_eq_startCopy hturn hphase hdue hdecode hi hfit
  refine ⟨fun hbefore => ?before, fun hpast => ?past⟩
  case before =>
    have hneg : copySource s.lz.olen dist < 0 := (copySource_neg_iff _ _).2 hbefore
    exact ⟨_, hstep.trans (congrArg _ (startCopy_of_neg hneg)), rfl, rfl⟩
  case past =>
    have hle : (s.lz.olen.toNat : Int) ≤ copySource s.lz.olen dist := (le_copySource_iff _ _).2 hpast
    exact ⟨_, hstep.trans (congrArg _ (startCopy_of_olen_le hle)), rfl, rfl⟩

end Sys2Proof.Proofs
end

section
/-! PROOF. The ways out of FAULT and DONE (60_exceptions.md R153): an access of the host that is no register write,
no reset and no waiting leaves the LZ registers alone; a register write other than LZ.START reaches at most its
configuration; a waiting unit that is not BUSY does nothing. -/

namespace Sys2Proof.Proofs

open Sys2Proof.Machine Sys2Proof.Laws

/-! ### The host's accesses of the memories and buffers -/

theorem hostPutSrc_lz {index : Word} {value : Byte} {s t : State} (h : hostPutSrc index value s = .next t) :
    t.lz = s.lz := by
  unfold hostPutSrc at h
  split at h <;> cases h
  rfl

theorem hostReadOut_lz {index : Word} {s t : State} (h : hostReadOut index s = .next t) : t.lz = s.lz := by
  unfold hostReadOut at h
  split_ifs at h
  split at h <;> cases h
  rfl

theorem hostReadTIn_lz {index : BitVec 5} {s t : State} (h : hostReadTIn index s = .next t) : t.lz = s.lz := by
  unfold hostReadTIn at h
  split at h <;> cases h
  rfl

theorem hostReadTOut_lz {index : BitVec 6} {s t : State} (h : hostReadTOut index s = .next t) : t.lz = s.lz := by
  unfold hostReadTOut at h
  split_ifs at h
  split at h <;> cases h
  rfl

/-! ### The host's register writes -/

/-- The commands among the register writes (R73). -/
theorem decodeHostWrite_cases {reg : Nat} {value : Word} {i : Instr} (h : decodeHostWrite reg value = some i) :
    (reg = 0 ∧ value = 1 ∧ i = .lzStart) ∨ i = .tileDec ∨ ∃ word, i = .colConv word := by
  unfold decodeHostWrite at h
  split at h
  · split_ifs at h with hvalue
    cases h
    exact .inl ⟨rfl, hvalue, rfl⟩
  · split_ifs at h
    cases h
    exact .inr (.inl rfl)
  · cases h
    exact .inr (.inr ⟨_, rfl⟩)
  · cases h

theorem exec_tileDec_lz {s t : State} (h : exec .tileDec s = .next t) : t.lz = s.lz := by
  change execTileDec s = .next t at h
  unfold execTileDec at h
  split at h <;> cases h
  · exact decodeTile_lz s
  · exact tileFault_lz s

theorem exec_colConv_lz {word : ColourWord} {s t : State} (h : exec (.colConv word) s = .next t) : t.lz = s.lz := by
  cases h
  rfl

/-! ### PHASE, LZ_CAUSE and LZ_FADDR -/

/-- The registers that hold an exception are the same in both states. -/
def SameException (s t : State) : Prop :=
  t.lz.phase = s.lz.phase ∧ t.lz.cause = s.lz.cause ∧ t.lz.faddr = s.lz.faddr

theorem SameException.of_lz_eq {s t : State} (h : t.lz = s.lz) : SameException s t :=
  ⟨congrArg LzUnit.phase h, congrArg LzUnit.cause h, congrArg LzUnit.faddr h⟩

/-- A register write that is no command reaches the LZ unit's configuration only, if anything of it. -/
theorem sameException_writeReg (reg : Nat) (value : Word) (s : State) : SameException s (writeReg reg value s) := by
  unfold writeReg
  split
  case h_5 | h_6 => exact .of_lz_eq rfl
  all_goals
    unfold writeLzConfig
    split <;> exact ⟨rfl, rfl, rfl⟩

/-- LZ.START is the one register write that does not leave an exception alone. -/
theorem sameException_hostWrite {reg : Nat} {value : Word} {s t : State} (hstart : ¬ (reg = 0 ∧ value = 1))
    (h : hostWrite exec reg value s = .next t) : SameException s t := by
  unfold hostWrite at h
  split at h
  next i hi =>
    obtain ⟨hreg, hvalue, rfl⟩ | rfl | ⟨word, rfl⟩ := decodeHostWrite_cases hi
    · exact absurd ⟨hreg, hvalue⟩ hstart
    · exact .of_lz_eq (exec_tileDec_lz h)
    · exact .of_lz_eq (exec_colConv_lz h)
  next =>
    cases h
    exact sameException_writeReg reg value s

/-- What the host can do to a unit that is not BUSY without LZ.START and reset leaves the exception alone. -/
theorem sameException_hostAct {op : HostOp} {s t : State} (hbusy : s.lz.busy = false) (hstart : op ≠ .write 0 1)
    (hreset : op ≠ .reset) (h : hostAct exec (lzTurnL0 exec) op s = .next t) : SameException s t := by
  cases op with
  | write reg value => exact sameException_hostWrite (fun ⟨hreg, hvalue⟩ => hstart (by rw [hreg, hvalue])) h
  | read reg => cases h; exact .of_lz_eq rfl
  | putSrc index value => exact .of_lz_eq (hostPutSrc_lz h)
  | readOut index => exact .of_lz_eq (hostReadOut_lz h)
  | putTIn index value => cases h; exact .of_lz_eq rfl
  | readTIn index => exact .of_lz_eq (hostReadTIn_lz h)
  | readTOut index => exact .of_lz_eq (hostReadTOut_lz h)
  | reset => exact absurd rfl hreset
  | yield =>
    cases (lzTurnL0_waiting hbusy).symm.trans h
    exact .of_lz_eq rfl

/-! ### The step -/

theorem busy_eq_false_of_ended {u : LzUnit} (h : u.phase = .fault ∨ u.phase = .done) : u.busy = false := by
  obtain h | h := h <;> simp [LzUnit.busy, h]

/-- One step of a unit that is not BUSY, with neither LZ.START nor reset the host's next interaction. -/
theorem sameException_step {s t : State} (hbusy : s.lz.busy = false) (hstart : s.host.head? ≠ some (.write 0 1))
    (hreset : s.host.head? ≠ some .reset) (h : step s = .next t) : SameException s t := by
  cases hhost : s.host with
  | nil =>
    cases ((step_of_host_nil hhost).trans (lzTurnL0_waiting hbusy)).symm.trans h
    exact .of_lz_eq rfl
  | cons op rest =>
    rw [hhost, List.head?_cons] at hstart hreset
    exact sameException_hostAct (s := { s with host := rest }) hbusy (mt (congrArg some) hstart)
      (mt (congrArg some) hreset) ((step_of_host hhost).symm.trans h)

theorem step_of_lzStart {s : State} {rest : List HostOp} (hhost : s.host = .write 0 1 :: rest)
    (hbusy : s.lz.busy = false) : step s = .next (startRun { s with host := rest }) :=
  (step_of_host hhost).trans (exec_lzStart_of_not_busy (s := { s with host := rest }) hbusy)

theorem step_of_reset {s : State} {rest : List HostOp} (hhost : s.host = .reset :: rest) :
    step s = .next (resetEvent { s with host := rest }) :=
  step_of_host hhost

/-- Settles O44: FAULT and DONE are not BUSY, so LZ.START is not ignored; it and reset overwrite the registers. -/
theorem faultStaysUntilStartOrReset : Obligations.FaultStaysUntilStartOrReset := by
  intro s hended
  have hbusy : s.lz.busy = false := busy_eq_false_of_ended hended
  refine ⟨fun t hstep hstart hreset => sameException_step hbusy hstart hreset hstep, fun hhead => ?start,
    fun hhead => ?reset⟩
  case start =>
    obtain ⟨rest, hhost⟩ := List.head?_eq_some_iff.1 hhead
    exact ⟨_, step_of_lzStart hhost hbusy, rfl, rfl, rfl, rfl, rfl, rfl, rfl, rfl, rfl⟩
  case reset =>
    obtain ⟨rest, hhost⟩ := List.head?_eq_some_iff.1 hhead
    exact ⟨_, step_of_reset hhost, rfl, rfl, rfl⟩

end Sys2Proof.Proofs
end

section
/-! PROOF. The host's register accesses while BUSY (70_reset_and_hazards.md R178): LZ.START and the writes of the LZ
configuration each ignore themselves while BUSY; a register read asks for no state of the unit. -/

namespace Sys2Proof.Proofs

open Sys2Proof.Machine Sys2Proof.Laws

/-! ### The two kinds of register write -/

theorem step_of_command {s : State} {rest : List HostOp} {reg : Nat} {value : Word} {i : Instr}
    (hhost : s.host = .write reg value :: rest) (hi : decodeHostWrite reg value = some i) :
    step s = exec i { s with host := rest } :=
  (step_of_host hhost).trans (by rw [hostAct, hostWrite, hi])

theorem step_of_plainWrite {s : State} {rest : List HostOp} {reg : Nat} {value : Word}
    (hhost : s.host = .write reg value :: rest) (hnone : decodeHostWrite reg value = none) :
    step s = .next (writeReg reg value { s with host := rest }) :=
  (step_of_host hhost).trans (by rw [hostAct, hostWrite, hnone])

/-! ### Registers 0 to 4 -/

/-- LZ_CMD has one command (R15), and LZ_CFG to LZ_HINT have none. -/
theorem decodeHostWrite_of_le_four {reg : Nat} {value : Word} (hreg : reg ≤ 4) :
    decodeHostWrite reg value = some .lzStart ∨ decodeHostWrite reg value = none := by
  interval_cases reg
  · exact (em (value = 1)).imp (if_pos ·) (if_neg ·)
  all_goals exact .inr rfl

theorem writeLzConfig_of_busy {s : State} (f : LzUnit → LzUnit) (hbusy : s.lz.busy = true) :
    writeLzConfig f s = s :=
  if_pos hbusy

theorem writeReg_of_busy {s : State} {reg : Nat} (value : Word) (hbusy : s.lz.busy = true) (hreg : reg ≤ 4) :
    writeReg reg value s = s := by
  interval_cases reg
  · rfl
  all_goals simp only [writeReg, writeLzConfig_of_busy _ hbusy]

/-! ### The step -/

theorem step_of_write_of_busy {s : State} {rest : List HostOp} {reg : Nat} {value : Word}
    (hhost : s.host = .write reg value :: rest) (hbusy : s.lz.busy = true) (hreg : reg ≤ 4) :
    step s = .next { s with host := rest } := by
  obtain hstart | hnone := decodeHostWrite_of_le_four (value := value) hreg
  · exact (step_of_command hhost hstart).trans (exec_lzStart_of_busy hbusy)
  · exact (step_of_plainWrite hhost hnone).trans (congrArg _ (writeReg_of_busy value hbusy hreg))

/-- The pending interactions, of which the read takes the first, are in no register. -/
theorem step_of_read {s : State} {rest : List HostOp} {reg : Nat} (hhost : s.host = .read reg :: rest) :
    step s = .next { s with host := rest, hostData := readReg reg s } :=
  step_of_host hhost

/-- Settles O13: of registers 0 to 4 the writes are LZ.START and the plain writes, both ignored while BUSY; a read
returns its register and does nothing else. -/
theorem busyUnitIgnoresHostWrites : Obligations.BusyUnitIgnoresHostWrites := fun _ _ _ =>
  ⟨fun _ hbusy hreg hhost => step_of_write_of_busy hhost hbusy hreg, step_of_read⟩

end Sys2Proof.Proofs
end

section
/-! PROOF. Layout L0 loses no bit (30_encoding.md sections 2 to 5, 7): the decoder and the encoder are inverse on the
tokens, and so they are on the host commands' register writes. -/

namespace Sys2Proof.Proofs

open Sys2Proof.Laws

/-- Settles O1: the decoder reads an encoded token back, form by form. -/
theorem tokenDecodeOfEncode : Obligations.TokenDecodeOfEncode := fun _ rest hw ht =>
  decode_tokenBytes_append hw ht rest

/-! ### What a reader has read, as an encoding -/

/-- What a reader answers is a well-formed token, and what it has read, after the bytes `front`, is that token's
encoding. -/
def ReadsEncoding (front : List Byte) : HeaderReader Instr → Prop
  | .done i => i.wellFormed = true ∧ tokenBytes i = front
  | .fetch k => ∀ b, ReadsEncoding (front ++ [b]) (k b)

theorem ReadsEncoding.of_feed {r : HeaderReader Instr} :
    ∀ {front bs rest : List Byte} {i : Instr}, ReadsEncoding front r → r.feed bs = .ok (i, rest) →
      i.wellFormed = true ∧ tokenBytes i ++ rest = front ++ bs := by
  induction r with
  | done j =>
    intro front bs rest i ⟨hw, hfront⟩ hfeed
    cases hfeed
    exact ⟨hw, congrArg (· ++ bs) hfront⟩
  | fetch k ih =>
    intro front bs rest i hr hfeed
    cases bs with
    | nil => cases hfeed
    | cons b bs => simpa using ih b (hr b) hfeed

theorem longHeader_lenLong_of_fields {op : BitVec 3} {c : Byte} (hs : opShort c = 7) (hl : opLong c = op)
    (b : Byte) : longHeader op (lenLong c b) = [c, b] := by
  subst hl
  simpa only [longControl_fields hs] using longHeader_lenLong (opLong c) (lenHigh c) b

theorem readsEncoding_readDistance {front : List Byte} {token : BitVec 16 → Instr}
    (htoken : ∀ dist, (token dist).wellFormed = true ∧ tokenBytes (token dist) = front ++ distanceBytes dist) :
    ReadsEncoding front (readDistance token) := by
  intro d0 d1
  obtain ⟨hw, hbytes⟩ := htoken (distanceOf d0 d1)
  exact ⟨hw, by rw [hbytes, distanceBytes_distanceOf]; simp⟩

/-- What is left of a 3-bit field when its first seven values are excluded. -/
theorem eq_seven_of_ne {x : BitVec 3} (h0 : x.toNat ≠ 0) (h1 : x.toNat ≠ 1) (h2 : x.toNat ≠ 2) (h3 : x.toNat ≠ 3)
    (h4 : x.toNat ≠ 4) (h5 : x.toNat ≠ 5) (h6 : x.toNat ≠ 6) : x = 7 := by
  have := x.isLt
  exact BitVec.eq_of_toNat_eq (show x.toNat = 7 by omega)

theorem readsEncoding_readLongHeader {c : Byte} (hc : c ≠ 0xFF) (hs : opShort c = 7) :
    ReadsEncoding [c] (readLongHeader c) := by
  have hbyte {n : Nat} (hl : (opLong c).toNat = n) : [longControl (BitVec.ofNat 3 n) (lenHigh c)] = [c] := by
    rw [← hl, BitVec.ofNat_toNat, BitVec.setWidth_eq, longControl_fields hs]
  unfold readLongHeader
  split
  case h_1 hl =>
    have hl : opLong c = 0 := BitVec.eq_of_toNat_eq hl
    exact fun b => ⟨rfl, longHeader_lenLong_of_fields hs hl b⟩
  case h_5 hl =>
    have hl : opLong c = 4 := BitVec.eq_of_toNat_eq hl
    exact fun b => readsEncoding_readDistance fun dist =>
      ⟨rfl, congrArg (· ++ distanceBytes dist) (longHeader_lenLong_of_fields hs hl b)⟩
  case h_8 h0 h1 h2 h3 h4 h5 h6 =>
    have hl : opLong c = 7 := eq_seven_of_ne h0 h1 h2 h3 h4 h5 h6
    exact ⟨bne_iff_ne.2 (lenHigh_ne_of_not_terminator hc hs hl), hbyte (congrArg BitVec.toNat hl)⟩
  case h_2 hl | h_3 hl | h_4 hl | h_6 hl | h_7 hl => exact ⟨rfl, hbyte hl⟩

theorem readsEncoding_readHeader (c : Byte) : ReadsEncoding [c] (readHeader c) := by
  have hbyte {n : Nat} (hs : (opShort c).toNat = n) : [shortControl (BitVec.ofNat 3 n) (lenShort c)] = [c] := by
    rw [← hs, BitVec.ofNat_toNat, BitVec.setWidth_eq, shortControl_fields]
  unfold readHeader
  split_ifs with hc
  · exact ⟨rfl, congrArg (fun b => [b]) hc.symm⟩
  split
  case h_5 hs =>
    exact readsEncoding_readDistance fun dist => ⟨rfl, congrArg (· ++ distanceBytes dist) (hbyte hs)⟩
  case h_8 h0 h1 h2 h3 h4 h5 h6 =>
    have hs : opShort c = 7 := eq_seven_of_ne h0 h1 h2 h3 h4 h5 h6
    exact readsEncoding_readLongHeader hc hs
  case h_1 hs | h_2 hs | h_3 hs | h_4 hs | h_6 hs | h_7 hs => exact ⟨rfl, hbyte hs⟩

/-- Settles O2: each reader of L0 collects the encoding of what it answers. -/
theorem tokenEncodeOfDecode : Obligations.TokenEncodeOfDecode := by
  intro bs rest i h
  have ht : i.isToken = true := decode_isToken h
  cases bs with
  | nil => cases h
  | cons c bs =>
    obtain ⟨hw, hbytes⟩ := (readsEncoding_readHeader c).of_feed h
    exact ⟨hw, ht, hbytes⟩

/-- Settles O4: ten closed words, each evaluated. -/
theorem wordsOfTheSpecDecode : Obligations.WordsOfTheSpecDecode :=
  ⟨rfl, rfl, rfl, rfl, rfl, rfl, rfl, rfl, rfl, rfl⟩

/-! ### The host commands -/

theorem exists_word_iff {value : Word} {i : Instr} :
    (∃ word : ColourWord, word.toNat = value.toNat % 2 ^ 16 ∧ i = .colConv word)
      ↔ i = .colConv (value.setWidth 16) := by
  have hword : (value.setWidth 16).toNat = value.toNat % 2 ^ 16 := BitVec.toNat_setWidth ..
  constructor
  · rintro ⟨word, hw, rfl⟩
    rw [BitVec.eq_of_toNat_eq (hw.trans hword.symm)]
  · exact fun h => ⟨_, hword, h⟩

/-- The three register writes that are commands (R73), each with its command. -/
theorem decodeHostWrite_eq_some_iff (reg : Nat) (value : Word) (i : Instr) :
    decodeHostWrite reg value = some i ↔
      (reg = 0 ∧ value = 1 ∧ i = .lzStart) ∨ (reg = 16 ∧ value = 1 ∧ i = .tileDec) ∨
      (reg = 24 ∧ i = .colConv (value.setWidth 16)) := by
  unfold decodeHostWrite
  split <;> simp_all [eq_comm]

theorem decodeCode_encode_of_command {i : Instr} (h : i.isToken = false) : decodeCode (encode i) = some i := by
  cases i with
  | lzStart | tileDec => rfl
  | colConv word =>
    have hword : (word.setWidth 32).setWidth 16 = word :=
      (BitVec.setWidth_setWidth_of_le _ (by decide)).trans (BitVec.setWidth_eq word)
    exact congrArg (fun w => some (Instr.colConv w)) hword
  | _ => cases h

/-- Settles O5: the three writes, the third with C_IN's 16 bits as a number; and their encodings read back. -/
theorem hostCommandCodes : Obligations.HostCommandCodes := by
  refine ⟨fun reg value i => ?_, fun i h => decodeCode_encode_of_command h⟩
  rw [decodeHostWrite_eq_some_iff, exists_word_iff]

end Sys2Proof.Proofs
end

section
/-! PROOF. The machine's own step: the FETCH step of L0 (43_lz_tokens.md R120, 60_exceptions.md R144, R148), the
host's commands (30_encoding.md R73), waiting (42_lz_run_control.md R103), and what the tokens with a class and the
reserved ones do (R121 to R125). -/

namespace Sys2Proof.Proofs

open Sys2Proof.Machine Sys2Proof.Laws

/-! ### The step -/

/-- Settles O6: the decoded token's meaning runs after the latch of T0 and the count of the header's bytes. -/
theorem stepRunsDecodedToken : Obligations.StepRunsDecodedToken := fun _ _ _ _ hturn hphase hdue hdecode hfit =>
  step_of_decode hturn hphase hdue hdecode hfit

/-- Settles O7: the host's oldest interaction is a register write that decodes to the command. -/
theorem stepRunsHostCommand : Obligations.StepRunsHostCommand := fun _ _ _ _ _ hhost hi => step_of_command hhost hi

theorem busy_eq_false_of_waiting {u : LzUnit} (h : u.phase = .idle ∨ u.phase = .done ∨ u.phase = .fault) :
    u.busy = false := by
  obtain h | h | h := h <;> simp [LzUnit.busy, h]

/-- The turn of a unit that is not BUSY takes the host's `yield` off and does nothing else (log 11). -/
theorem step_of_waiting {s : State} {rest : List HostOp} (hturn : lzHasTurn rest s) (hbusy : s.lz.busy = false) :
    step s = .next { s with host := rest } :=
  (step_of_lzHasTurn hturn).trans (lzTurnL0_waiting (s := { s with host := rest }) hbusy)

/-- Settles O8: none of the three phases is BUSY. -/
theorem waitingUnitDoesNothing : Obligations.WaitingUnitDoesNothing := fun _ _ hturn hphase =>
  step_of_waiting hturn (busy_eq_false_of_waiting hphase)

/-- A header cut short, in the step of the machine (R144, R148). -/
theorem step_of_decode_error {s : State} {rest : List HostOp} {e : DecodeError} (hturn : lzHasTurn rest s)
    (hphase : s.lz.phase = .fetch) (hdue : ¬ hintDue s)
    (hdecode : decode (srcBytes s.src s.lz.sp.toNat (bytesLeft s)) = .error e) :
    step s = .next (lzFault .srcExhausted (advanceBy (bytesLeft s) (latchT0 { s with host := rest }))) :=
  calc step s
    _ = lzTurnL0 exec { s with host := rest } := step_of_lzHasTurn hturn
    _ = fetchStep readHeader exec { s with host := rest } := lzTurnL0_fetch hphase hdue
    _ = _ := fetchStep_of_decode_error (s := { s with host := rest }) hdecode

/-- Settles O25: fault entry takes the latched T0, the control byte's offset, for LZ_FADDR. -/
theorem headerCutShortFaults : Obligations.HeaderCutShortFaults := fun _ _ _ hturn hphase hdue hdecode =>
  step_of_decode_error hturn hphase hdue hdecode

/-! ### The tokens -/

/-- Settles O19: both are `startLiteral` with CNT's value of their length field. -/
theorem literalHeaderStartsARun : Obligations.LiteralHeaderStartsARun := by
  refine ⟨fun s len => ⟨runLengthShort len, runLengthShort_toNat len, ?_, rfl⟩,
    fun s len => ⟨runLengthLong len, runLengthLong_toNat len, ?_, rfl⟩⟩
  · have := len.isLt
    rw [runLengthShort_toNat]; omega
  · have := len.isLt
    rw [runLengthLong_toNat]; omega

/-- A distance in the window puts the source position in the window, where CPY holds LZ_OLEN - d. -/
theorem exists_startCopy_copySource {n : BitVec 11} {dist : BitVec 16} {s : State} (hpos : 1 ≤ dist.toNat)
    (hle : dist.toNat ≤ s.lz.olen.toNat) :
    ∃ p : Word, p.toNat = s.lz.olen.toNat - dist.toNat ∧ startCopy n (copySource s.lz.olen dist) s
      = { s with lz := { s.lz with op := .bref, cnt := n, cpy := p, phase := .runCopy } } := by
  obtain ⟨p, hp, hstart⟩ := exists_startCopy_of_inWindow (n := n) (p := copySource s.lz.olen dist) (s := s)
    (by unfold copySource; omega) (by unfold copySource; omega)
  unfold copySource at hp
  exact ⟨p, by omega, hstart⟩

/-- Settles O20: BREF and BREFX are the start of a copy from LZ_OLEN - d, which is in the window. -/
theorem copyHeaderInWindowStartsARun : Obligations.CopyHeaderInWindowStartsARun := by
  refine ⟨fun s len dist hpos hle => ?_, fun s len dist hpos hle => ?_⟩
  · obtain ⟨p, hp, hstart⟩ := exists_startCopy_copySource (n := runLengthShort len) hpos hle
    exact ⟨_, p, runLengthShort_toNat len, hp, congrArg Host.Outcome.next hstart⟩
  · obtain ⟨p, hp, hstart⟩ := exists_startCopy_copySource (n := runLengthLong len) hpos hle
    exact ⟨_, p, runLengthLong_toNat len, hp, congrArg Host.Outcome.next hstart⟩

/-- Settles O23: each of the eleven means `badOp`, which does not look at the length bits. -/
theorem reservedTokensRaiseBadOp : Obligations.ReservedTokensRaiseBadOp := by
  rintro s len lenHi i (rfl | rfl | rfl | rfl | rfl | rfl | rfl | rfl | rfl | rfl | rfl) <;> rfl

end Sys2Proof.Proofs
end

section
/-! PROOF. The registers as the host reads and writes them (10_state.md R14 to R32), reset (R37,
70_reset_and_hazards.md R170), and the channels of a colour word (40_color_converter.md R83, R84). -/

namespace Sys2Proof.Proofs

open Sys2Proof.Machine Sys2Proof.Laws

/-! ### What the registers read -/

theorem readReg_lzCfg_toNat (s : State) : (readReg 1 s).toNat = if s.lz.hintEn then 1 else 0 := by
  change (lzCfgWord s.lz).toNat = _
  unfold lzCfgWord
  cases s.lz.hintEn <;> rfl

/-- LZ_CMD, T_CMD and the unused numbers have no row in the map (R14). -/
theorem readReg_unused {reg : Nat} (s : State)
    (h : reg = 0 ∨ (12 ≤ reg ∧ reg ≤ 16) ∨ (20 ≤ reg ∧ reg ≤ 23) ∨ 28 ≤ reg) : readReg reg s = 0 := by
  unfold readReg
  split
  case h_19 => rfl
  all_goals omega

/-- Settles O54: each row of the read map, the channels as numbers. -/
theorem registerReadMap : Obligations.RegisterReadMap := fun s =>
  ⟨readReg_lzCfg_toNat s, rfl, rfl, rfl, rfl, rfl, rfl, rfl, rfl, rfl, readReg_cIn_toNat s, readReg_colR_toNat s,
    readReg_colG_toNat s, readReg_colB_toNat s, fun _ h => readReg_unused s h⟩

theorem lzStatusWord_toNat (u : LzUnit) : (lzStatusWord u).toNat = u.phase.code.toNat + 8 * u.stop.code.toNat := by
  unfold lzStatusWord
  cases u.phase <;> cases u.stop <;> rfl

/-- Settles O12: each status word is the code of its enumeration, zero-extended; PHASE and STOP share a word. -/
theorem statusAndCauseCodes : Obligations.StatusAndCauseCodes := by
  intro s
  refine ⟨?status, ?cause, ?tStatus, ?tCause⟩
  case status =>
    change (lzStatusWord s.lz).toNat = _
    rw [lzStatusWord_toNat]
    cases s.lz.phase <;> cases s.lz.stop <;> rfl
  case cause =>
    change (s.lz.cause.code.setWidth 32).toNat = _
    cases s.lz.cause <;> rfl
  case tStatus =>
    change (s.tile.status.code.setWidth 32).toNat = _
    cases s.tile.status <;> rfl
  case tCause =>
    change (s.tile.cause.code.setWidth 32).toNat = _
    cases s.tile.cause <;> rfl

/-! ### Reset -/

theorem readReg_of_atReset {t : State} (hlz : t.lz = LzUnit.atReset) (htile : t.tile = TileUnit.atReset)
    (hcIn : t.cIn = 0) (reg : Nat) : readReg reg t = 0 := by
  unfold readReg
  rw [hlz, htile, hcIn]
  split <;> rfl

/-- Settles O9: the reset event writes every register and empties the buffers. -/
theorem resetClearsEveryRegister : Obligations.ResetClearsEveryRegister := fun _ _ hhost =>
  ⟨_, step_of_reset hhost, readReg_of_atReset rfl rfl rfl, rfl, rfl, rfl, rfl, rfl, rfl, rfl, rfl, rfl, rfl, rfl,
    fun _ => ⟨rfl, rfl, rfl⟩, rfl, rfl, rfl, rfl⟩

/-- Settles O10: the state after reset is IDLE with nothing pending, so each step is a turn that waits. -/
theorem stateAfterReset : Obligations.StateAfterReset := by
  refine ⟨readReg_of_atReset rfl rfl rfl, rfl, rfl, rfl, rfl, fun _ => ⟨rfl, rfl, rfl⟩, fun k => ?_⟩
  have hstep : step State.reset = .next State.reset := step_of_waiting (.inl ⟨rfl, rfl⟩) rfl
  induction k with
  | zero => rfl
  | succ k ih => exact (runs_succ_next hstep).trans ih

/-- Reset meets the invariant because it has no output, no value and no exception. -/
theorem machineSound_resetWith {outCap : Word} (hcap : Config.outCapLegal outCap) :
    MachineSound (State.resetWith outCap) where
  cap := hcap
  lz := by constructor <;> simp [State.resetWith, LzUnit.atReset]
  op_lit _ := rfl
  op_bref h := nomatch h
  tile := ⟨by simp [State.resetWith, TileUnit.atReset], fun _ => rfl⟩
  mem :=
    have ⟨hsrc, hout, htIn, htOut⟩ := wf_resetWith outCap
    { src := hsrc, src_nonzero := fun _ hp => (List.not_mem_nil hp).elim, out := hout, tIn := htIn, tOut := htOut }
  cnt_le _ := Nat.zero_le _

/-- Settles O11: the vectors' capacity is one that R7 admits. -/
theorem resetMeetsInvariant : Obligations.ResetMeetsInvariant :=
  ⟨machineSound_resetWith (by decide), fun _ => machineSound_resetWith⟩

/-! ### The host's register writes -/

/-- No command has one of these numbers with such a value, and no plain write has them either. -/
theorem writeReg_other {reg : Nat} (value : Word) (s : State) (h0 : reg = 0 ∨ 5 ≤ reg) (h17 : reg ≠ 17) :
    writeReg reg value s = s := by
  unfold writeReg
  split
  case h_6 => rfl
  all_goals omega

/-- Settles O15: such a write is no command (R73) and no row of the write map. -/
theorem otherWritesAreIgnored : Obligations.OtherWritesAreIgnored := by
  intro s rest reg value hhost hreg
  have hnone : decodeHostWrite reg value = none := by
    cases hi : decodeHostWrite reg value with
    | none => rfl
    | some i =>
      obtain ⟨rfl, rfl, -⟩ | ⟨rfl, rfl, -⟩ | ⟨rfl, -⟩ := (decodeHostWrite_eq_some_iff _ _ _).1 hi <;>
        simp at hreg
  rw [step_of_plainWrite hhost hnone, writeReg_other value _ (by omega) (by omega)]

theorem writeLzConfig_of_not_busy {s : State} (f : LzUnit → LzUnit) (hbusy : s.lz.busy = false) :
    writeLzConfig f s = { s with lz := f s.lz } :=
  if_neg (ne_true_of_eq_false hbusy)

theorem getLsbD_zero_toNat (value : Word) : (if value.getLsbD 0 then 1 else 0) = value.toNat % 2 := by
  rw [BitVec.getLsbD, Nat.testBit_zero]
  rcases Nat.mod_two_eq_zero_or_one value.toNat with h | h <;> simp [h]

/-- A plain write reaches at most the register it names. -/
theorem readReg_writeReg_other {reg r : Nat} (value : Word) (s : State) (hr : r ≠ reg) :
    readReg r (writeReg reg value s) = readReg r s := by
  unfold writeReg
  split
  case h_6 => rfl
  case h_5 =>
    unfold readReg
    split <;> try rfl
    exact absurd rfl hr
  all_goals
    unfold writeLzConfig
    split_ifs
    · rfl
    · unfold readReg
      split <;> try rfl
      exact absurd rfl hr

theorem writeReg_frame (reg : Nat) (value : Word) (s : State) :
    (writeReg reg value s).lz.op = s.lz.op ∧ (writeReg reg value s).lz.cnt = s.lz.cnt ∧
    (writeReg reg value s).lz.cpy = s.lz.cpy ∧ (writeReg reg value s).lz.t0 = s.lz.t0 ∧
    (writeReg reg value s).out = s.out ∧ (writeReg reg value s).src = s.src ∧
    (writeReg reg value s).tile.tIn = s.tile.tIn ∧ (writeReg reg value s).tile.tOut = s.tile.tOut ∧
    (writeReg reg value s).host = s.host := by
  unfold writeReg
  split
  case h_5 | h_6 => exact ⟨rfl, rfl, rfl, rfl, rfl, rfl, rfl, rfl, rfl⟩
  all_goals
    unfold writeLzConfig
    split_ifs <;> exact ⟨rfl, rfl, rfl, rfl, rfl, rfl, rfl, rfl, rfl⟩

/-- The configuration registers of a unit that is not BUSY, and T_LEN, take the word, LZ_CFG its bit 0 (R16). -/
theorem readReg_writeReg_same {s : State} {reg : Nat} (value : Word)
    (hreg : (s.lz.busy = false ∧ (reg = 1 ∨ reg = 2 ∨ reg = 3 ∨ reg = 4)) ∨ reg = 17) :
    (readReg reg (writeReg reg value s)).toNat = if reg = 1 then value.toNat % 2 else value.toNat := by
  obtain ⟨hbusy, rfl | rfl | rfl | rfl⟩ | rfl := hreg
  case inr => rfl
  all_goals simp only [writeReg, writeLzConfig_of_not_busy _ hbusy]
  case inl.inl => exact (readReg_lzCfg_toNat _).trans (getLsbD_zero_toNat value)
  all_goals rfl

/-- A write of C_IN reaches the COL unit's four registers. -/
theorem readReg_cIn_other {r : Nat} (word : ColourWord) (s : State)
    (hr : r ≠ 24 ∧ r ≠ 25 ∧ r ≠ 26 ∧ r ≠ 27) : readReg r { s with cIn := word } = readReg r s := by
  unfold readReg
  split <;> try rfl
  all_goals omega

theorem decodeHostWrite_config {reg : Nat} {value : Word} (h : reg = 1 ∨ reg = 2 ∨ reg = 3 ∨ reg = 4 ∨ reg = 17) :
    decodeHostWrite reg value = none := by
  obtain rfl | rfl | rfl | rfl | rfl := h <;> rfl

/-- Settles O14: a write of C_IN is COL.CONV, the others are plain writes. -/
theorem writtenRegisterReadsBack : Obligations.WrittenRegisterReadsBack := by
  intro s rest reg value hhost hreg
  by_cases h24 : reg = 24
  · subst h24
    exact ⟨_, step_of_command hhost rfl, (readReg_cIn_toNat _).trans (BitVec.toNat_setWidth ..),
      fun r hr hchannel => readReg_cIn_other _ _ (by omega), rfl, rfl, rfl, rfl, rfl, rfl, rfl, rfl, rfl⟩
  · have hplain := hreg.imp_right (Or.resolve_right · h24)
    refine ⟨_, step_of_plainWrite hhost (decodeHostWrite_config (by omega)), ?_,
      fun r hr _ => readReg_writeReg_other value _ hr, writeReg_frame reg value _⟩
    rw [if_neg h24]
    exact readReg_writeReg_same (s := { s with host := rest }) value hplain

/-! ### The channels of a colour word -/

/-- Settles O52: each channel is its field times 8, and the fields are the digits of the word to base 32. -/
theorem colourChannelsDetermineTheWord : Obligations.ColourChannelsDetermineTheWord := by
  intro word
  rw [colR_toNat, colG_toNat, colB_toNat]
  omega

theorem colWord_toNat (b0 b1 : Byte) : (colWord b0 b1).toNat = b0.toNat + 256 * b1.toNat :=
  distanceOf_toNat b0 b1

/-- Settles O53: the fields of the word as digits of its two bytes. -/
theorem colourWordFromTwoBytes : Obligations.ColourWordFromTwoBytes := by
  intro b0 b1
  have h0 := b0.isLt
  have h1 := b1.isLt
  rw [colR_toNat, colG_toNat, colB_toNat, colWord_toNat]
  refine ⟨rfl, ?_, ?_, ?_⟩ <;> omega

end Sys2Proof.Proofs
end

section
/-! PROOF. The machine under any layout (30_encoding.md R60, 93_implementation_defined.md U8): what its step is, that
layout L0 is one of them, and the next states of the LZ unit's turn as a relation that says what each took to come
about. -/

namespace Sys2Proof.Proofs

open Sys2Proof.Machine Sys2Proof.Laws

/-! ### Layout L0 -/

theorem nonEmpty_classOf (i : Instr) (olen : Word) : (classOf i olen).nonEmpty := by
  have hne {n : BitVec 11} {k : Nat} (h : n.toNat = k + 1) : n ≠ 0 := by rintro rfl; cases h
  cases i with
  | lit len | bref len dist => exact hne (runLengthShort_toNat len)
  | litx len | brefx len dist => exact hne (runLengthLong_toNat len)
  | _ => trivial

theorem l0_contract : Layout.l0.contract := fun c =>
  (everyAnswer_map _ _ _).2 (everyAnswer_mono (fun i _ => nonEmpty_classOf i) _ (readHeader_isToken c))

/-- A token of L0 means what its class means. -/
theorem exec_eq_startClass {i : Instr} (h : i.isToken = true) (s : State) :
    exec i s = startClass (classOf i s.lz.olen) s := by
  cases i with
  | lzStart | tileDec | colConv _ => cases h
  | _ => rfl

theorem fetchStep_l0 (s : State) :
    fetchStep Layout.l0.reader (fun f t => startClass (f t.lz.olen) t) s = fetchStep readHeader exec s := by
  have hmap : readSource (.fetch Layout.l0.reader) (latchT0 s) = _ :=
    readSource_map classOf (.fetch readHeader) (latchT0 s)
  unfold fetchStep
  rw [hmap]
  cases hread : readSource (.fetch readHeader) (latchT0 s) with
  | raised cause t => rfl
  | read i t =>
    have ht : i.isToken = true :=
      readSource_of_everyAnswer (p := fun i : Instr => i.isToken = true) (.fetch readHeader) readHeader_isToken hread
    exact (exec_eq_startClass ht t).symm

theorem lzTurnWith_l0 (s : State) : lzTurnWith Layout.l0 s = lzTurnL0 exec s := by
  by_cases h : s.lz.phase = .fetch ∧ ¬ hintDue s
  · rw [lzTurnWith_fetch h.1 h.2, lzTurnL0_fetch h.1 h.2, fetchStep_l0]
  · exact lzTurnWith_eq h

theorem stepWith_l0 (s : State) : stepWith Layout.l0 s = step s := by
  rw [stepWith, step, funext lzTurnWith_l0]

/-- Settles O38: L0's classes are those of its tokens' meanings, so the two machines' turns are one function. -/
theorem l0IsAnInstanceOfTheContract : Obligations.L0IsAnInstanceOfTheContract := by
  refine ⟨l0_contract, ⟨l0_contract, by decide⟩, lzTurnWith_l0, stepWith_l0, ?_⟩
  change ({ step := stepWith Layout.l0, .. } : Host.Core) = _
  rw [funext stepWith_l0]
  rfl

/-! ### The step under a layout -/

/-- Outside a FETCH step past its hint check no layout is asked. -/
theorem stepWith_eq_step {L : Layout} {s : State}
    (h : ¬ (s.lz.phase = .fetch ∧ ¬ hintDue s ∧ ∃ rest, lzHasTurn rest s)) : stepWith L s = step s := by
  have hturn {rest : List HostOp} (ht : lzHasTurn rest s) : stepWith L s = step s := by
    rw [stepWith_of_lzHasTurn ht, step_of_lzHasTurn ht]
    exact lzTurnWith_eq (s := { s with host := rest }) fun ⟨hphase, hdue⟩ => h ⟨hphase, hdue, rest, ht⟩
  cases hhost : s.host with
  | nil => exact hturn (.inl ⟨hhost, rfl⟩)
  | cons op rest =>
    by_cases hop : op = .yield
    · exact hturn (.inr (hop ▸ hhost))
    · rw [stepWith_of_host hhost, step_of_host hhost]
      exact hostAct_unitTurn hop ..

theorem stepWith_of_fetch {L : Layout} {s : State} {rest : List HostOp} (hturn : lzHasTurn rest s)
    (hphase : s.lz.phase = .fetch) (hdue : ¬ hintDue s) :
    stepWith L s = fetchStep L.reader (fun f t => startClass (f t.lz.olen) t) { s with host := rest } :=
  (stepWith_of_lzHasTurn hturn).trans (lzTurnWith_fetch (s := { s with host := rest }) hphase hdue)

/-- Settles O56: the FETCH step past its hint check is the one place where the layout's reader is used. -/
theorem stepUnderAnyLayout : Obligations.StepUnderAnyLayout := by
  refine fun L s => ⟨stepWith_eq_step, fun rest hphase hdue hturn => ?_, fun _ => rfl, rfl, rfl⟩
  rw [stepWith_of_fetch hturn hphase hdue]
  exact ⟨fun n f hfeed hfit => fetchStep_of_feed (s := { s with host := rest }) hfeed hfit,
    fun e hfeed => fetchStep_of_feed_error (s := { s with host := rest }) hfeed⟩

/-! ### The next states of the unit's turn -/

/-- The state in which a token's class begins (R121, R123, R125, R126). -/
def beginClass (cls : TokenClass) (s : State) : State :=
  match cls with
  | .lit n => startLiteral n s
  | .bref n p => startCopy n p s
  | .terminator => stopByTerminator s
  | .unrecognised => lzFault .badOp s

theorem startClass_eq_next (cls : TokenClass) (s : State) : startClass cls s = .next (beginClass cls s) := by
  cases cls <;> rfl

/-- The next states of the LZ unit's turn under a layout, each with what of the state it takes to get there. -/
inductive TurnWith (L : Layout) (s : State) : State → Prop where
  /-- The unit is not BUSY and waits. -/
  | wait (hbusy : s.lz.busy = false) : TurnWith L s s
  /-- The size hint ends the run (R104). -/
  | hint (hbusy : s.lz.busy = true) (hdue : hintDue s) : TurnWith L s (stopByHint s)
  /-- The slice ends inside a header (R144, R148). -/
  | headerCut (hphase : s.lz.phase = .fetch) (hdue : ¬ hintDue s) (e : DecodeError)
      (hfeed : (HeaderReader.fetch L.reader).feed (srcBytes s.src s.lz.sp.toNat (bytesLeft s)) = .error e) :
      TurnWith L s (lzFault .srcExhausted (advanceBy (bytesLeft s) (latchT0 s)))
  /-- A whole header of `n` bytes, and its class begins (R120). -/
  | token (hphase : s.lz.phase = .fetch) (hdue : ¬ hintDue s) (n : Nat) (f : Word → TokenClass) (hpos : 1 ≤ n)
      (hfit : s.lz.sp.toNat + n ≤ s.lz.srcLen.toNat)
      (hfeed : (HeaderReader.fetch L.reader).feed (srcBytes s.src s.lz.sp.toNat n) = .ok (f, [])) :
      TurnWith L s (beginClass (f s.lz.olen) (advanceBy n (latchT0 s)))
  /-- A literal payload byte is missing (R127). -/
  | payloadCut (hphase : s.lz.phase = .runLit) (hdue : ¬ hintDue s) (hsrc : s.lz.srcLen.toNat ≤ s.lz.sp.toNat) :
      TurnWith L s (lzFault .srcExhausted s)
  /-- OUT is full in a run (R127, R128). -/
  | full (hphase : s.lz.phase = .runLit ∧ s.lz.sp.toNat < s.lz.srcLen.toNat ∨ s.lz.phase = .runCopy)
      (hdue : ¬ hintDue s) (hout : s.outCap.toNat ≤ s.lz.olen.toNat) : TurnWith L s (lzFault .outFull s)
  /-- A literal byte moves (R127). -/
  | literalByte (hphase : s.lz.phase = .runLit) (hdue : ¬ hintDue s) (hsrc : s.lz.sp.toNat < s.lz.srcLen.toNat)
      (hout : s.lz.olen.toNat < s.outCap.toNat) :
      TurnWith L s (countByte (appendByte (nextSourceByte s) (advanceSource s)))
  /-- A byte is copied (R128). -/
  | copyByte (hphase : s.lz.phase = .runCopy) (hdue : ¬ hintDue s) (hout : s.lz.olen.toNat < s.outCap.toNat)
      (v : Byte) (hv : Memory.valueAt s.lz.cpy.toNat s.out = some v) :
      TurnWith L s (countByte (advanceCopy (appendByte v s)))

/-- The unit's turn answers one of them, or faults at a copy from an index with no value. -/
theorem lzTurnWith_answers (L : Layout) (s : State) :
    (∃ t, lzTurnWith L s = .next t ∧ TurnWith L s t) ∨
    (s.lz.phase = .runCopy ∧ Memory.valueAt s.lz.cpy.toNat s.out = none ∧
      lzTurnWith L s = .fault (.outByteWithoutValue s.lz.cpy.toNat)) := by
  rcases lzTurnWith_cases L s with ⟨hbusy, h⟩ | ⟨hbusy, hdue, h⟩ |
    ⟨hphase, hdue, ⟨n, f, hpos, hfit, hfeed, h⟩ | ⟨e, hfeed, h⟩⟩ | ⟨hphase, hdue, h⟩ | ⟨hphase, hdue, h⟩
  · exact .inl ⟨_, h, .wait hbusy⟩
  · exact .inl ⟨_, h, .hint hbusy hdue⟩
  · exact .inl ⟨_, h.trans (startClass_eq_next _ _), .token hphase hdue n f hpos hfit hfeed⟩
  · exact .inl ⟨_, h, .headerCut hphase hdue e hfeed⟩
  · rcases runLitStep_cases s with ⟨hsrc, hrun⟩ | ⟨hsrc, hout, hrun⟩ | ⟨hsrc, hout, hrun⟩
    · exact .inl ⟨_, h.trans hrun, .payloadCut hphase hdue hsrc⟩
    · exact .inl ⟨_, h.trans hrun, .full (.inl ⟨hphase, hsrc⟩) hdue hout⟩
    · exact .inl ⟨_, h.trans hrun, .literalByte hphase hdue hsrc hout⟩
  · rcases runCopyStep_cases s with ⟨hout, hrun⟩ | ⟨hout, v, hv, hrun⟩ | ⟨-, hv, hrun⟩
    · exact .inl ⟨_, h.trans hrun, .full (.inr hphase) hdue hout⟩
    · exact .inl ⟨_, h.trans hrun, .copyByte hphase hdue hout v hv⟩
    · exact .inr ⟨hphase, hv, h.trans hrun⟩

theorem TurnWith.of_next {L : Layout} {s t : State} (h : lzTurnWith L s = .next t) : TurnWith L s t := by
  rcases lzTurnWith_answers L s with ⟨u, hu, ht⟩ | ⟨-, -, hf⟩
  · cases h.symm.trans hu
    exact ht
  · cases h.symm.trans hf

/-- Each of them is what the turn answers. -/
theorem TurnWith.next {L : Layout} {s t : State} (h : TurnWith L s t) : lzTurnWith L s = .next t := by
  cases h with
  | wait hbusy => exact lzTurn_idle hbusy
  | hint hbusy hdue => exact lzTurn_hint hbusy ((hintReached_iff _).2 hdue)
  | headerCut hphase hdue e hfeed => exact (lzTurnWith_fetch hphase hdue).trans (fetchStep_of_feed_error hfeed)
  | token hphase hdue n f hpos hfit hfeed =>
    exact (lzTurnWith_fetch hphase hdue).trans
      ((fetchStep_of_feed hfeed hfit).trans (startClass_eq_next _ _))
  | payloadCut hphase hdue hsrc =>
    rw [lzTurnWith_eq (by simp [hphase]), lzTurnL0_runLit hphase hdue, runLitStep_of_exhausted hsrc]
  | full hphase hdue hout =>
    rcases hphase with ⟨hphase, hsrc⟩ | hphase
    · rw [lzTurnWith_eq (by simp [hphase]), lzTurnL0_runLit hphase hdue, runLitStep_of_full hsrc hout]
    · rw [lzTurnWith_eq (by simp [hphase]), lzTurnL0_runCopy hphase hdue, runCopyStep_of_full hout]
  | literalByte hphase hdue hsrc hout =>
    rw [lzTurnWith_eq (by simp [hphase]), lzTurnL0_runLit hphase hdue, runLitStep_of_room hsrc hout]
  | copyByte hphase hdue hout v hv =>
    rw [lzTurnWith_eq (by simp [hphase]), lzTurnL0_runCopy hphase hdue, runCopyStep_of_room hout hv]

/-- The contract is about the classes that come to begin (R60). -/
theorem nonEmpty_of_feed {L : Layout} (hL : L.contract) {bs rest : List Byte} {f : Word → TokenClass}
    (hfeed : (HeaderReader.fetch L.reader).feed bs = .ok (f, rest)) (olen : Word) : (f olen).nonEmpty :=
  feed_of_everyAnswer (p := fun f : Word → TokenClass => ∀ olen, (f olen).nonEmpty) (.fetch L.reader) hL hfeed olen

end Sys2Proof.Proofs
end

section
/-! PROOF. The invariants of the LZ unit (10_state.md R36, R21, R22) through every operation of its turn, under every
layout whose runs are not empty. -/

namespace Sys2Proof

open Sys2Proof.Machine Sys2Proof.Laws

/-! ### The phases -/

theorem Proofs.busy_of_run {s : State} (h : s.lz.phase = .runLit ∨ s.lz.phase = .runCopy) : s.lz.busy = true :=
  (busy_iff _).2 (.inr h)

theorem Proofs.busy_of_fetch {s : State} (h : s.lz.phase = .fetch) : s.lz.busy = true :=
  (busy_iff _).2 (.inl h)

/-- The end of a run step leaves the unit in the run or in FETCH. -/
theorem Proofs.busy_countByte {s : State} (hrun : s.lz.phase = .runLit ∨ s.lz.phase = .runCopy) :
    (countByte s).lz.busy = true := by
  rw [busy_iff, countByte_lz_phase]
  split_ifs
  · exact .inl rfl
  · exact .inr hrun

theorem Proofs.phase_of_busy {s : State} (hbusy : s.lz.busy = true) : s.lz.phase ≠ .done ∧ s.lz.phase ≠ .fault := by
  obtain h | h | h := (busy_iff _).1 hbusy <;> simp [h]

/-- The hint check has been passed: the output is below the hint (R36 item 3). -/
theorem Proofs.olen_lt_hint {s : State} (hdue : ¬ hintDue s) (hen : s.lz.hintEn = true) :
    s.lz.olen.toNat < s.lz.hint.toNat :=
  not_le.1 fun hle => hdue ⟨hen, hle⟩

open Sys2Proof.Proofs

/-! ### A BUSY unit -/

section

variable {s : State} (h : LzSound s)

include h

theorem LzSound.stop_none (hbusy : s.lz.busy = true) : s.lz.stop = .none :=
  not_not.1 (mt h.done_iff.2 (phase_of_busy hbusy).1)

theorem LzSound.cause_none (hbusy : s.lz.busy = true) : s.lz.cause = .none :=
  not_not.1 (mt h.fault_iff.2 (phase_of_busy hbusy).2)

theorem LzSound.faddr_eq_zero (hbusy : s.lz.busy = true) : s.lz.faddr = 0 :=
  h.faddr_zero (phase_of_busy hbusy).2

/-! ### The ends of a run -/

theorem LzSound.lzFault {c : LzCause} (hc : c ≠ .none) : LzSound (lzFault c s) :=
  { h with
    sp_le := nofun
    olen_le_hint := nofun
    cnt_pos := fun hp => by simp at hp
    cpy_lt := nofun
    done_iff := by simp
    fault_iff := by simpa using hc
    faddr_zero := fun hp => absurd rfl hp }

/-- A run ends without a fault, by the hint or by the terminator. -/
theorem LzSound.stopBy {stop : Stop} (hstop : stop ≠ .none) (hbusy : s.lz.busy = true) :
    LzSound { s with lz := { s.lz with stop := stop, phase := .done } } :=
  { h with
    sp_le := nofun
    olen_le_hint := nofun
    cnt_pos := fun hp => by simp at hp
    cpy_lt := nofun
    done_iff := by simpa using hstop
    fault_iff := by simp [h.cause_none hbusy]
    faddr_zero := fun _ => h.faddr_eq_zero hbusy }

/-! ### A token's header -/

theorem LzSound.latchT0 : LzSound (latchT0 s) := { h with }

/-- Bytes of the slice are read: SP does not wrap, nor does LZ_CONSUMED, being at most SP. -/
theorem LzSound.advanceBy {n : Nat} (hfit : s.lz.sp.toNat + n ≤ max s.lz.sp.toNat s.lz.srcLen.toNat) :
    LzSound (advanceBy n s) := by
  have hsrcLen := s.lz.srcLen.isLt
  have hlt := s.lz.sp.isLt
  have heq := h.sp_eq
  have hsp : (Laws.advanceBy n s).lz.sp.toNat = s.lz.sp.toNat + n := toNat_add_ofNat (by omega)
  have hconsumed : (Laws.advanceBy n s).lz.consumed.toNat = s.lz.consumed.toNat + n := toNat_add_ofNat (by omega)
  refine { h with sp_eq := ?_, sp_le := fun hbusy => ?_ }
  · rw [hsp, hconsumed, heq]
    exact Nat.add_assoc ..
  · have hle := h.sp_le hbusy
    rw [hsp]
    change _ ≤ max s.lz.base.toNat s.lz.srcLen.toNat
    omega

theorem LzSound.startLiteral {n : BitVec 11} (hn : n ≠ 0) (hbusy : s.lz.busy = true) :
    LzSound (startLiteral n s) :=
  { h with
    sp_le := fun _ => h.sp_le hbusy
    olen_le_hint := fun _ => h.olen_le_hint hbusy
    cnt_pos := fun _ => Nat.pos_of_ne_zero fun h0 => hn (BitVec.eq_of_toNat_eq h0)
    cpy_lt := nofun
    done_iff := by simp [h.stop_none hbusy]
    fault_iff := by simp [h.cause_none hbusy]
    faddr_zero := fun _ => h.faddr_eq_zero hbusy }

theorem LzSound.startCopy {n : BitVec 11} {p : Int} (hn : n ≠ 0) (hbusy : s.lz.busy = true) :
    LzSound (startCopy n p s) := by
  have hlt := s.lz.olen.isLt
  rcases startCopy_cases n p s with ⟨-, he⟩ | ⟨-, he⟩ | ⟨h0, hp, he⟩ <;> rw [he]
  · exact h.lzFault (by simp)
  · exact h.lzFault (by simp)
  · exact { h with
      sp_le := fun _ => h.sp_le hbusy
      olen_le_hint := fun _ => h.olen_le_hint hbusy
      cnt_pos := fun _ => Nat.pos_of_ne_zero fun h0 => hn (BitVec.eq_of_toNat_eq h0)
      cpy_lt := fun _ => by
        change (BitVec.ofNat 32 p.toNat).toNat < s.lz.olen.toNat
        rw [BitVec.toNat_ofNat]
        omega
      done_iff := by simp [h.stop_none hbusy]
      fault_iff := by simp [h.cause_none hbusy]
      faddr_zero := fun _ => h.faddr_eq_zero hbusy }

/-- A class that the contract admits begins in a sound state. -/
theorem LzSound.beginClass {cls : TokenClass} (hcls : cls.nonEmpty) (hbusy : s.lz.busy = true) :
    LzSound (beginClass cls s) := by
  cases cls with
  | lit n => exact h.startLiteral hcls hbusy
  | bref n p => exact h.startCopy hcls hbusy
  | terminator => exact h.stopBy (by simp) hbusy
  | unrecognised => exact h.lzFault (by simp)

/-! ### A byte of a run -/

theorem LzSound.advanceSource (hsrc : s.lz.sp.toNat < s.lz.srcLen.toNat) : LzSound (advanceSource s) :=
  h.advanceBy (n := 1) (by omega)

/-- The byte goes to the index LZ_OLEN, so that every index below the new LZ_OLEN is written. -/
theorem LzSound.appendByte {v : Byte} (hdue : ¬ hintDue s) (hout : s.lz.olen.toNat < s.outCap.toNat) :
    LzSound (appendByte v s) := by
  have holen : (s.lz.olen + 1).toNat = s.lz.olen.toNat + 1 := toNat_succ_of_lt (y := s.outCap) hout
  refine { h with olen_le_cap := ?_, olen_le_hint := fun _ hen => ?_, cpy_lt := fun hp => ?_, written := ?_ }
  · rw [appendByte_lz_olen, holen]
    exact hout
  · rw [appendByte_lz_olen, holen]
    exact Proofs.olen_lt_hint hdue hen
  · rw [appendByte_lz_olen, holen]
    exact Nat.lt_succ_of_lt (h.cpy_lt hp)
  · intro k hk
    rw [appendByte_lz_olen, holen] at hk
    rw [appendByte_out, valueAt_put]
    split_ifs with hk'
    · rfl
    · exact h.written k (by omega)

theorem LzSound.advanceCopy (hcpy : s.lz.cpy.toNat + 1 < s.lz.olen.toNat) : LzSound (advanceCopy s) := by
  have hlt := s.lz.olen.isLt
  refine { h with cpy_lt := fun _ => ?_ }
  rw [advanceCopy_lz_cpy, toNat_succ_of_lt (y := s.lz.olen) (show s.lz.cpy.toNat < s.lz.olen.toNat by omega)]
  exact hcpy

/-- The end of a run step: in a run of at least one more byte CNT is still at least 1. -/
theorem LzSound.countByte (hrun : s.lz.phase = .runLit ∨ s.lz.phase = .runCopy) : LzSound (countByte s) := by
  have hbusy := busy_of_run hrun
  have hcnt := countByte_cnt_toNat (h.cnt_pos hrun)
  have hphase := countByte_phase (h.cnt_pos hrun)
  have hbusy' := busy_countByte hrun
  refine { h with
    sp_le := fun _ => h.sp_le hbusy
    olen_le_hint := fun _ => h.olen_le_hint hbusy
    cnt_pos := fun hrun' => ?_
    cpy_lt := fun hcopy => ?_
    done_iff := iff_of_false (phase_of_busy hbusy').1 (not_not.2 (h.stop_none hbusy))
    fault_iff := iff_of_false (phase_of_busy hbusy').2 (not_not.2 (h.cause_none hbusy))
    faddr_zero := fun _ => h.faddr_eq_zero hbusy }
  · have hpos := h.cnt_pos hrun
    rw [hphase] at hrun'
    rw [hcnt]
    split_ifs at hrun' with hlast
    · simp at hrun'
    · omega
  · rw [hphase] at hcopy
    split_ifs at hcopy
    exact h.cpy_lt hcopy

/-! ### The turn -/

/-- The unit's turn keeps the invariants when the runs that the layout yields are not empty. -/
theorem LzSound.turnWith {L : Layout} {t : State} (hL : L.contract) (hturn : TurnWith L s t) : LzSound t := by
  cases hturn with
  | wait _ => exact h
  | hint hbusy _ => exact h.stopBy (by simp) hbusy
  | headerCut _ _ _ _ =>
    exact (h.latchT0.advanceBy (by simp only [bytesLeft, latchT0_lz_sp, latchT0_lz_srcLen]; omega)).lzFault (by simp)
  | token hphase _ n f _ hfit hfeed =>
    exact (h.latchT0.advanceBy (by simp only [latchT0_lz_sp, latchT0_lz_srcLen]; omega)).beginClass
      (nonEmpty_of_feed hL hfeed _) (busy_of_fetch hphase)
  | payloadCut _ _ _ => exact h.lzFault (by simp)
  | full _ _ _ => exact h.lzFault (by simp)
  | literalByte hphase hdue hsrc hout =>
    exact ((h.advanceSource hsrc).appendByte hdue hout).countByte (.inl hphase)
  | copyByte hphase hdue hout v hv =>
    have hcpy := h.cpy_lt hphase
    have hroom : (s.lz.olen + 1).toNat = s.lz.olen.toNat + 1 := toNat_succ_of_lt (y := s.outCap) hout
    have hcpy' : (Machine.appendByte v s).lz.cpy.toNat + 1 < (Machine.appendByte v s).lz.olen.toNat := by
      rw [appendByte_lz_olen, hroom]
      exact Nat.succ_lt_succ hcpy
    exact ((h.appendByte hdue hout).advanceCopy hcpy').countByte (.inr hphase)

/-- In a sound state the byte that a copy reads has a value (R46), so the turn answers. -/
theorem LzSound.exists_turnWith (L : Layout) : ∃ t, lzTurnWith L s = .next t ∧ TurnWith L s t := by
  rcases lzTurnWith_answers L s with hnext | ⟨hphase, hnone, -⟩
  · exact hnext
  · have hsome := h.written _ (h.cpy_lt hphase)
    rw [hnone] at hsome
    cases hsome

end

/-- Settles O37: operation by operation. -/
theorem Proofs.anyLayoutKeepsTheUnitSound : Obligations.AnyLayoutKeepsTheUnitSound := fun _ hL _ _ hs hnext =>
  hs.turnWith hL (.of_next hnext)

end Sys2Proof
end

section
/-! PROOF. What the host's interactions can do (70_reset_and_hazards.md R172 to R179, R183): their next states as a
relation, the accesses of SRC, OUT, T_IN and T_OUT, and that a run is left alone. -/

namespace Sys2Proof.Proofs

open Sys2Proof.Machine Sys2Proof.Laws

/-! ### The next states of a host interaction -/

/-- The next states of the host's interactions, but for reset and waiting. -/
inductive HostTo (s : State) : State → Prop where
  /-- The write is ignored (R14, R15, R178). -/
  | ignored : HostTo s s
  /-- LZ.START (R102). -/
  | start (hbusy : s.lz.busy = false) : HostTo s (startRun s)
  /-- TILE.DEC, the size right (R91) or wrong (R150). -/
  | tileDecoded : HostTo s (decodeTile s)
  | tileFaulted : HostTo s (tileFault s)
  /-- COL.CONV (R80). -/
  | colour (word : ColourWord) : HostTo s { s with cIn := word }
  /-- A configuration register of the LZ unit takes a value (R16 to R19). -/
  | configured (hbusy : s.lz.busy = false) (hintEn : Bool) (srcLen start hint : Word) :
      HostTo s { s with lz := { s.lz with hintEn := hintEn, srcLen := srcLen, start := start, hint := hint } }
  /-- T_LEN takes a value (R28). -/
  | tileLength (len : Word) : HostTo s { s with tile := { s.tile with len := len } }
  /-- A read returns. -/
  | returned (value : Word) : HostTo s (hostReturns value s)
  /-- A byte of SRC that no run in progress reads takes a value (R176). -/
  | sourceByte (index : Word) (value : Byte) (hfree : s.lz.busy = false ∨ s.lz.srcLen.toNat ≤ index.toNat) :
      HostTo s { s with src := putSrcByte index.toNat value s.src }
  /-- An entry of T_IN takes a value (R33). -/
  | tileByte (index : BitVec 5) (value : Byte) :
      HostTo s { s with tile := { s.tile with tIn := Memory.put index.toNat value s.tile.tIn } }

theorem hostTo_writeReg (reg : Nat) (value : Word) (s : State) : HostTo s (writeReg reg value s) := by
  unfold writeReg
  split
  case h_5 => exact .tileLength value
  case h_6 => exact .ignored
  all_goals
    by_cases hbusy : s.lz.busy = true
    · rw [writeLzConfig_of_busy _ hbusy]
      exact .ignored
    · have hbusy := eq_false_of_ne_true hbusy
      rw [writeLzConfig_of_not_busy _ hbusy]
      exact .configured hbusy _ _ _ _

theorem exec_tileDec_of_len {s : State} (hlen : s.tile.len.toNat = 32) : exec .tileDec s = .next (decodeTile s) :=
  if_pos ((tileSizeOk_iff s.tile).2 hlen)

theorem exists_exec_tileDec (s : State) : ∃ t, exec .tileDec s = .next t ∧ HostTo s t := by
  by_cases hlen : s.tile.len.toNat = 32
  · exact ⟨_, exec_tileDec_of_len hlen, .tileDecoded⟩
  · exact ⟨_, exec_tileDec_of_len_ne hlen, .tileFaulted⟩

theorem exists_exec_lzStart (s : State) : ∃ t, exec .lzStart s = .next t ∧ HostTo s t := by
  by_cases hbusy : s.lz.busy = true
  · exact ⟨s, exec_lzStart_of_busy hbusy, .ignored⟩
  · have hbusy := eq_false_of_ne_true hbusy
    exact ⟨_, exec_lzStart_of_not_busy hbusy, .start hbusy⟩

theorem exists_hostWrite (reg : Nat) (value : Word) (s : State) :
    ∃ t, hostWrite exec reg value s = .next t ∧ HostTo s t := by
  unfold hostWrite
  cases hi : decodeHostWrite reg value with
  | none => exact ⟨_, rfl, hostTo_writeReg reg value s⟩
  | some i =>
    obtain ⟨-, -, rfl⟩ | rfl | ⟨word, rfl⟩ := decodeHostWrite_cases hi
    · exact exists_exec_lzStart s
    · exact exists_exec_tileDec s
    · exact ⟨_, rfl, .colour word⟩

/-- The model's answers to the host: a next state of the relation, or a refusal. -/
def HostAnswers (s : State) (o : Answer) : Prop := (∃ t, o = .next t ∧ HostTo s t) ∨ ∃ r, o = .refused r

theorem hostAnswers_next {s t : State} (h : HostTo s t) : HostAnswers s (.next t) := .inl ⟨t, rfl, h⟩

theorem hostAnswers_refused (s : State) (r : Refusal) : HostAnswers s (.refused r) := .inr ⟨r, rfl⟩

theorem hostAnswers_putSrc (index : Word) (value : Byte) (s : State) : HostAnswers s (hostPutSrc index value s) := by
  unfold hostPutSrc
  split
  · exact hostAnswers_refused ..
  next hfree =>
    refine hostAnswers_next (.sourceByte index value ?_)
    rw [Bool.and_eq_true, decide_eq_true_iff, not_and_or, Bool.not_eq_true, BitVec.lt_def, not_lt] at hfree
    exact hfree

theorem hostAnswers_readOut (index : Word) (s : State) : HostAnswers s (hostReadOut index s) := by
  unfold hostReadOut
  split_ifs
  · exact hostAnswers_refused ..
  · exact hostAnswers_refused ..
  · split
    · exact hostAnswers_refused ..
    · exact hostAnswers_next (.returned _)

theorem hostAnswers_readTIn (index : BitVec 5) (s : State) : HostAnswers s (hostReadTIn index s) := by
  unfold hostReadTIn
  split
  · exact hostAnswers_refused ..
  · exact hostAnswers_next (.returned _)

theorem hostAnswers_readTOut (index : BitVec 6) (s : State) : HostAnswers s (hostReadTOut index s) := by
  unfold hostReadTOut
  split_ifs
  · split
    · exact hostAnswers_refused ..
    · exact hostAnswers_next (.returned _)
  · exact hostAnswers_refused ..

theorem hostAnswers_hostAct {op : HostOp} (hyield : op ≠ .yield) (hreset : op ≠ .reset) (unitTurn : State → Answer)
    (s : State) : HostAnswers s (hostAct exec unitTurn op s) := by
  cases op with
  | write reg value => exact .inl (exists_hostWrite reg value s)
  | read reg => exact hostAnswers_next (.returned _)
  | putSrc index value => exact hostAnswers_putSrc index value s
  | readOut index => exact hostAnswers_readOut index s
  | putTIn index value => exact hostAnswers_next (.tileByte index value)
  | readTIn index => exact hostAnswers_readTIn index s
  | readTOut index => exact hostAnswers_readTOut index s
  | reset => exact absurd rfl hreset
  | yield => exact absurd rfl hyield

theorem hostTo_of_answers_next {s t : State} (h : HostAnswers s (.next t)) : HostTo s t := by
  obtain ⟨u, hu, ht⟩ | ⟨r, hr⟩ := h
  · cases hu
    exact ht
  · cases hr

/-! ### A run in progress -/

/-- A BUSY unit is reached by no interaction, and the slice's bytes are not written (log 10). -/
theorem HostTo.run_eq {s t : State} (h : HostTo s t) (hbusy : s.lz.busy = true) :
    t.lz = s.lz ∧ t.out = s.out ∧ t.outCap = s.outCap ∧
    ∀ a, a < s.lz.srcLen.toNat → srcByte t.src a = srcByte s.src a := by
  cases h with
  | start hnot | configured hnot => cases hbusy.symm.trans hnot
  | sourceByte index value hfree =>
    have hle : s.lz.srcLen.toNat ≤ index.toNat := hfree.resolve_left (by simp [hbusy])
    refine ⟨rfl, rfl, rfl, fun a ha => ?_⟩
    rw [srcByte_putSrcByte, if_neg (by omega)]
  | ignored | tileDecoded | tileFaulted | colour | tileLength | returned | tileByte =>
    exact ⟨rfl, rfl, rfl, fun _ _ => rfl⟩

/-- Settles O43: of the interactions LZ.START and the configuration writes reach the LZ unit, and not while BUSY. -/
theorem hostAccessesLeaveARunAlone : Obligations.HostAccessesLeaveARunAlone := by
  intro s t op rest hbusy hhost hyield hreset hstep
  have hanswers := hostAnswers_hostAct hyield hreset (lzTurnL0 exec) { s with host := rest }
  rw [← step_of_host hhost, hstep] at hanswers
  exact (hostTo_of_answers_next hanswers).run_eq hbusy

/-! ### SRC, OUT and the tile buffers -/

theorem hostPutSrc_of_busy {index : Word} {value : Byte} {s : State} (hbusy : s.lz.busy = true)
    (hlt : index.toNat < s.lz.srcLen.toNat) : hostPutSrc index value s = .refused .srcWriteWhileBusy :=
  if_pos (Bool.and_eq_true_iff.2 ⟨hbusy, decide_eq_true hlt⟩)

theorem hostPutSrc_of_free {index : Word} {value : Byte} {s : State}
    (hfree : s.lz.busy = false ∨ s.lz.srcLen.toNat ≤ index.toNat) :
    hostPutSrc index value s = .next { s with src := putSrcByte index.toNat value s.src } := by
  refine if_neg fun h => ?_
  obtain ⟨hbusy, hlt⟩ := Bool.and_eq_true_iff.1 h
  have hlt : index.toNat < s.lz.srcLen.toNat := of_decide_eq_true hlt
  obtain hnot | hle := hfree
  · cases hbusy.symm.trans hnot
  · omega

/-- Settles O55: the two branches of the write, and the one byte it changes. -/
theorem hostWritesOfSource : Obligations.HostWritesOfSource := by
  intro s rest index value hhost
  refine ⟨fun hbusy hlt => (step_of_host hhost).trans (hostPutSrc_of_busy hbusy hlt), fun hfree => ?_⟩
  refine ⟨_, (step_of_host hhost).trans (hostPutSrc_of_free hfree), ?_, fun a ha => ?_, rfl⟩
  · rw [srcByte_putSrcByte, if_pos rfl]
  · rw [srcByte_putSrcByte, if_neg ha]

theorem hostReadOut_of_valueAt {index : Word} {v : Byte} {s : State} (hbusy : s.lz.busy = false)
    (hlt : index.toNat < s.lz.olen.toNat) (hv : Memory.valueAt index.toNat s.out = some v) :
    hostReadOut index s = .next (hostReturns (v.setWidth 32) s) := by
  rw [hostReadOut, if_neg (ne_true_of_eq_false hbusy), if_neg (fun hle => hlt.not_ge (BitVec.le_def.1 hle)), hv]

/-- Settles O49: in a sound state every index below LZ_OLEN has a value. -/
theorem hostReadsOfOut : Obligations.HostReadsOfOut := by
  intro s rest index hhost
  refine ⟨fun hbusy => ?_, fun hbusy hle => ?_, fun hbusy hlt hsound => ?_⟩
  · exact (step_of_host hhost).trans (if_pos hbusy)
  · exact (step_of_host hhost).trans ((if_neg (ne_true_of_eq_false hbusy)).trans (if_pos (BitVec.le_def.2 hle)))
  · obtain ⟨v, hv⟩ := Option.isSome_iff_exists.1 (hsound.written _ hlt)
    exact ⟨v, hv, (step_of_host hhost).trans (hostReadOut_of_valueAt (s := { s with host := rest }) hbusy hlt hv)⟩

theorem hostReadTOut_of_valueAt {index : BitVec 6} {v : Index4} {s : State} (hdone : s.tile.status = .done)
    (hv : Memory.valueAt index.toNat s.tile.tOut = some v) :
    hostReadTOut index s = .next (hostReturns (v.setWidth 32) s) := by
  rw [hostReadTOut, if_pos hdone, hv]

theorem hostReadTIn_of_valueAt {index : BitVec 5} {v : Byte} {s : State}
    (hv : Memory.valueAt index.toNat s.tile.tIn = some v) :
    hostReadTIn index s = .next (hostReturns (v.setWidth 32) s) := by
  rw [hostReadTIn, hv]

theorem step_of_putTIn {s : State} {rest : List HostOp} {index : BitVec 5} {value : Byte}
    (hhost : s.host = .putTIn index value :: rest) :
    step s = .next { s with
      host := rest, tile := { s.tile with tIn := Memory.put index.toNat value s.tile.tIn } } :=
  step_of_host hhost

theorem step_of_readTIn {s : State} {rest : List HostOp} {index : BitVec 5} {v : Byte}
    (hhost : s.host = .readTIn index :: rest) (hv : Memory.valueAt index.toNat s.tile.tIn = some v) :
    step s = .next { s with host := rest, hostData := v.setWidth 32 } :=
  (step_of_host hhost).trans (hostReadTIn_of_valueAt (s := { s with host := rest }) hv)

/-- Settles O50: the read of T_OUT by T_STATUS; the write of T_IN, then the read of what it wrote. -/
theorem hostAccessesOfTileBuffers : Obligations.HostAccessesOfTileBuffers := by
  refine ⟨fun s rest index hhost => ⟨fun hnot => ?refused, fun v hdone hv => ?entry⟩,
    fun s rest index value hhost => ?readBack⟩
  case refused => exact (step_of_host hhost).trans (if_neg hnot)
  case entry => exact (step_of_host hhost).trans (hostReadTOut_of_valueAt (s := { s with host := rest }) hdone hv)
  case readBack =>
    have hread := step_of_readTIn (s := { s with
      host := .readTIn index :: rest, tile := { s.tile with tIn := Memory.put index.toNat value s.tile.tIn } })
      rfl (valueAt_put_same ..)
    exact ⟨_, (runs_succ_next (step_of_putTIn hhost)).trans (runs_succ_next hread), rfl,
      fun k hk => valueAt_put_other hk .., rfl⟩

end Sys2Proof.Proofs
end

section
/-! PROOF. The invariant of the whole machine (10_state.md section 8, 20_memory.md section 1) under every layout whose
runs are not empty, and at L0. -/

namespace Sys2Proof

open Sys2Proof.Machine Sys2Proof.Laws Sys2Proof.Proofs

/-! ### What the unit's turn leaves alone -/

/-- What no turn of the LZ unit changes: the other units, SRC, OUT_CAP, the host's fields, the configuration and
LZ_BASE (R10, R36 item 7, R41, R56). -/
def Proofs.SameSurroundings (s t : State) : Prop :=
  t.src = s.src ∧ t.outCap = s.outCap ∧ t.tile = s.tile ∧ t.cIn = s.cIn ∧ t.host = s.host ∧
  t.hostData = s.hostData ∧ t.lz.srcLen = s.lz.srcLen ∧ t.lz.start = s.lz.start ∧ t.lz.hintEn = s.lz.hintEn ∧
  t.lz.hint = s.lz.hint ∧ t.lz.base = s.lz.base

theorem Proofs.sameSurroundings_beginClass (cls : TokenClass) (n : Nat) (s : State) :
    SameSurroundings s (beginClass cls (advanceBy n (latchT0 s))) := by
  cases cls with
  | lit | terminator | unrecognised => exact ⟨rfl, rfl, rfl, rfl, rfl, rfl, rfl, rfl, rfl, rfl, rfl⟩
  | bref c p =>
    obtain ⟨-, hsrc, hcap, htile, hcIn, hhost, hdata, -, -, -, hsrcLen, hstart, hhintEn, hhint, hbase, -⟩ :=
      startCopy_frame c p (advanceBy n (latchT0 s))
    exact ⟨hsrc, hcap, htile, hcIn, hhost, hdata, hsrcLen, hstart, hhintEn, hhint, hbase⟩

theorem Proofs.TurnWith.sameSurroundings {L : Layout} {s t : State} (h : TurnWith L s t) :
    SameSurroundings s t := by
  cases h with
  | token => exact sameSurroundings_beginClass ..
  | _ => exact ⟨rfl, rfl, rfl, rfl, rfl, rfl, rfl, rfl, rfl, rfl, rfl⟩

/-- OUT and LZ_OLEN are as they were, or one byte has been appended (R42, R45). -/
def Proofs.Appends (s t : State) : Prop :=
  (t.lz.olen = s.lz.olen ∧ t.out = s.out) ∨
  (s.lz.olen.toNat < s.outCap.toNat ∧ t.lz.olen = s.lz.olen + 1 ∧ ∃ v, t.out = Memory.put s.lz.olen.toNat v s.out)

theorem Proofs.TurnWith.appends {L : Layout} {s t : State} (h : TurnWith L s t) : Appends s t := by
  cases h with
  | literalByte _ _ _ hout => exact .inr ⟨hout, rfl, _, rfl⟩
  | copyByte _ _ hout v _ => exact .inr ⟨hout, rfl, v, rfl⟩
  | token _ _ n f _ _ _ =>
    left
    cases f s.lz.olen with
    | lit | terminator | unrecognised => exact ⟨rfl, rfl⟩
    | bref c p =>
      obtain ⟨hout, -, -, -, -, -, -, holen, -⟩ := startCopy_frame c p (advanceBy n (latchT0 s))
      exact ⟨holen, hout⟩
  | _ => exact .inl ⟨rfl, rfl⟩

/-! ### OP -/

/-- The phase implies OP (R11). -/
def Proofs.OpMatchesPhase (s : State) : Prop :=
  (s.lz.phase = .runLit → s.lz.op = .lit) ∧ (s.lz.phase = .runCopy → s.lz.op = .bref)

theorem Proofs.opMatchesPhase_of_not_run {s : State} (hlit : s.lz.phase ≠ .runLit) (hcopy : s.lz.phase ≠ .runCopy) :
    OpMatchesPhase s :=
  ⟨fun h => absurd h hlit, fun h => absurd h hcopy⟩

theorem Proofs.opMatchesPhase_beginClass (cls : TokenClass) (s : State) :
    OpMatchesPhase (beginClass cls s) := by
  cases cls with
  | lit n => exact ⟨fun _ => rfl, nofun⟩
  | bref n p =>
    change OpMatchesPhase (startCopy n p s)
    rcases startCopy_cases n p s with ⟨-, he⟩ | ⟨-, he⟩ | ⟨-, -, he⟩ <;> rw [he]
    · exact opMatchesPhase_of_not_run (by simp) (by simp)
    · exact opMatchesPhase_of_not_run (by simp) (by simp)
    · exact ⟨nofun, fun _ => rfl⟩
  | terminator => exact opMatchesPhase_of_not_run (by simp [beginClass]) (by simp [beginClass])
  | unrecognised => exact opMatchesPhase_of_not_run (by simp [beginClass]) (by simp [beginClass])

/-- The end of a run step keeps the phase or goes back to FETCH. -/
theorem Proofs.opMatchesPhase_countByte {s : State} (h : OpMatchesPhase s) : OpMatchesPhase (countByte s) := by
  unfold OpMatchesPhase
  rw [countByte_lz_phase]
  split_ifs
  · exact ⟨nofun, nofun⟩
  · exact h

theorem Proofs.TurnWith.opMatchesPhase {L : Layout} {s t : State} (h : TurnWith L s t) (hs : OpMatchesPhase s) :
    OpMatchesPhase t := by
  cases h with
  | wait => exact hs
  | token => exact opMatchesPhase_beginClass ..
  | literalByte | copyByte => exact opMatchesPhase_countByte hs
  | hint | headerCut | payloadCut | full => exact opMatchesPhase_of_not_run (by simp) (by simp)

/-! ### The memories and the units under the turn -/

theorem MemorySound.of_turnWith {L : Layout} {s t : State} (hs : MemorySound s) (h : TurnWith L s t) :
    MemorySound t := by
  obtain ⟨hsrc, hcap, htile, -⟩ := h.sameSurroundings
  have hout : Memory.wf t.outCap.toNat t.out := by
    rw [hcap]
    rcases h.appends with ⟨-, hout⟩ | ⟨hlt, -, v, hout⟩ <;> rw [hout]
    · exact hs.out
    · exact wf_put hs.out hlt
  exact ⟨hsrc ▸ hs.src, hsrc ▸ hs.src_nonzero, hout, htile ▸ hs.tIn, htile ▸ hs.tOut⟩

theorem BlockSound.of_turnWith {L : Layout} {s t : State} (hL : L.contract) (hs : BlockSound s)
    (h : TurnWith L s t) : BlockSound t := by
  obtain ⟨-, hcap, htile, -⟩ := h.sameSurroundings
  obtain ⟨hlit, hbref⟩ := h.opMatchesPhase ⟨hs.op_lit, hs.op_bref⟩
  exact ⟨hcap ▸ hs.cap, hs.lz.turnWith hL h, hlit, hbref, ⟨htile ▸ hs.tile.cause_iff, htile ▸ hs.tile.tOut_none⟩,
    hs.mem.of_turnWith h⟩

/-! ### The host's interactions and reset -/

/-- LZ.START begins a sound run, whatever was there before (R102). -/
theorem Proofs.lzSound_startRun (s : State) : LzSound (startRun s) where
  sp_eq := by simp
  sp_le _ := by simp
  olen_le_cap := by simp
  olen_le_hint _ _ := by simp
  cnt_pos h := by simp at h
  cpy_lt h := nomatch h
  done_iff := by simp
  fault_iff := by simp
  faddr_zero _ := rfl
  written k hk := by simp at hk

/-- Between runs the configuration may take any value (R14). -/
theorem LzSound.configured {s : State} (hs : LzSound s) (hbusy : s.lz.busy = false) (hintEn : Bool)
    (srcLen start hint : Word) :
    LzSound { s with lz := { s.lz with hintEn := hintEn, srcLen := srcLen, start := start, hint := hint } } :=
  { hs with
    sp_le := fun h => nomatch hbusy.symm.trans h
    olen_le_hint := fun h => nomatch hbusy.symm.trans h }

theorem BlockSound.of_hostTo {s t : State} (hs : BlockSound s) (h : HostTo s t) : BlockSound t := by
  cases h with
  | ignored => exact hs
  | start hbusy =>
    exact { hs with
      lz := lzSound_startRun s, op_lit := nofun, op_bref := nofun
      tile := { hs.tile with }, mem := { hs.mem with } }
  | tileDecoded =>
    exact { hs with
      lz := { hs.lz with }, tile := ⟨by simp, fun h => absurd rfl h⟩
      mem := { hs.mem with tOut := wf_tileImage s.tile.tIn } }
  | tileFaulted =>
    exact { hs with
      lz := { hs.lz with }, tile := ⟨by simp, fun _ => rfl⟩
      mem := { hs.mem with tOut := by simp [Memory.wf] } }
  | configured hbusy hintEn srcLen start hint =>
    exact { hs with
      lz := hs.lz.configured hbusy hintEn srcLen start hint, tile := { hs.tile with }, mem := { hs.mem with } }
  | sourceByte index value =>
    exact { hs with
      lz := { hs.lz with }, tile := { hs.tile with }
      mem := { hs.mem with
        src := wf_putSrcByte hs.mem.src index.isLt, src_nonzero := nonzero_putSrcByte hs.mem.src_nonzero } }
  | tileByte index value =>
    exact { hs with
      lz := { hs.lz with }, tile := { hs.tile with }, mem := { hs.mem with tIn := wf_put hs.mem.tIn index.isLt } }
  | colour | tileLength | returned =>
    exact { hs with lz := { hs.lz with }, tile := { hs.tile with }, mem := { hs.mem with } }

/-- What the host still means to do is in no part of the invariant. -/
theorem BlockSound.withHost {s : State} (hs : BlockSound s) (rest : List HostOp) :
    BlockSound { s with host := rest } :=
  { hs with lz := { hs.lz with }, tile := { hs.tile with }, mem := { hs.mem with } }

theorem BlockSound.resetEvent {s : State} (hs : BlockSound s) : BlockSound (resetEvent s) :=
  have hreset := (machineSound_resetWith hs.cap).toBlockSound
  { hreset with
    lz := { hreset.lz with }, tile := { hreset.tile with }
    mem := { hreset.mem with src := hs.mem.src, src_nonzero := hs.mem.src_nonzero } }

/-! ### The step -/

/-- The steps of the machine under a layout: reset, an interaction of the host, a refusal, or the unit's turn, each
with an interaction taken off the host's list, if there is one. -/
theorem Proofs.stepWith_cases (L : Layout) (s : State) : ∃ rest,
    stepWith L s = lzTurnWith L { s with host := rest } ∨
    stepWith L s = .next (Machine.resetEvent { s with host := rest }) ∨
    HostAnswers { s with host := rest } (stepWith L s) := by
  cases hhost : s.host with
  | nil => exact ⟨[], .inl (stepWith_of_lzHasTurn (.inl ⟨hhost, rfl⟩))⟩
  | cons op rest =>
    refine ⟨rest, ?_⟩
    by_cases hyield : op = .yield
    · exact .inl (stepWith_of_lzHasTurn (.inr (hyield ▸ hhost)))
    · rw [stepWith_of_host hhost]
      by_cases hreset : op = .reset
      · subst hreset
        exact .inr (.inl rfl)
      · exact .inr (.inr (hostAnswers_hostAct hyield hreset _ _))

theorem Proofs.HostTo.outCap_eq {s t : State} (h : HostTo s t) : t.outCap = s.outCap := by
  cases h <;> rfl

theorem BlockSound.stepWith {L : Layout} {s t : State} (hL : L.contract) (hs : BlockSound s)
    (h : stepWith L s = .next t) : BlockSound t ∧ t.outCap = s.outCap := by
  obtain ⟨rest, hturn | hreset | hhost⟩ := stepWith_cases L s
  · have hnext : TurnWith L { s with host := rest } t := .of_next (hturn.symm.trans h)
    obtain ⟨-, hcap, -⟩ := hnext.sameSurroundings
    exact ⟨(hs.withHost rest).of_turnWith hL hnext, hcap⟩
  · cases hreset.symm.trans h
    exact ⟨(hs.withHost rest).resetEvent, rfl⟩
  · rw [h] at hhost
    have hnext := hostTo_of_answers_next hhost
    exact ⟨(hs.withHost rest).of_hostTo hnext, hnext.outCap_eq⟩

theorem BlockSound.stepWith_ne_fault {s : State} (hs : BlockSound s) (L : Layout) (f : Fault) :
    Machine.stepWith L s ≠ .fault f := by
  obtain ⟨rest, hturn | hreset | ⟨t, ht, -⟩ | ⟨r, hr⟩⟩ := stepWith_cases L s
  · obtain ⟨t, ht, -⟩ := (hs.withHost rest).lz.exists_turnWith L
    simp [hturn, ht]
  · simp [hreset]
  · simp [ht]
  · simp [hr]

theorem BlockSound.exists_stepWith_of_turn {s : State} (hs : BlockSound s) (L : Layout) {rest : List HostOp}
    (hturn : lzHasTurn rest s) : ∃ t, Machine.stepWith L s = .next t := by
  obtain ⟨t, ht, -⟩ := (hs.withHost rest).lz.exists_turnWith L
  exact ⟨t, (stepWith_of_lzHasTurn hturn).trans ht⟩

/-- Settles O57: the unit's turn keeps each part of the invariant, and so does what the host can do. -/
theorem Proofs.anyLayoutKeepsTheBlockSound : Obligations.AnyLayoutKeepsTheBlockSound := fun L _ hL hs =>
  ⟨fun _ h => hs.stepWith hL h, hs.stepWith_ne_fault L, fun _ hturn => hs.exists_stepWith_of_turn L hturn⟩

/-- Settles O36: the machine is the one at L0. -/
theorem Proofs.soundStateNeverFaults : Obligations.SoundStateNeverFaults := by
  intro s hs
  rw [← stepWith_l0]
  exact ⟨hs.stepWith_ne_fault _, fun _ hturn => hs.exists_stepWith_of_turn _ hturn⟩

/-! ### L0's bound of CNT -/

/-- A run of L0 is of at most 1024 bytes (R36 item 4). -/
def Proofs.CntBounded (s : State) : Prop :=
  s.lz.phase = .runLit ∨ s.lz.phase = .runCopy → s.lz.cnt.toNat ≤ Config.runMaxLong

theorem Proofs.cntBounded_of_not_run {s : State} (hlit : s.lz.phase ≠ .runLit) (hcopy : s.lz.phase ≠ .runCopy) :
    CntBounded s :=
  fun h => absurd h (not_or.2 ⟨hlit, hcopy⟩)

theorem Proofs.cntBounded_countByte {s : State} (hpos : 1 ≤ s.lz.cnt.toNat)
    (hle : s.lz.cnt.toNat ≤ Config.runMaxLong) : CntBounded (countByte s) := fun _ =>
  (countByte_cnt_toNat hpos).le.trans ((Nat.sub_le _ _).trans hle)

theorem MachineSound.cntBounded_of_turnTo {s t : State} (hs : MachineSound s) (h : TurnTo s t) : CntBounded t := by
  cases h with
  | wait => exact hs.cnt_le
  | literal _ _ _ _ _ _ c _ hc' => exact fun _ => hc'
  | copy _ _ n _ _ _ c _ hc' p =>
    rcases startCopy_cases c p (advanceBy n (latchT0 s)) with ⟨-, he⟩ | ⟨-, he⟩ | ⟨-, -, he⟩ <;> rw [he]
    · exact cntBounded_of_not_run (by simp) (by simp)
    · exact cntBounded_of_not_run (by simp) (by simp)
    · exact fun _ => hc'
  | literalByte hphase => exact cntBounded_countByte (hs.lz.cnt_pos (.inl hphase)) (hs.cnt_le (.inl hphase))
  | copyByte hphase => exact cntBounded_countByte (hs.lz.cnt_pos (.inr hphase)) (hs.cnt_le (.inr hphase))
  | hint | headerCut | terminator | reserved | payloadCut | full =>
    exact cntBounded_of_not_run (by simp) (by simp)

theorem MachineSound.withHost {s : State} (hs : MachineSound s) (rest : List HostOp) :
    MachineSound { s with host := rest } :=
  { hs.toBlockSound.withHost rest with cnt_le := hs.cnt_le }

theorem Proofs.CntBounded.of_hostTo {s t : State} (hs : CntBounded s) (h : HostTo s t) : CntBounded t := by
  cases h with
  | start => exact cntBounded_of_not_run (by simp) (by simp)
  | ignored | tileDecoded | tileFaulted | colour | configured | tileLength | returned | sourceByte | tileByte =>
    exact hs

/-- Settles O35: the machine is the one at L0, and its runs are those of L0's tokens. -/
theorem Proofs.stepKeepsInvariant : Obligations.StepKeepsInvariant := by
  intro s t hs hstep
  rw [← stepWith_l0] at hstep
  refine { (hs.toBlockSound.stepWith l0_contract hstep).1 with cnt_le := ?_ }
  obtain ⟨rest, hturn | hreset | hhost⟩ := stepWith_cases Layout.l0 s
  · rw [lzTurnWith_l0] at hturn
    exact (hs.withHost rest).cntBounded_of_turnTo (turnTo_of_next (hturn.symm.trans hstep))
  · cases hreset.symm.trans hstep
    exact fun _ => Nat.zero_le _
  · rw [hstep] at hhost
    exact CntBounded.of_hostTo (s := { s with host := rest }) hs.cnt_le (hostTo_of_answers_next hhost)

end Sys2Proof
end

section
/-! PROOF. What the LZ unit's turn and the instructions change and what they leave alone (20_memory.md sections 1, 2
and 8, 10_state.md section 1), and where a source exhaustion leaves SP (60_exceptions.md section 2). -/

namespace Sys2Proof.Proofs

open Sys2Proof.Machine Sys2Proof.Laws

/-! ### The step of the machine when it is the unit's turn -/

theorem turnTo_of_step {s t : State} {rest : List HostOp} (hturn : lzHasTurn rest s) (hstep : step s = .next t) :
    TurnTo { s with host := rest } t :=
  turnTo_of_next ((step_of_lzHasTurn hturn).symm.trans hstep)

theorem turnWith_of_step {s t : State} {rest : List HostOp} (hturn : lzHasTurn rest s) (hstep : step s = .next t) :
    TurnWith Layout.l0 { s with host := rest } t :=
  .of_next ((lzTurnWith_l0 _).trans ((step_of_lzHasTurn hturn).symm.trans hstep))

/-! ### OUT -/

/-- Settles O40: the turn appends a byte at LZ_OLEN, below OUT_CAP, or leaves OUT alone. -/
theorem outputIsOnlyAppended : Obligations.OutputIsOnlyAppended := by
  intro s t rest hturn hstep
  obtain hsame | ⟨hlt, holen, v, hout⟩ := (turnWith_of_step hturn hstep).appends
  · exact .inl hsame
  · refine .inr ⟨hlt, ?_, ?_, fun k hk => ?_⟩
    · rw [holen]
      exact toNat_succ_of_lt (y := s.outCap) hlt
    · rw [hout, valueAt_put_same]
      rfl
    · rw [hout]
      exact valueAt_put_other hk ..

/-! ### SP and LZ_CONSUMED -/

/-- SP and LZ_CONSUMED have both grown by `n` (R12, R24). -/
def Consumes (n : Nat) (s t : State) : Prop :=
  t.lz.sp = s.lz.sp + BitVec.ofNat 32 n ∧ t.lz.consumed = s.lz.consumed + BitVec.ofNat 32 n

theorem consumes_zero {s t : State} (hsp : t.lz.sp = s.lz.sp) (hconsumed : t.lz.consumed = s.lz.consumed) :
    Consumes 0 s t :=
  ⟨by simpa using hsp, by simpa using hconsumed⟩

/-- A turn of L0 reads at most the four bytes of the longest header (R69), all of them in the slice. -/
theorem exists_consumes_of_turnTo {s t : State} (h : TurnTo s t) : ∃ n, n ≤ 4 ∧ n ≤ bytesLeft s ∧ Consumes n s t := by
  cases h with
  | headerCut _ _ h3 => exact ⟨_, Nat.le_succ_of_le h3, le_rfl, rfl, rfl⟩
  | terminator _ _ n _ h4 hn | literal _ _ n _ h4 hn | reserved _ _ n _ h4 hn =>
    exact ⟨n, h4, Nat.le_sub_of_add_le' hn, rfl, rfl⟩
  | copy _ _ n _ h4 hn c _ _ p =>
    obtain ⟨-, -, -, -, -, -, -, -, hsp, hconsumed, -⟩ := startCopy_frame c p (advanceBy n (latchT0 s))
    exact ⟨n, h4, Nat.le_sub_of_add_le' hn, hsp, hconsumed⟩
  | literalByte _ _ hs => exact ⟨1, by decide, Nat.le_sub_of_add_le' hs, rfl, rfl⟩
  | wait | hint | payloadCut | full | copyByte =>
    exact ⟨0, Nat.zero_le _, Nat.zero_le _, consumes_zero rfl rfl⟩

/-- Settles O41: the turn's surroundings, and the bytes it reads, after which SP is still inside the slice. -/
theorem runLeavesSourceAndConfigurationAlone : Obligations.RunLeavesSourceAndConfigurationAlone := by
  intro s t rest hturn hstep
  obtain ⟨hsrc, hcap, htile, hcIn, hhost, hdata, hsrcLen, hstart, hhintEn, hhint, hbase⟩ :=
    (turnWith_of_step hturn hstep).sameSurroundings
  obtain ⟨n, h4, hleft, hsp, hconsumed⟩ := exists_consumes_of_turnTo (turnTo_of_step hturn hstep)
  refine ⟨hsrc, hsrcLen, hstart, hhintEn, hhint, hbase, hcap, htile, hcIn, hhost, hdata, n, h4, hleft, ?_, hconsumed⟩
  have hsrcLt := s.lz.srcLen.isLt
  have hspLt := s.lz.sp.isLt
  have hin : n ≤ s.lz.srcLen.toNat - s.lz.sp.toNat := hleft
  rw [hsp]
  exact toNat_add_ofNat (x := s.lz.sp) (by omega)

/-- In a sound BUSY unit every byte up to max(LZ_BASE, LZ_SRCLEN) has been read when the source is exhausted. -/
theorem sp_toNat_of_srcExhausted {s t : State} (hs : LzSound s) (hbusy : s.lz.busy = true) (h : TurnTo s t)
    (hcause : t.lz.cause = .srcExhausted) : t.lz.sp.toNat = max s.lz.base.toNat s.lz.srcLen.toNat := by
  have hnone : s.lz.cause ≠ .srcExhausted := by simp [hs.cause_none hbusy]
  have hspLe := hs.sp_le hbusy
  have hspEq := hs.sp_eq
  cases h with
  | headerCut =>
    have hlt := s.lz.srcLen.isLt
    have hspLt := s.lz.sp.isLt
    change (s.lz.sp + BitVec.ofNat 32 (s.lz.srcLen.toNat - s.lz.sp.toNat)).toNat = _
    rw [toNat_add_ofNat (by omega)]
    omega
  | payloadCut _ _ hx =>
    change s.lz.sp.toNat = _
    omega
  | copy _ _ n _ _ _ c _ _ p =>
    rcases startCopy_cases c p (advanceBy n (latchT0 s)) with ⟨-, he⟩ | ⟨-, he⟩ | ⟨-, -, he⟩ <;> rw [he] at hcause
    · cases hcause
    · cases hcause
    · exact absurd hcause hnone
  | reserved | full => cases hcause
  | wait | hint | terminator | literal | literalByte | copyByte => exact absurd hcause hnone

/-- Settles O39: a source exhaustion is a header or a payload byte that the end of the slice cuts off. -/
theorem sourceExhaustionLeavesSpAtTheEnd : Obligations.SourceExhaustionLeavesSpAtTheEnd :=
  fun s _ rest hs hturn hbusy hstep hcause =>
    sp_toNat_of_srcExhausted (s := { s with host := rest }) (hs.withHost rest).lz hbusy (turnTo_of_step hturn hstep)
      hcause

/-! ### The instructions -/

/-- What no token changes: everything but the LZ registers. -/
def OnlyLzRegisters (s t : State) : Prop := t = { s with lz := t.lz }

theorem onlyLzRegisters_startCopy (n : BitVec 11) (p : Int) (s : State) : OnlyLzRegisters s (startCopy n p s) := by
  rcases startCopy_cases n p s with ⟨-, he⟩ | ⟨-, he⟩ | ⟨-, -, he⟩ <;> rw [he] <;> rfl

theorem onlyLzRegisters_of_token {i : Instr} {s t : State} (hi : i.isToken = true) (h : exec i s = .next t) :
    OnlyLzRegisters s t := by
  rcases exec_token_cases hi s with he | ⟨n, -, -, he⟩ | ⟨n, p, -, -, -, he⟩ | he <;> cases he.symm.trans h
  · rfl
  · rfl
  · exact onlyLzRegisters_startCopy n p s
  · rfl

theorem onlyLzRegisters_of_lzStart {s t : State} (h : exec .lzStart s = .next t) : OnlyLzRegisters s t := by
  by_cases hbusy : s.lz.busy = true
  · cases (exec_lzStart_of_busy hbusy).symm.trans h
    rfl
  · cases (exec_lzStart_of_not_busy (eq_false_of_ne_true hbusy)).symm.trans h
    rfl

/-- TILE.DEC changes the TILE unit only. -/
theorem exec_tileDec_frame {s t : State} (h : exec .tileDec s = .next t) : t = { s with tile := t.tile } := by
  by_cases hlen : s.tile.len.toNat = 32
  · cases (exec_tileDec_of_len hlen).symm.trans h
    rfl
  · cases (exec_tileDec_of_len_ne hlen).symm.trans h
    rfl

/-- Settles O42: a token and LZ.START change LZ registers only, TILE.DEC the TILE unit only, COL.CONV C_IN only. -/
theorem instructionsStayInTheirUnit : Obligations.InstructionsStayInTheirUnit := by
  intro i s t h
  by_cases hlz : i.isToken = true ∨ i = .lzStart
  · have ht : OnlyLzRegisters s t := by
      obtain hi | rfl := hlz
      · exact onlyLzRegisters_of_token hi h
      · exact onlyLzRegisters_of_lzStart h
    rw [ht]
    refine ⟨rfl, rfl, rfl, rfl, rfl, fun _ => ⟨rfl, rfl⟩, ?_, ?_⟩
    · rintro rfl
      simp [Instr.isToken] at hlz
    · rintro ⟨word, rfl⟩
      simp [Instr.isToken] at hlz
  · cases i with
    | tileDec =>
      rw [exec_tileDec_frame h]
      exact ⟨rfl, rfl, rfl, rfl, rfl, fun hi => absurd hi hlz, fun _ => ⟨rfl, rfl⟩, by simp⟩
    | colConv word =>
      cases h
      exact ⟨rfl, rfl, rfl, rfl, rfl, fun hi => absurd hi hlz, nofun, fun _ => ⟨rfl, rfl⟩⟩
    | lzStart => exact absurd (.inr rfl) hlz
    | _ => exact absurd (.inl rfl) hlz

end Sys2Proof.Proofs
end

section
/-! PROOF. TILE.DEC with T_LEN = 32 (41_tile_decoder.md R90, R91, R93): every pixel as the bits of its row's four plane
bytes, which the pixels of a row give back. -/

namespace Sys2Proof.Proofs

open Sys2Proof.Machine Sys2Proof.Laws

theorem exec_tileDec_of_len_eq {s : State} (hlen : s.tile.len = 32) : exec .tileDec s = .next (decodeTile s) :=
  exec_tileDec_of_len (congrArg BitVec.toNat hlen)

/-! ### A pixel -/

/-- A pixel has a value exactly when the four plane bytes of its row have (R174, log 8). -/
theorem pixel_isSome_iff (tIn : Memory 8) (r x : Nat) :
    (pixel tIn r x).isSome = true ↔
      (Memory.valueAt (2 * r) tIn).isSome = true ∧ (Memory.valueAt (2 * r + 1) tIn).isSome = true ∧
      (Memory.valueAt (16 + 2 * r) tIn).isSome = true ∧ (Memory.valueAt (17 + 2 * r) tIn).isSome = true := by
  unfold pixel planeBit planeByte
  cases Memory.valueAt (2 * r) tIn <;> cases Memory.valueAt (2 * r + 1) tIn <;>
    cases Memory.valueAt (16 + 2 * r) tIn <;> cases Memory.valueAt (17 + 2 * r) tIn <;> simp

/-- The index of bits p3 p2 p1 p0, plane q in bit q (R91). -/
def indexOf (p0 p1 p2 p3 : Bool) : Index4 :=
  BitVec.ofBool p3 ++ BitVec.ofBool p2 ++ BitVec.ofBool p1 ++ BitVec.ofBool p0

theorem getLsbD_indexOf (p0 p1 p2 p3 : Bool) :
    (indexOf p0 p1 p2 p3).getLsbD 0 = p0 ∧ (indexOf p0 p1 p2 p3).getLsbD 1 = p1 ∧
    (indexOf p0 p1 p2 p3).getLsbD 2 = p2 ∧ (indexOf p0 p1 p2 p3).getLsbD 3 = p3 := by
  revert p0 p1 p2 p3; decide

theorem pixel_eq_indexOf {tIn : Memory 8} {r : Nat} {b0 b1 b2 b3 : Byte}
    (h0 : Memory.valueAt (2 * r) tIn = some b0) (h1 : Memory.valueAt (2 * r + 1) tIn = some b1)
    (h2 : Memory.valueAt (16 + 2 * r) tIn = some b2) (h3 : Memory.valueAt (17 + 2 * r) tIn = some b3) (x : Nat) :
    pixel tIn r x = some
      (indexOf (b0.getLsbD (7 - x)) (b1.getLsbD (7 - x)) (b2.getLsbD (7 - x)) (b3.getLsbD (7 - x))) := by
  simp [pixel, planeBit, planeByte, h0, h1, h2, h3, indexOf]

/-- Settles O45: each entry is the pixel of its row and column, whose bits are those of the four plane bytes. -/
theorem tileDecodeInterleavesThePlanes : Obligations.TileDecodeInterleavesThePlanes := by
  intro s f hlen hwritten
  refine ⟨_, exec_tileDec_of_len_eq hlen, fun r x hr hx => ?_, rfl⟩
  have hpixel := pixel_eq_indexOf (hwritten (2 * r) (by omega)) (hwritten (2 * r + 1) (by omega))
    (hwritten (16 + 2 * r) (by omega)) (hwritten (17 + 2 * r) (by omega)) x
  exact ⟨_, (valueAt_tileImage _ hr hx).trans hpixel, getLsbD_indexOf ..⟩

/-- Settles O46: each entry is the pixel of its row and column. -/
theorem tileEntryNeedsItsFourBytes : Obligations.TileEntryNeedsItsFourBytes := by
  intro s hlen
  refine ⟨_, exec_tileDec_of_len_eq hlen, rfl, fun r x hr hx => ?_⟩
  rw [decodeTile_tile, valueAt_tileImage _ hr hx]
  exact pixel_isSome_iff _ r x

/-! ### The planes from the pixels -/

/-- A pixel's bit q is the bit of plane q. -/
theorem planeBit_of_pixel {tIn : Memory 8} {r x : Nat} {v : Index4} (h : pixel tIn r x = some v) {q : Nat}
    (hq : q < 4) : planeBit tIn q r x = some (v.getLsbD q) := by
  simp only [pixel, Option.bind_eq_bind, Option.bind_eq_some_iff, Option.pure_def, Option.some.injEq] at h
  obtain ⟨p0, h0, p1, h1, p2, h2, p3, h3, rfl⟩ := h
  obtain ⟨e0, e1, e2, e3⟩ := getLsbD_indexOf p0 p1 p2 p3
  interval_cases q
  · exact h0.trans (congrArg some e0.symm)
  · exact h1.trans (congrArg some e1.symm)
  · exact h2.trans (congrArg some e2.symm)
  · exact h3.trans (congrArg some e3.symm)

/-- Every entry of T_IN is a plane byte of one of the eight rows (R90). -/
theorem exists_planeByte {k : Nat} (hk : k < 32) : ∃ q r, q < 4 ∧ r < 8 ∧ planeByte q r = k := by
  by_cases hlow : k < 16
  · rcases Nat.mod_two_eq_zero_or_one k with h | h
    · exact ⟨0, k / 2, by omega, by omega, by simp only [planeByte]; omega⟩
    · exact ⟨1, k / 2, by omega, by omega, by simp only [planeByte]; omega⟩
  · rcases Nat.mod_two_eq_zero_or_one k with h | h
    · exact ⟨2, (k - 16) / 2, by omega, by omega, by simp only [planeByte]; omega⟩
    · exact ⟨3, (k - 16) / 2, by omega, by omega, by simp only [planeByte]; omega⟩

/-- A byte is its eight bits, bit 7 - x for each column x. -/
theorem byte_eq_of_columns {b c : Byte} (h : ∀ x, x < 8 → b.getLsbD (7 - x) = c.getLsbD (7 - x)) : b = c := by
  refine BitVec.eq_of_getLsbD_eq fun i hi => ?_
  have hx := h (7 - i) (by omega)
  rwa [show 7 - (7 - i) = i by omega] at hx

/-- Settles O48: the eight pixels of a row have the bits of its four plane bytes. -/
theorem tileDeterminesItsBlock : Obligations.TileDeterminesItsBlock := by
  intro s s' t t' hlen hlen' hwritten hexec hexec' hsame k hk
  cases (exec_tileDec_of_len_eq hlen).symm.trans hexec
  cases (exec_tileDec_of_len_eq hlen').symm.trans hexec'
  obtain ⟨q, r, hq, hr, rfl⟩ := exists_planeByte hk
  have hbit (x : Nat) (hx : x < 8) : planeBit s.tile.tIn q r x = planeBit s'.tile.tIn q r x := by
    have hpixel : pixel s.tile.tIn r x = pixel s'.tile.tIn r x := by
      rw [← valueAt_tileImage _ hr hx, ← valueAt_tileImage _ hr hx]
      exact hsame (8 * r + x) (by omega)
    have hsome : (pixel s.tile.tIn r x).isSome = true := (pixel_isSome_iff _ r x).2
      ⟨(hwritten _ (by omega)).1, (hwritten _ (by omega)).1, (hwritten _ (by omega)).1, (hwritten _ (by omega)).1⟩
    obtain ⟨v, hv⟩ := Option.isSome_iff_exists.1 hsome
    rw [planeBit_of_pixel hv hq, planeBit_of_pixel (hpixel ▸ hv) hq]
  obtain ⟨b, hb⟩ := Option.isSome_iff_exists.1 (hwritten _ hk).1
  obtain ⟨c, hc⟩ := Option.isSome_iff_exists.1 (hwritten _ hk).2
  rw [hb, hc, byte_eq_of_columns (b := b) (c := c) fun x hx => by simpa [planeBit, hb, hc] using hbit x hx]

end Sys2Proof.Proofs
end

section
/-! PROOF. Runs with the host having nothing pending (42_lz_run_control.md section 7): each step is a turn of the LZ
unit, what every turn keeps holds at every moment, and every run ends. -/

namespace Sys2Proof.Proofs

open Sys2Proof.Machine Sys2Proof.Laws

/-! ### Steps and runs with nothing pending -/

theorem stepWith_of_turnWith {L : Layout} {s t : State} (hhost : s.host = []) (h : TurnWith L s t) :
    stepWith L s = .next t := by
  simp only [stepWith, turn, hhost]
  exact h.next

theorem step_of_turnWith {s t : State} (hhost : s.host = []) (h : TurnWith Layout.l0 s t) : step s = .next t :=
  (stepWith_l0 s).symm.trans (stepWith_of_turnWith hhost h)

theorem turnWith_of_step_of_host_nil {s t : State} (hhost : s.host = []) (h : step s = .next t) :
    TurnWith Layout.l0 s t :=
  .of_next ((lzTurnWith_l0 s).trans ((step_of_host_nil hhost).symm.trans h))

theorem TurnWith.host_eq {L : Layout} {s t : State} (h : TurnWith L s t) : t.host = s.host := by
  obtain ⟨-, -, -, -, hhost, -⟩ := h.sameSurroundings
  exact hhost

theorem exists_step_of_runs_succ {k : Nat} {s t : State} (h : runs (k + 1) s = .next t) :
    ∃ u, step s = .next u ∧ runs k u = .next t := by
  rw [runs_succ] at h
  cases hs : step s with
  | next u => exact ⟨u, rfl, by rwa [hs] at h⟩
  | fault r => rw [hs] at h; cases h
  | refused r => rw [hs] at h; cases h

/-- What every turn keeps holds after any number of steps. -/
theorem runs_keeps {p : State → Prop} (hturn : ∀ {s t : State}, TurnWith Layout.l0 s t → p s → p t) {k : Nat} :
    ∀ {s t : State}, s.host = [] → runs k s = .next t → p s → p t ∧ t.host = [] := by
  induction k with
  | zero =>
    intro s t hhost h hs
    cases h
    exact ⟨hs, hhost⟩
  | succ k ih =>
    intro s t hhost h hs
    obtain ⟨u, hu, hk⟩ := exists_step_of_runs_succ h
    have ht := turnWith_of_step_of_host_nil hhost hu
    exact ih (ht.host_eq.trans hhost) hk (hturn ht hs)

/-- One more step at the front of a run under a layout. -/
theorem runsWith_succ_next {P : Parameters} {k : Nat} {s t : State} (h : stepWith P.layout s = .next t) :
    runsWith P (k + 1) s = runsWith P k t := by
  have hstep : (machineWith P).step s = .next t := h
  simp only [runsWith, Host.Core.run, hstep]
  rfl

/-- The reference machine is the machine. -/
theorem runsWith_reference (k : Nat) (s : State) : runsWith Parameters.reference k s = runs k s := by
  change Host.Core.run { step := stepWith Layout.l0, reset := State.reset, .. } k s = runs k s
  rw [funext stepWith_l0]
  rfl

/-! ### The steps that are left -/

@[simp] theorem bytesLeft_advanceBy {n : Nat} {s : State} (hfit : s.lz.sp.toNat + n ≤ s.lz.srcLen.toNat) :
    bytesLeft (advanceBy n (latchT0 s)) = bytesLeft s - n := by
  have hlt := s.lz.srcLen.isLt
  have hsp : (s.lz.sp + BitVec.ofNat 32 n).toNat = s.lz.sp.toNat + n := toNat_add_ofNat (by omega)
  change s.lz.srcLen.toNat - (s.lz.sp + BitVec.ofNat 32 n).toNat = s.lz.srcLen.toNat - s.lz.sp.toNat - n
  rw [hsp, Nat.sub_add_eq]

/-- What a copy in progress still has to append. -/
def pendingCopy (s : State) : Nat := if s.lz.phase = .runCopy then s.lz.cnt.toNat else 0

theorem pendingCopy_of_not_runCopy {s : State} (h : s.lz.phase ≠ .runCopy) : pendingCopy s = 0 := if_neg h

/-- The end of a step of a literal run starts no copy. -/
theorem pendingCopy_countByte_of_runLit {s : State} (h : s.lz.phase = .runLit) : pendingCopy (countByte s) = 0 := by
  refine pendingCopy_of_not_runCopy ?_
  rw [countByte_lz_phase, h]
  split_ifs <;> simp

/-- A byte of a copy is one byte less pending. -/
theorem pendingCopy_countByte_lt {s : State} (h : s.lz.phase = .runCopy) (hcnt : 1 ≤ s.lz.cnt.toNat) :
    pendingCopy (countByte s) < pendingCopy s := by
  rw [pendingCopy, pendingCopy, if_pos h, countByte_cnt_toNat hcnt]
  split_ifs <;> omega

/-- A bound of the steps that a BUSY unit can still take, at `rate` steps for a byte of the slice that is left; a
copy reads none. -/
def stepsLeft (rate : Nat) (s : State) : Nat := rate * bytesLeft s + pendingCopy s + 1

/-- The header of a copy has paid for its run. -/
def CopiesPaid (rate : Nat) (L : Layout) : Prop :=
  ∀ (bs : List Byte) (f : Word → TokenClass) (olen : Word) (c : BitVec 11) (p : Int),
    (HeaderReader.fetch L.reader).feed bs = .ok (f, []) → f olen = .bref c p → c.toNat < rate * bs.length

/-- The run is over, or it goes on with fewer steps left than `bound`. -/
def EndsOrAdvances (rate bound : Nat) (s : State) : Prop :=
  (s.lz.phase = .done ∨ s.lz.phase = .fault) ∨ (s.lz.busy = true ∧ stepsLeft rate s < bound)

theorem mul_left_eq {rate left n : Nat} (h : n ≤ left) : rate * left = rate * (left - n) + rate * n := by
  rw [← Nat.mul_add, Nat.sub_add_cancel h]

/-- A class begins: a copy has the steps that its `n` header bytes pay for. -/
theorem endsOrAdvances_beginClass {rate n : Nat} {cls : TokenClass} {s : State} (hphase : s.lz.phase = .fetch)
    (hpos : 1 ≤ n) (hrate : 1 ≤ rate) (hfit : s.lz.sp.toNat + n ≤ s.lz.srcLen.toNat)
    (hpaid : ∀ c p, cls = .bref c p → c.toNat < rate * n) :
    EndsOrAdvances rate (stepsLeft rate s) (beginClass cls (advanceBy n (latchT0 s))) := by
  have hleft : n ≤ bytesLeft s := Nat.le_sub_of_add_le' hfit
  have hmul := mul_left_eq (rate := rate) hleft
  have hpay : 1 ≤ rate * n := Nat.mul_pos hrate hpos
  have hbytes := bytesLeft_advanceBy hfit
  have hs : stepsLeft rate s = rate * bytesLeft s + 1 := by simp [stepsLeft, pendingCopy, hphase]
  cases cls with
  | terminator => exact .inl (.inl rfl)
  | unrecognised => exact .inl (.inr rfl)
  | lit c =>
    refine .inr ⟨rfl, ?_⟩
    change rate * bytesLeft (advanceBy n (latchT0 s)) + 0 + 1 < _
    rw [hs, hbytes]
    omega
  | bref c p =>
    change EndsOrAdvances _ _ (startCopy c p _)
    rcases startCopy_cases c p (advanceBy n (latchT0 s)) with ⟨-, he⟩ | ⟨-, he⟩ | ⟨-, -, he⟩ <;> rw [he]
    · exact .inl (.inr rfl)
    · exact .inl (.inr rfl)
    · refine .inr ⟨rfl, ?_⟩
      have hc := hpaid c p rfl
      change rate * bytesLeft (advanceBy n (latchT0 s)) + c.toNat + 1 < _
      rw [hs, hbytes]
      omega

/-- The turn of a sound BUSY unit ends the run or takes one of the steps that are left. -/
theorem TurnWith.endsOrAdvances {L : Layout} {s t : State} {rate : Nat} (h : TurnWith L s t) (hrate : 1 ≤ rate)
    (hpaid : CopiesPaid rate L) (hs : LzSound s) (hbusy : s.lz.busy = true) :
    EndsOrAdvances rate (stepsLeft rate s) t := by
  cases h with
  | wait hnot => cases hbusy.symm.trans hnot
  | hint => exact .inl (.inl rfl)
  | headerCut | payloadCut | full => exact .inl (.inr rfl)
  | token hphase _ n f hpos hfit hfeed =>
    refine endsOrAdvances_beginClass hphase hpos hrate hfit fun c p hcls => ?_
    simpa using hpaid _ f _ c p hfeed hcls
  | literalByte hphase _ hsrc _ =>
    refine .inr ⟨busy_countByte (.inl hphase), ?_⟩
    have hmul := mul_left_eq (rate := rate) (n := 1) (left := bytesLeft s) (Nat.le_sub_of_add_le' hsrc)
    have hbytes : bytesLeft (countByte (appendByte (nextSourceByte s) (advanceSource s))) = bytesLeft s - 1 :=
      bytesLeft_advanceBy (n := 1) hsrc
    have hpending : pendingCopy (countByte (appendByte (nextSourceByte s) (advanceSource s))) = 0 :=
      pendingCopy_countByte_of_runLit hphase
    rw [stepsLeft, stepsLeft, hpending, hbytes]
    omega
  | copyByte hphase _ _ v _ =>
    refine .inr ⟨busy_countByte (.inr hphase), ?_⟩
    have hlt : pendingCopy (countByte (advanceCopy (appendByte v s))) < pendingCopy s :=
      pendingCopy_countByte_lt (s := advanceCopy (appendByte v s)) hphase (hs.cnt_pos (.inr hphase))
    exact Nat.succ_lt_succ (Nat.add_lt_add_left hlt _)

/-! ### Every run ends -/

theorem runsWith_of_waiting {P : Parameters} {s : State} (hhost : s.host = []) (hbusy : s.lz.busy = false)
    (k : Nat) : runsWith P k s = .next s := by
  induction k with
  | zero => rfl
  | succ k ih => exact (runsWith_succ_next (stepWith_of_turnWith hhost (.wait hbusy))).trans ih

/-- A unit with fewer than `k` steps left has ended after `k` steps, one that has ended waits (log 11). -/
theorem exists_runsWith_ended {P : Parameters} {rate : Nat} (hL : P.layout.contract) (hrate : 1 ≤ rate)
    (hpaid : CopiesPaid rate P.layout) (k : Nat) : ∀ s : State, s.host = [] → LzSound s →
      EndsOrAdvances rate (k + 1) s →
      ∃ t, runsWith P k s = .next t ∧ (t.lz.phase = .done ∨ t.lz.phase = .fault) := by
  induction k with
  | zero =>
    rintro s hhost hs (hended | ⟨-, hlt⟩)
    · exact ⟨s, rfl, hended⟩
    · unfold stepsLeft at hlt
      omega
  | succ k ih =>
    rintro s hhost hs (hended | ⟨hbusy, hlt⟩)
    · exact ⟨s, runsWith_of_waiting hhost (busy_eq_false_of_ended hended.symm) _, hended⟩
    · obtain ⟨u, -, hu⟩ := hs.exists_turnWith P.layout
      have hadv : EndsOrAdvances rate (k + 1) u :=
        (hu.endsOrAdvances hrate hpaid hs hbusy).imp_right fun ⟨hb, h⟩ => ⟨hb, by omega⟩
      obtain ⟨t, ht, hended⟩ := ih u (hu.host_eq.trans hhost) (hs.turnWith hL hu) hadv
      exact ⟨t, (runsWith_succ_next (stepWith_of_turnWith hhost hu)).trans ht, hended⟩

/-- From LZ.START, at `rate` steps for a byte of the slice. -/
theorem exists_run_ended {P : Parameters} {rate : Nat} (hL : P.layout.contract) (hrate : 1 ≤ rate)
    (hpaid : CopiesPaid rate P.layout) {s : State} (hbusy : s.lz.busy = false) (hhost : s.host = []) :
    ∃ t0 t, exec .lzStart s = .next t0 ∧
      runsWith P (rate * (s.lz.srcLen.toNat - s.lz.start.toNat) + 2) t0 = .next t ∧
      (t.lz.phase = .done ∨ t.lz.phase = .fault) := by
  obtain ⟨t, ht, hended⟩ := exists_runsWith_ended hL hrate hpaid
    (rate * (s.lz.srcLen.toNat - s.lz.start.toNat) + 2) (startRun s) hhost (lzSound_startRun s)
    (.inr ⟨rfl, by simp [stepsLeft, pendingCopy, bytesLeft]⟩)
  exact ⟨_, t, exec_lzStart_of_not_busy hbusy, ht, hended⟩

theorem feed_map {α β : Type} {f : α → β} (r : HeaderReader α) :
    ∀ {bs rest : List Byte} {b : β}, (r.map f).feed bs = .ok (b, rest) →
      ∃ a, r.feed bs = .ok (a, rest) ∧ b = f a := by
  induction r with
  | done a =>
    intro bs rest b h
    cases h
    exact ⟨a, rfl, rfl⟩
  | fetch k ih =>
    intro bs rest b h
    cases bs with
    | nil => cases h
    | cons c bs => exact ih c h

/-- L0's copies: three header bytes for at most 32 bytes, four for at most 1024 (R69). -/
theorem copiesPaid_l0 : CopiesPaid 344 Layout.l0 := by
  intro bs f olen c p hfeed hcls
  obtain ⟨i, hi, rfl⟩ := feed_map (f := classOf) (.fetch readHeader) hfeed
  cases bs with
  | nil => cases hi
  | cons b bs =>
    have hlen := decode_length (bs := b :: bs) hi
    cases i with
    | bref len dist =>
      cases hcls
      have := len.isLt
      rw [hlen, runLengthShort_toNat]
      simp only [tokenBytes, distanceBytes, List.length_cons, List.length_nil]
      omega
    | brefx len dist =>
      cases hcls
      have := len.isLt
      rw [hlen, runLengthLong_toNat]
      simp only [tokenBytes, longHeader, distanceBytes, List.length_append, List.length_cons, List.length_nil]
      omega
    | _ => cases hcls

/-- Any layout's copies: CNT counts at most 2047 bytes (log 4), and a header has at least its control byte. -/
theorem copiesPaid_of_cnt (L : Layout) : CopiesPaid 2048 L := by
  intro bs f olen c p hfeed _
  have hc := c.isLt
  cases bs with
  | nil => cases hfeed
  | cons b bs =>
    rw [List.length_cons]
    omega

/-- Settles O58: every header byte pays for the longest run that CNT can count. -/
theorem everyRunEndsUnderAnyLayout : Obligations.EveryRunEndsUnderAnyLayout := fun P _ hP hbusy hhost =>
  exists_run_ended hP.1 (by decide) (copiesPaid_of_cnt P.layout) hbusy hhost

/-- Settles O31: a header of L0 pays for its run at 344 steps a byte. -/
theorem everyRunEnds : Obligations.EveryRunEnds := by
  intro s hbusy hhost
  obtain ⟨t0, t, h0, ht, hended⟩ :=
    exists_run_ended (P := Parameters.reference) l0_contract (by decide) copiesPaid_l0 hbusy hhost
  exact ⟨t0, t, h0, (runsWith_reference _ _).symm.trans ht, hended⟩

end Sys2Proof.Proofs
end

section
/-! PROOF. The output of a run (42_lz_run_control.md section 7): every byte of it has been paid for with bytes of the
slice, three for a copy and one for a literal byte. -/

namespace Sys2Proof.Proofs

open Sys2Proof.Machine Sys2Proof.Laws

/-- With `copies` copies and `literals` literal bytes so far, the bytes read pay for the output and for what is
pending; SP is inside the slice. -/
structure OutputPaid (copies literals : Nat) (s : State) : Prop where
  read : s.lz.base.toNat + 3 * copies + literals ≤ s.lz.sp.toNat
  inside : s.lz.sp.toNat ≤ max s.lz.base.toNat s.lz.srcLen.toNat
  made : s.lz.olen.toNat + pendingCopy s ≤ 1024 * copies + literals

theorem sp_toNat_of_consumes {n : Nat} {s t : State} (hn : n ≤ bytesLeft s) (h : Consumes n s t) :
    t.lz.sp.toNat = s.lz.sp.toNat + n := by
  have hsrcLt := s.lz.srcLen.isLt
  have hspLt := s.lz.sp.isLt
  unfold bytesLeft at hn
  rw [h.1]
  exact toNat_add_ofNat (by omega)

/-- Bytes are read, no copy is in progress after it, and the output has not grown. -/
theorem OutputPaid.of_consumes {copies literals n : Nat} {s t : State} (hs : OutputPaid copies literals s)
    (hn : n ≤ bytesLeft s) (h : Consumes n s t) (hbase : t.lz.base = s.lz.base) (hsrcLen : t.lz.srcLen = s.lz.srcLen)
    (holen : t.lz.olen = s.lz.olen) (hphase : t.lz.phase ≠ .runCopy) : OutputPaid copies literals t := by
  obtain ⟨hread, hinside, hmade⟩ := hs
  have hsp := sp_toNat_of_consumes hn h
  unfold bytesLeft at hn
  constructor
  · rw [hbase, hsp]; omega
  · rw [hbase, hsrcLen, hsp]; omega
  · rw [holen, pendingCopy_of_not_runCopy hphase]; omega

/-- The turn of L0 that starts a copy has read at least three bytes and leaves at most 1024 pending. -/
theorem OutputPaid.startCopy {copies literals n : Nat} {s : State} (hs : OutputPaid copies literals s) (h3 : 3 ≤ n)
    (hfit : s.lz.sp.toNat + n ≤ s.lz.srcLen.toNat) {c : BitVec 11} (hc : c.toNat ≤ 1024) (p : Int) :
    ∃ copies', OutputPaid copies' literals (startCopy c p (advanceBy n (latchT0 s))) := by
  have hn : n ≤ bytesLeft s := Nat.le_sub_of_add_le' hfit
  rcases startCopy_cases c p (advanceBy n (latchT0 s)) with ⟨-, he⟩ | ⟨-, he⟩ | ⟨-, -, he⟩ <;> rw [he]
  · exact ⟨copies, hs.of_consumes hn ⟨rfl, rfl⟩ rfl rfl rfl (by simp)⟩
  · exact ⟨copies, hs.of_consumes hn ⟨rfl, rfl⟩ rfl rfl rfl (by simp)⟩
  · obtain ⟨hread, hinside, hmade⟩ := hs
    have hsp : (advanceBy n (latchT0 s)).lz.sp.toNat = s.lz.sp.toNat + n := sp_toNat_of_consumes hn ⟨rfl, rfl⟩
    refine ⟨copies + 1, ?_, ?_, ?_⟩
    · change s.lz.base.toNat + _ + _ ≤ (advanceBy n (latchT0 s)).lz.sp.toNat
      omega
    · change (advanceBy n (latchT0 s)).lz.sp.toNat ≤ max s.lz.base.toNat s.lz.srcLen.toNat
      omega
    · change s.lz.olen.toNat + c.toNat ≤ _
      omega

theorem OutputPaid.literalByte {copies literals : Nat} {s : State} (hs : OutputPaid copies literals s)
    (hphase : s.lz.phase = .runLit) (hsrc : s.lz.sp.toNat < s.lz.srcLen.toNat)
    (hout : s.lz.olen.toNat < s.outCap.toNat) :
    OutputPaid copies (literals + 1) (countByte (appendByte (nextSourceByte s) (advanceSource s))) := by
  obtain ⟨hread, hinside, hmade⟩ := hs
  have hsp : (s.lz.sp + 1).toNat = s.lz.sp.toNat + 1 := toNat_succ_of_lt (y := s.lz.srcLen) hsrc
  have holen : (s.lz.olen + 1).toNat = s.lz.olen.toNat + 1 := toNat_succ_of_lt (y := s.outCap) hout
  have hpending : pendingCopy (countByte (appendByte (nextSourceByte s) (advanceSource s))) = 0 :=
    pendingCopy_countByte_of_runLit hphase
  refine ⟨?_, ?_, ?_⟩
  · change s.lz.base.toNat + _ + _ ≤ (s.lz.sp + 1).toNat
    omega
  · change (s.lz.sp + 1).toNat ≤ max s.lz.base.toNat s.lz.srcLen.toNat
    omega
  · rw [hpending]
    change (s.lz.olen + 1).toNat + 0 ≤ _
    omega

theorem OutputPaid.copyByte {copies literals : Nat} {s : State} (hs : OutputPaid copies literals s) (v : Byte)
    (hphase : s.lz.phase = .runCopy) (hcnt : 1 ≤ s.lz.cnt.toNat) (hout : s.lz.olen.toNat < s.outCap.toNat) :
    OutputPaid copies literals (countByte (advanceCopy (appendByte v s))) := by
  obtain ⟨hread, hinside, hmade⟩ := hs
  have holen : (s.lz.olen + 1).toNat = s.lz.olen.toNat + 1 := toNat_succ_of_lt (y := s.outCap) hout
  have hlt : pendingCopy (countByte (advanceCopy (appendByte v s))) < pendingCopy s :=
    pendingCopy_countByte_lt (s := advanceCopy (appendByte v s)) hphase hcnt
  refine ⟨hread, hinside, ?_⟩
  change (s.lz.olen + 1).toNat + pendingCopy _ ≤ _
  omega

/-- Every turn of L0 pays for its output. -/
theorem OutputPaid.of_turnTo {copies literals : Nat} {s t : State} (hs : OutputPaid copies literals s)
    (hsound : LzSound s) (h : TurnTo s t) : ∃ copies' literals', OutputPaid copies' literals' t := by
  cases h with
  | wait => exact ⟨_, _, hs⟩
  | hint | payloadCut | full =>
    exact ⟨_, _, hs.of_consumes (Nat.zero_le _) (consumes_zero rfl rfl) rfl rfl rfl (by simp)⟩
  | headerCut => exact ⟨_, _, hs.of_consumes le_rfl ⟨rfl, rfl⟩ rfl rfl rfl (by simp)⟩
  | terminator _ _ n _ _ hn | literal _ _ n _ _ hn | reserved _ _ n _ _ hn =>
    exact ⟨_, _, hs.of_consumes (Nat.le_sub_of_add_le' hn) ⟨rfl, rfl⟩ rfl rfl rfl (by simp)⟩
  | copy _ _ n h3 _ hn c _ hc' p =>
    obtain ⟨copies', h⟩ := hs.startCopy h3 hn hc' p
    exact ⟨copies', _, h⟩
  | literalByte hphase _ hsrc hout => exact ⟨_, _, hs.literalByte hphase hsrc hout⟩
  | copyByte hphase _ hout v => exact ⟨_, _, hs.copyByte v hphase (hsound.cnt_pos (.inr hphase)) hout⟩

/-- What holds at every moment of a run that began with these registers. -/
structure RunFrom (base srcLen outCap : Word) (s : State) : Prop where
  sound : LzSound s
  base_eq : s.lz.base = base
  srcLen_eq : s.lz.srcLen = srcLen
  outCap_eq : s.outCap = outCap
  paid : ∃ copies literals, OutputPaid copies literals s

theorem RunFrom.of_turnWith {base srcLen outCap : Word} {s t : State} (h : TurnWith Layout.l0 s t)
    (hs : RunFrom base srcLen outCap s) : RunFrom base srcLen outCap t := by
  obtain ⟨hsound, hbase, hsrcLen, hcap, copies, literals, hpaid⟩ := hs
  obtain ⟨-, hcap', -, -, -, -, hsrcLen', -, -, -, hbase'⟩ := h.sameSurroundings
  have hturn : TurnTo s t := turnTo_of_next ((lzTurnWith_l0 s).symm.trans h.next)
  exact ⟨hsound.turnWith l0_contract h, hbase'.trans hbase, hsrcLen'.trans hsrcLen, hcap'.trans hcap,
    hpaid.of_turnTo hsound hturn⟩

theorem runFrom_startRun (s : State) : RunFrom s.lz.start s.lz.srcLen s.outCap (startRun s) where
  sound := lzSound_startRun s
  base_eq := rfl
  srcLen_eq := rfl
  outCap_eq := rfl
  paid := ⟨0, 0, by simp, by simp, by simp [pendingCopy]⟩

theorem RunFrom.olen_le {base srcLen outCap : Word} {s : State} (h : RunFrom base srcLen outCap s) :
    s.lz.olen.toNat ≤ min outCap.toNat
      (1024 * ((srcLen.toNat - base.toNat) / 3) + (srcLen.toNat - base.toNat)) := by
  obtain ⟨hsound, rfl, rfl, rfl, copies, literals, hread, hinside, hmade⟩ := h
  refine le_min hsound.olen_le_cap ?_
  omega

/-- Settles O32: at every moment the bytes read so far, at most S, have paid for the output. -/
theorem outputOfARunIsBounded : Obligations.OutputOfARunIsBounded := by
  intro s t0 t k hbusy hhost hstart hrun
  cases (exec_lzStart_of_not_busy hbusy).symm.trans hstart
  exact (runs_keeps RunFrom.of_turnWith (s := startRun s) hhost hrun (runFrom_startRun s)).1.olen_le

end Sys2Proof.Proofs
end

section
/-! PROOF. What a run depends on (42_lz_run_control.md section 7): two runs with the same inputs go the same way. -/

namespace Sys2Proof.Proofs

open Sys2Proof.Machine Sys2Proof.Laws

/-- Two states in which the LZ unit shows the same: its registers but for a hint that is not enabled, OUT_CAP, the
slice, and OUT below LZ_OLEN. -/
structure SameRun (hint : Word) (s s' : State) : Prop where
  lz : s'.lz = { s.lz with hint := hint }
  hint_eq : s.lz.hintEn = true → s.lz.hint = hint
  cap : s'.outCap = s.outCap
  src : ∀ a, a < s.lz.srcLen.toNat → srcByte s.src a = srcByte s'.src a
  out : ∀ a, a < s.lz.olen.toNat → Memory.valueAt a s.out = Memory.valueAt a s'.out

theorem srcBytes_congr {src src' : Memory 8} {a n : Nat}
    (h : ∀ k, a ≤ k → k < a + n → srcByte src k = srcByte src' k) : srcBytes src a n = srcBytes src' a n :=
  List.map_congr_left fun k hk => h _ (Nat.le_add_right a k) (Nat.add_lt_add_left (List.mem_range.1 hk) a)

theorem outBytes_congr {out out' : Memory 8} {n : Nat}
    (h : ∀ a, a < n → Memory.valueAt a out = Memory.valueAt a out') : outBytes out n = outBytes out' n := by
  induction n with
  | zero => rfl
  | succ n ih =>
    have hinit : outBytes out n = outBytes out' n := ih fun a ha => h a (Nat.lt_succ_of_lt ha)
    unfold outBytes at hinit ⊢
    rw [List.range_succ, List.mapM_append, List.mapM_append, hinit]
    simp [h n (Nat.lt_succ_self n)]

/-- One more byte, the same in both, at the index LZ_OLEN. -/
theorem valueAt_put_congr {out out' : Memory 8} {n : Nat} (v : Byte)
    (h : ∀ a, a < n → Memory.valueAt a out = Memory.valueAt a out') {a : Nat} (ha : a < n + 1) :
    Memory.valueAt a (Memory.put n v out) = Memory.valueAt a (Memory.put n v out') := by
  rw [valueAt_put, valueAt_put]
  split_ifs with hn
  · rfl
  · exact h a (by omega)

theorem SameRun.hintDue_iff {hint : Word} {s s' : State} (h : SameRun hint s s') : hintDue s' ↔ hintDue s := by
  unfold hintDue
  rw [h.lz]
  exact and_congr_right fun hen => by rw [h.hint_eq hen]

/-- The bytes of the slice that a header reads are the same. -/
theorem SameRun.srcBytes_eq {hint : Word} {s s' : State} (h : SameRun hint s s') {n : Nat} (hn : n ≤ bytesLeft s) :
    srcBytes s'.src s.lz.sp.toNat n = srcBytes s.src s.lz.sp.toNat n := by
  unfold bytesLeft at hn
  exact srcBytes_congr fun k _ hk => (h.src k (by omega)).symm

/-- The window check looks at LZ_OLEN alone, so it decides the same in two states. -/
theorem startCopy_cases_of_olen_eq (c : BitVec 11) (p : Int) {s s' : State} (holen : s'.lz.olen = s.lz.olen) :
    (startCopy c p s = lzFault .windowBeforeStart s ∧ startCopy c p s' = lzFault .windowBeforeStart s') ∨
    (startCopy c p s = lzFault .windowPastEnd s ∧ startCopy c p s' = lzFault .windowPastEnd s') ∨
    ∃ cpy, startCopy c p s = { s with lz := { s.lz with op := .bref, cnt := c, cpy := cpy, phase := .runCopy } } ∧
      startCopy c p s' = { s' with lz := { s'.lz with op := .bref, cnt := c, cpy := cpy, phase := .runCopy } } := by
  rcases startCopy_cases c p s with ⟨hneg, he⟩ | ⟨hle, he⟩ | ⟨h0, hlt, he⟩
  · exact .inl ⟨he, startCopy_of_neg hneg⟩
  · exact .inr (.inl ⟨he, startCopy_of_olen_le (by rwa [holen])⟩)
  · refine .inr (.inr ⟨_, he, (if_neg h0.not_gt).trans (if_neg ?_)⟩)
    rw [holen]
    exact hlt.not_ge

/-- A class begins the same in both. -/
theorem SameRun.beginClass {hint : Word} {s s' : State} (h : SameRun hint s s') (cls : TokenClass) (n : Nat) :
    SameRun hint (beginClass cls (advanceBy n (latchT0 s))) (beginClass cls (advanceBy n (latchT0 s'))) := by
  have holen : s'.lz.olen = s.lz.olen := by rw [h.lz]
  have hwindow (c : BitVec 11) (p : Int) := startCopy_cases_of_olen_eq c p (s := advanceBy n (latchT0 s))
    (s' := advanceBy n (latchT0 s')) holen
  obtain ⟨lz', out', tile', cIn', src', cap', host', hostData'⟩ := s'
  obtain ⟨rfl, hhint, rfl, hsrc, hout⟩ := h
  cases cls with
  | lit | terminator | unrecognised => exact ⟨rfl, hhint, rfl, hsrc, hout⟩
  | bref c p =>
    change SameRun hint (Machine.startCopy c p _) (Machine.startCopy c p _)
    rcases hwindow c p with ⟨he, he'⟩ | ⟨he, he'⟩ | ⟨cpy, he, he'⟩ <;> rw [he, he'] <;>
      exact ⟨rfl, hhint, rfl, hsrc, hout⟩

/-- The turn in the one state is a turn in the other: what it reads is in the slice, and a copy reads below LZ_OLEN. -/
theorem SameRun.exists_turnWith {hint : Word} {s s' t : State} (h : SameRun hint s s') (hs : LzSound s)
    (ht : TurnWith Layout.l0 s t) : ∃ t', TurnWith Layout.l0 s' t' ∧ SameRun hint t t' := by
  have hdue' := h.hintDue_iff.2
  have hnot := mt h.hintDue_iff.1
  have htoken := @TurnWith.token Layout.l0 s'
  have hcopy := @TurnWith.copyByte Layout.l0 s'
  have hbytes := @h.srcBytes_eq
  have hbegin := h.beginClass
  obtain ⟨lz', out', tile', cIn', src', cap', host', hostData'⟩ := s'
  obtain ⟨rfl, hhint, rfl, hsrc, hout⟩ := h
  cases ht with
  | wait hbusy => exact ⟨_, .wait hbusy, rfl, hhint, rfl, hsrc, hout⟩
  | hint hbusy hdue => exact ⟨_, .hint hbusy (hdue' hdue), rfl, hhint, rfl, hsrc, hout⟩
  | headerCut hphase hdue e hfeed =>
    refine ⟨_, .headerCut hphase (hnot hdue) e ?_, rfl, hhint, rfl, hsrc, hout⟩
    exact (congrArg _ (hbytes le_rfl)).trans hfeed
  | token hphase hdue n f hpos hfit hfeed =>
    refine ⟨_, htoken hphase (hnot hdue) n f hpos hfit ?_, hbegin (f s.lz.olen) n⟩
    exact (congrArg _ (hbytes (Nat.le_sub_of_add_le' hfit))).trans hfeed
  | payloadCut hphase hdue hx =>
    refine ⟨_, .payloadCut hphase (hnot hdue) hx, ?_⟩
    exact ⟨rfl, hhint, rfl, hsrc, hout⟩
  | full hphase hdue hx =>
    refine ⟨_, .full hphase (hnot hdue) hx, ?_⟩
    exact ⟨rfl, hhint, rfl, hsrc, hout⟩
  | literalByte hphase hdue hlt hroom =>
    refine ⟨_, .literalByte hphase (hnot hdue) hlt hroom, rfl, hhint, rfl, hsrc, fun a ha => ?_⟩
    have holen : (s.lz.olen + 1).toNat = s.lz.olen.toNat + 1 := toNat_succ_of_lt (y := s.outCap) hroom
    have hbyte : srcByte s.src s.lz.sp.toNat = srcByte src' s.lz.sp.toNat := hsrc _ hlt
    change Memory.valueAt a (Memory.put s.lz.olen.toNat (srcByte s.src s.lz.sp.toNat) s.out)
      = Memory.valueAt a (Memory.put s.lz.olen.toNat (srcByte src' s.lz.sp.toNat) out')
    rw [hbyte]
    exact valueAt_put_congr _ hout (holen ▸ ha)
  | copyByte hphase hdue hroom v hv =>
    have holen : (s.lz.olen + 1).toNat = s.lz.olen.toNat + 1 := toNat_succ_of_lt (y := s.outCap) hroom
    refine ⟨_, hcopy hphase (hnot hdue) hroom v ((hout _ (hs.cpy_lt hphase)).symm.trans hv), ?_⟩
    exact ⟨rfl, hhint, rfl, hsrc, fun a ha => valueAt_put_congr v hout (holen ▸ ha)⟩

/-- Both runs answer after any number of steps, in states that show the same. -/
theorem SameRun.exists_runs {hint : Word} (k : Nat) : ∀ {s s' : State}, SameRun hint s s' → LzSound s →
    s.host = [] → s'.host = [] →
    ∃ t t', runs k s = .next t ∧ runs k s' = .next t' ∧ SameRun hint t t' := by
  induction k with
  | zero => exact fun h _ _ _ => ⟨_, _, rfl, rfl, h⟩
  | succ k ih =>
    intro s s' h hs hhost hhost'
    obtain ⟨u, -, hu⟩ := hs.exists_turnWith Layout.l0
    obtain ⟨u', hu', hsame⟩ := h.exists_turnWith hs hu
    obtain ⟨t, t', ht, ht', hend⟩ :=
      ih hsame (hs.turnWith l0_contract hu) (hu.host_eq.trans hhost) (hu'.host_eq.trans hhost')
    exact ⟨t, t', (runs_succ_next (step_of_turnWith hhost hu)).trans ht,
      (runs_succ_next (step_of_turnWith hhost' hu')).trans ht', hend⟩

theorem SameRun.runResult_eq {hint : Word} {s s' : State} (h : SameRun hint s s') : runResult s = runResult s' := by
  unfold runResult
  rw [h.lz, outBytes_congr h.out]

/-- LZ.START leaves of the registers only the configuration. -/
theorem sameRun_startRun {s s' : State} (hsrcLen : s.lz.srcLen = s'.lz.srcLen) (hstart : s.lz.start = s'.lz.start)
    (hen : s.lz.hintEn = s'.lz.hintEn) (hhint : s.lz.hintEn = true → s.lz.hint = s'.lz.hint)
    (hcap : s.outCap = s'.outCap) (hsrc : ∀ a, a < s.lz.srcLen.toNat → srcByte s.src a = srcByte s'.src a) :
    SameRun s'.lz.hint (startRun s) (startRun s') where
  lz := by simp only [startRun, hsrcLen, hstart, hen]
  hint_eq := hhint
  cap := hcap.symm
  src := hsrc
  out a ha := by simp at ha

/-- Settles O33: what a turn does is decided by what the two states have in common. -/
theorem runDependsOnItsInputsOnly : Obligations.RunDependsOnItsInputsOnly := by
  intro s s' k hbusy hbusy' hhost hhost' hsrcLen hstart hen hhint hcap hsrc
  obtain ⟨t, t', ht, ht', hsame⟩ := (sameRun_startRun hsrcLen hstart hen hhint hcap hsrc).exists_runs k
    (lzSound_startRun s) hhost hhost'
  have hresult := hsame.runResult_eq
  obtain ⟨hlz, -, -, -, hout⟩ := hsame
  refine ⟨_, _, t, t', exec_lzStart_of_not_busy hbusy, exec_lzStart_of_not_busy hbusy', ht, ht', ?_⟩
  rw [hlz]
  exact ⟨rfl, rfl, rfl, rfl, rfl, rfl, rfl, rfl, hout, hresult⟩

end Sys2Proof.Proofs
end

section
/-! PROOF. What a size hint changes (42_lz_run_control.md sections 4 and 7): a turn that the hint does not end is the
turn of the unit without a hint. -/

namespace Sys2Proof.Proofs

open Sys2Proof.Machine Sys2Proof.Laws

theorem hintDue_withHint_iff (hint : Word) (s : State) :
    hintDue (withHint hint s) ↔ hint.toNat ≤ s.lz.olen.toNat := by
  simp [hintDue]

theorem withHint_beginClass (hint : Word) (cls : TokenClass) (s : State) :
    withHint hint (beginClass cls s) = beginClass cls (withHint hint s) := by
  cases cls with
  | lit | terminator | unrecognised => rfl
  | bref c p =>
    change withHint hint (startCopy c p s) = startCopy c p (withHint hint s)
    rcases startCopy_cases_of_olen_eq c p (s := s) (s' := withHint hint s) rfl with
      ⟨he, he'⟩ | ⟨he, he'⟩ | ⟨cpy, he, he'⟩ <;> rw [he, he'] <;> rfl

/-- The hint is in no part of a turn but its hint check (R104). -/
theorem TurnWith.withHint {hint : Word} {L : Layout} {s t : State} (h : TurnWith L s t) (hoff : s.lz.hintEn = false)
    (hlt : s.lz.olen.toNat < hint.toNat) : TurnWith L (withHint hint s) (withHint hint t) := by
  have hdue' : ¬ hintDue (Sys2Proof.withHint hint s) := mt (hintDue_withHint_iff hint s).1 hlt.not_ge
  cases h with
  | wait hbusy => exact .wait hbusy
  | hint _ hdue => cases hoff.symm.trans hdue.1
  | headerCut hphase _ e hfeed => exact .headerCut (s := Sys2Proof.withHint hint s) hphase hdue' e hfeed
  | token hphase _ n f hpos hfit hfeed =>
    rw [withHint_beginClass]
    exact .token (s := Sys2Proof.withHint hint s) hphase hdue' n f hpos hfit hfeed
  | payloadCut hphase _ hsrc => exact .payloadCut (s := Sys2Proof.withHint hint s) hphase hdue' hsrc
  | full hphase _ hout => exact .full (s := Sys2Proof.withHint hint s) hphase hdue' hout
  | literalByte hphase _ hsrc hout => exact .literalByte (s := Sys2Proof.withHint hint s) hphase hdue' hsrc hout
  | copyByte hphase _ hout v hv => exact .copyByte (s := Sys2Proof.withHint hint s) hphase hdue' hout v hv

theorem TurnWith.olen_le {L : Layout} {s t : State} (h : TurnWith L s t) : s.lz.olen.toNat ≤ t.lz.olen.toNat := by
  rcases h.appends with ⟨holen, -⟩ | ⟨hlt, holen, -⟩ <;> rw [holen]
  exact (toNat_succ_of_lt (y := s.outCap) hlt).symm ▸ Nat.le_succ _

theorem TurnWith.hintEn_eq {L : Layout} {s t : State} (h : TurnWith L s t) : t.lz.hintEn = s.lz.hintEn := by
  obtain ⟨-, -, -, -, -, -, -, -, hen, -⟩ := h.sameSurroundings
  exact hen

/-- A turn that appends a byte is one of a run, which goes on or is followed by a FETCH step. -/
theorem TurnWith.busy_of_olen_ne {L : Layout} {s t : State} (h : TurnWith L s t) (hne : t.lz.olen ≠ s.lz.olen) :
    t.lz.busy = true := by
  cases h with
  | literalByte hphase => exact busy_countByte (.inl hphase)
  | copyByte hphase => exact busy_countByte (.inr hphase)
  | token _ _ n f =>
    refine absurd ?_ hne
    cases f s.lz.olen with
    | lit | terminator | unrecognised => rfl
    | bref c p =>
      obtain ⟨-, -, -, -, -, -, -, holen, -⟩ := startCopy_frame c p (advanceBy n (latchT0 s))
      exact holen
  | wait | hint | headerCut | payloadCut | full => exact absurd rfl hne

/-- The first clause of the law: the output only grows, so it was below the hint at every step before. -/
theorem runs_withHint {hint : Word} {k : Nat} : ∀ {s t : State}, s.host = [] → s.lz.hintEn = false →
    runs k s = .next t → t.lz.olen.toNat < hint.toNat →
    runs k (withHint hint s) = .next (withHint hint t) := by
  induction k with
  | zero =>
    intro s t _ _ h _
    cases h
    rfl
  | succ k ih =>
    intro s t hhost hoff h hlt
    obtain ⟨u, hu, hk⟩ := exists_step_of_runs_succ h
    have hturn := turnWith_of_step_of_host_nil hhost hu
    have hhost' := hturn.host_eq.trans hhost
    have hgrows : u.lz.olen.toNat ≤ t.lz.olen.toNat := (runs_keeps
      (p := fun x => u.lz.olen.toNat ≤ x.lz.olen.toNat) (fun h hx => hx.trans h.olen_le) hhost' hk le_rfl).1
    have hltS : s.lz.olen.toNat < hint.toNat := (hturn.olen_le.trans hgrows).trans_lt hlt
    exact (runs_succ_next (step_of_turnWith (s := withHint hint s) hhost (hturn.withHint hoff hltS))).trans
      (ih hhost' (hturn.hintEn_eq.trans hoff) hk hlt)

/-- The second clause: the step that brings the output to the hint, and the hint check after it. -/
theorem runs_two_of_hint_reached {hint : Word} {t u : State} (hhost : t.host = []) (hoff : t.lz.hintEn = false)
    (hlt : t.lz.olen.toNat < hint.toNat) (hstep : step t = .next u) (hreached : u.lz.olen.toNat = hint.toNat) :
    runs 2 (withHint hint t) = .next (stopByHint (withHint hint u)) := by
  have hturn := turnWith_of_step_of_host_nil hhost hstep
  have hhost' : (withHint hint u).host = [] := hturn.host_eq.trans hhost
  have hne : u.lz.olen ≠ t.lz.olen := fun h => by rw [h] at hreached; omega
  have hbusy : (withHint hint u).lz.busy = true := hturn.busy_of_olen_ne hne
  have hdue : hintDue (withHint hint u) := (hintDue_withHint_iff hint u).2 hreached.ge
  have hfirst : step (withHint hint t) = .next (withHint hint u) :=
    step_of_turnWith (s := withHint hint t) hhost (hturn.withHint hoff hlt)
  have hsecond : step (withHint hint u) = .next (stopByHint (withHint hint u)) :=
    step_of_turnWith hhost' (.hint hbusy hdue)
  exact (runs_succ_next hfirst).trans (runs_succ_next hsecond)

/-- Settles O34: below the hint the two runs take the same turns. -/
theorem hintedRunIsAPrefix : Obligations.HintedRunIsAPrefix := by
  intro s t hint k hhost hoff hrun hlt
  have hbelow := runs_withHint hhost hoff hrun hlt
  obtain ⟨hoff', hhost'⟩ := runs_keeps (p := fun x => x.lz.hintEn = false)
    (fun h hx => h.hintEn_eq.trans hx) hhost hrun hoff
  exact ⟨hbelow, fun u hstep hreached =>
    (runs_add hbelow).trans (runs_two_of_hint_reached hhost' hoff' hlt hstep hreached)⟩

end Sys2Proof.Proofs
end

section
/-! PROOF. Whole tokens that fit, with no hint in force (42_lz_run_control.md section 7, 43_lz_tokens.md sections 2
and 3): a header step and one run step for every byte. -/

namespace Sys2Proof.Proofs

open Sys2Proof.Machine Sys2Proof.Laws

/-! ### The header step -/

theorem not_hintDue_of_off {s : State} (hoff : s.lz.hintEn = false) : ¬ hintDue s :=
  fun h => nomatch hoff.symm.trans h.1

/-- With nothing pending: T0 is latched, the header's bytes are counted, and the token's meaning runs. -/
theorem step_of_header {s : State} {n : Nat} {i : Instr} (hhost : s.host = []) (hphase : s.lz.phase = .fetch)
    (hoff : s.lz.hintEn = false) (hdecode : decode (srcBytes s.src s.lz.sp.toNat n) = .ok (i, []))
    (hfit : s.lz.sp.toNat + n ≤ s.lz.srcLen.toNat) : step s = exec i (advanceBy n (latchT0 s)) :=
  calc step s
    _ = lzTurnL0 exec s := step_of_host_nil hhost
    _ = fetchStep readHeader exec s := lzTurnL0_fetch hphase (not_hintDue_of_off hoff)
    _ = exec i (advanceBy n (latchT0 s)) := fetchStep_of_decode hdecode hfit

/-! ### The registers after a run -/

theorem add_one_add_ofNat (x : Word) (k : Nat) : x + 1 + BitVec.ofNat 32 k = x + BitVec.ofNat 32 (k + 1) := by
  rw [Nat.add_comm k 1, BitVec.ofNat_add, BitVec.add_assoc]
  rfl

theorem add_ofNat_add_ofNat (x : Word) (j k : Nat) :
    x + BitVec.ofNat 32 j + BitVec.ofNat 32 k = x + BitVec.ofNat 32 (j + k) := by
  rw [BitVec.ofNat_add, BitVec.add_assoc]

/-- A literal run of `n` bytes is over and has left `out`. -/
def afterLiteral (n : Nat) (out : List Host.Cell) (s : State) : State :=
  { s with out := out, lz := { s.lz with
      sp := s.lz.sp + BitVec.ofNat 32 n, consumed := s.lz.consumed + BitVec.ofNat 32 n,
      olen := s.lz.olen + BitVec.ofNat 32 n, cnt := 0, phase := .fetch } }

/-- A copy of `n` bytes is over and has left `out`. -/
def afterCopy (n : Nat) (out : List Host.Cell) (s : State) : State :=
  { s with out := out, lz := { s.lz with
      olen := s.lz.olen + BitVec.ofNat 32 n, cpy := s.lz.cpy + BitVec.ofNat 32 n, cnt := 0, phase := .fetch } }

/-! ### OUT after a run -/

/-- `out'` is `out` with the `n` entries from index `a` on given by `f`. -/
def Extends (n : Nat) (f : Nat → Option Byte) (a : Nat) (out out' : Memory 8) : Prop :=
  (∀ k, k < n → Memory.valueAt (a + k) out' = f k) ∧
  ∀ b, b < a ∨ a + n ≤ b → Memory.valueAt b out' = Memory.valueAt b out

theorem extends_zero (f : Nat → Option Byte) (a : Nat) (out : Memory 8) : Extends 0 f a out out :=
  ⟨fun _ hk => absurd hk (Nat.not_lt_zero _), fun _ _ => rfl⟩

/-- The first byte is written, then the others. -/
theorem extends_succ {n a : Nat} {f g : Nat → Option Byte} {v : Byte} {out out' : Memory 8} (h0 : f 0 = some v)
    (hg : ∀ k, g k = f (k + 1)) (h : Extends n g (a + 1) (Memory.put a v out) out') :
    Extends (n + 1) f a out out' := by
  obtain ⟨hnew, hold⟩ := h
  refine ⟨fun k hk => ?_, fun b hb => ?_⟩
  · cases k with
    | zero => rw [hold _ (.inl (by omega)), h0, Nat.add_zero, valueAt_put_same]
    | succ k => rw [← hg, ← hnew k (by omega), Nat.add_assoc, Nat.add_comm 1]
  · rw [hold b (by omega), valueAt_put_other (by omega)]

/-! ### A literal run -/

/-- `n` bytes of a literal run are left, in the slice and within OUT. -/
structure LiteralLeft (n : Nat) (s : State) : Prop where
  host : s.host = []
  off : s.lz.hintEn = false
  phase : s.lz.phase = if n = 0 then .fetch else .runLit
  cnt : s.lz.cnt.toNat = n
  src : s.lz.sp.toNat + n ≤ s.lz.srcLen.toNat
  out : s.lz.olen.toNat + n ≤ s.outCap.toNat

/-- PHASE after a byte of a run with `n + 1` bytes left. -/
theorem countByte_phase_eq {s : State} {n : Nat} {run : Phase} (hphase : s.lz.phase = run)
    (hcnt : s.lz.cnt.toNat = n + 1) : (countByte s).lz.phase = if n = 0 then .fetch else run := by
  rw [countByte_phase (by omega), hcnt, hphase]
  simp

theorem LiteralLeft.step {n : Nat} {s : State} (h : LiteralLeft (n + 1) s) :
    step s = .next (countByte (appendByte (nextSourceByte s) (advanceSource s))) ∧
    (s.lz.sp + 1).toNat = s.lz.sp.toNat + 1 ∧ (s.lz.olen + 1).toNat = s.lz.olen.toNat + 1 ∧
    LiteralLeft n (countByte (appendByte (nextSourceByte s) (advanceSource s))) := by
  obtain ⟨hhost, hoff, hphase, hcnt, hsrc, hout⟩ := h
  have hlt : s.lz.sp.toNat < s.lz.srcLen.toNat := by omega
  have hroom : s.lz.olen.toNat < s.outCap.toNat := by omega
  have hsp : (s.lz.sp + 1).toNat = s.lz.sp.toNat + 1 := toNat_succ_of_lt (y := s.lz.srcLen) hlt
  have holen : (s.lz.olen + 1).toNat = s.lz.olen.toNat + 1 := toNat_succ_of_lt (y := s.outCap) hroom
  refine ⟨step_of_turnWith hhost (.literalByte hphase (not_hintDue_of_off hoff) hlt hroom), hsp, holen,
    hhost, hoff, countByte_phase_eq hphase hcnt, ?_, ?_, ?_⟩
  · exact (countByte_cnt_toNat (s := appendByte _ (advanceSource s)) (hcnt ▸ Nat.succ_pos n)).trans (by
      change s.lz.cnt.toNat - 1 = n
      omega)
  · change (s.lz.sp + 1).toNat + n ≤ s.lz.srcLen.toNat
    omega
  · change (s.lz.olen + 1).toNat + n ≤ s.outCap.toNat
    omega

/-- What is left of a literal run moves its bytes to the end of OUT. -/
theorem exists_runs_literal (n : Nat) : ∀ {s : State}, LiteralLeft n s →
    ∃ out, runs n s = .next (afterLiteral n out s) ∧
      Extends n (fun k => some (srcByte s.src (s.lz.sp.toNat + k))) s.lz.olen.toNat s.out out := by
  induction n with
  | zero =>
    intro s h
    have hcnt : s.lz.cnt = 0 := BitVec.eq_of_toNat_eq h.cnt
    have hphase : s.lz.phase = .fetch := h.phase
    refine ⟨s.out, ?_, extends_zero ..⟩
    simp [afterLiteral, ← hcnt, ← hphase]
  | succ n ih =>
    intro s h
    obtain ⟨hstep, hsp, holen, hleft⟩ := h.step
    obtain ⟨out, hruns, hext⟩ := ih hleft
    refine ⟨out, ?_, extends_succ (v := nextSourceByte s) rfl (fun k => ?_) (holen ▸ hext)⟩
    · rw [runs_succ_next hstep, hruns]
      simp only [afterLiteral, countByte, appendByte, advanceSource, add_one_add_ofNat]
    · change some (srcByte s.src ((s.lz.sp + 1).toNat + k)) = _
      rw [hsp, Nat.add_assoc, Nat.add_comm 1]

/-! ### A copy -/

/-- `n` bytes of a copy are left, from a written byte on and within OUT. -/
structure CopyLeft (n : Nat) (s : State) : Prop where
  host : s.host = []
  off : s.lz.hintEn = false
  phase : s.lz.phase = if n = 0 then .fetch else .runCopy
  cnt : s.lz.cnt.toNat = n
  cpy : s.lz.cpy.toNat < s.lz.olen.toNat
  out : s.lz.olen.toNat + n ≤ s.outCap.toNat
  written : ∀ a, a < s.lz.olen.toNat → (Memory.valueAt a s.out).isSome = true

theorem CopyLeft.step {n : Nat} {s : State} (h : CopyLeft (n + 1) s) :
    ∃ v, Memory.valueAt s.lz.cpy.toNat s.out = some v ∧
      step s = .next (countByte (advanceCopy (appendByte v s))) ∧
      (s.lz.cpy + 1).toNat = s.lz.cpy.toNat + 1 ∧ (s.lz.olen + 1).toNat = s.lz.olen.toNat + 1 ∧
      CopyLeft n (countByte (advanceCopy (appendByte v s))) := by
  obtain ⟨hhost, hoff, hphase, hcnt, hcpy, hout, hwritten⟩ := h
  obtain ⟨v, hv⟩ := Option.isSome_iff_exists.1 (hwritten _ hcpy)
  have hroom : s.lz.olen.toNat < s.outCap.toNat := by omega
  have hcpy' : (s.lz.cpy + 1).toNat = s.lz.cpy.toNat + 1 := toNat_succ_of_lt (y := s.lz.olen) hcpy
  have holen : (s.lz.olen + 1).toNat = s.lz.olen.toNat + 1 := toNat_succ_of_lt (y := s.outCap) hroom
  refine ⟨v, hv, step_of_turnWith hhost (.copyByte hphase (not_hintDue_of_off hoff) hroom v hv), hcpy', holen,
    hhost, hoff, countByte_phase_eq hphase hcnt, ?_, ?_, ?_, fun a ha => ?_⟩
  · exact (countByte_cnt_toNat (s := advanceCopy (appendByte v s)) (hcnt ▸ Nat.succ_pos n)).trans (by
      change s.lz.cnt.toNat - 1 = n
      omega)
  · change (s.lz.cpy + 1).toNat < (s.lz.olen + 1).toNat
    omega
  · change (s.lz.olen + 1).toNat + n ≤ s.outCap.toNat
    omega
  · change a < (s.lz.olen + 1).toNat at ha
    change (Memory.valueAt a (Memory.put s.lz.olen.toNat v s.out)).isSome = true
    rw [valueAt_put]
    split_ifs with h
    · rfl
    · exact hwritten a (by omega)

/-- What is left of a copy repeats, byte for byte, what OUT holds from CPY on in the end. -/
theorem exists_runs_copy (n : Nat) : ∀ {s : State}, CopyLeft n s →
    ∃ out, runs n s = .next (afterCopy n out s) ∧
      Extends n (fun k => Memory.valueAt (s.lz.cpy.toNat + k) out) s.lz.olen.toNat s.out out := by
  induction n with
  | zero =>
    intro s h
    have hcnt : s.lz.cnt = 0 := BitVec.eq_of_toNat_eq h.cnt
    have hphase : s.lz.phase = .fetch := h.phase
    refine ⟨s.out, ?_, extends_zero ..⟩
    simp [afterCopy, ← hcnt, ← hphase]
  | succ n ih =>
    intro s h
    obtain ⟨v, hv, hstep, hcpy, holen, hleft⟩ := h.step
    obtain ⟨out, hruns, hext⟩ := ih hleft
    replace hext : Extends n (fun k => Memory.valueAt ((s.lz.cpy + 1).toNat + k) out) (s.lz.olen.toNat + 1)
      (Memory.put s.lz.olen.toNat v s.out) out := holen ▸ hext
    have hlt := h.cpy
    refine ⟨out, ?_, extends_succ (v := v) ?_ (fun k => ?_) hext⟩
    · rw [runs_succ_next hstep, hruns]
      simp only [afterCopy, countByte, appendByte, advanceCopy, add_one_add_ofNat]
    · rw [Nat.add_zero, hext.2 _ (.inl (by omega)), valueAt_put_other (by omega), hv]
    · rw [hcpy, Nat.add_assoc, Nat.add_comm 1]

/-! ### The tokens -/

/-- Both literal tokens of L0 are `startLiteral`; they differ in the length field. -/
theorem exists_exec_eq_startLiteral {i : Instr} {n : Nat} (s : State)
    (hi : (∃ len, i = .lit len ∧ n = len.toNat + 1) ∨ (∃ len, i = .litx len ∧ n = len.toNat + 1)) :
    ∃ c : BitVec 11, c.toNat = n ∧ exec i s = .next (startLiteral c s) := by
  obtain ⟨len, rfl, rfl⟩ | ⟨len, rfl, rfl⟩ := hi
  · exact ⟨_, runLengthShort_toNat len, rfl⟩
  · exact ⟨_, runLengthLong_toNat len, rfl⟩

/-- Settles O28: the header step starts the literal run, which moves the payload. -/
theorem literalTokenCopiesItsPayload : Obligations.LiteralTokenCopiesItsPayload := by
  intro s i h n hhost hphase hoff hdecode hi hsrc hout
  have hsrcLt := s.lz.srcLen.isLt
  have hcapLt := s.outCap.isLt
  obtain ⟨c, hc, hexec⟩ := exists_exec_eq_startLiteral (advanceBy h (latchT0 s)) hi
  have hstep := (step_of_header hhost hphase hoff hdecode (by omega)).trans hexec
  have hn : n ≠ 0 := by rcases hi with ⟨len, -, hn⟩ | ⟨len, -, hn⟩ <;> omega
  have hsp : (s.lz.sp + BitVec.ofNat 32 h).toNat = s.lz.sp.toNat + h := toNat_add_ofNat (by omega)
  have hleft : LiteralLeft n (startLiteral c (advanceBy h (latchT0 s))) :=
    ⟨hhost, hoff, (if_neg hn).symm, hc, hsp.symm ▸ hsrc, hout⟩
  obtain ⟨out, hruns, hnew, hold⟩ := exists_runs_literal n hleft
  refine ⟨_, (congrArg (runs · s) (Nat.add_comm 1 n)).trans ((runs_succ_next hstep).trans hruns), ?_,
    add_ofNat_add_ofNat .., toNat_add_ofNat (x := s.lz.olen) (by omega), fun k hk => ?_, hold, ?_⟩
  · change (s.lz.sp + BitVec.ofNat 32 h + BitVec.ofNat 32 n).toNat = _
    rw [toNat_add_ofNat (by omega), hsp]
  · exact (hnew k hk).trans (congrArg (fun a => some (srcByte s.src (a + k))) hsp)
  · simp only [afterLiteral, startLiteral, advanceBy, latchT0, hphase]

/-- Both back-reference tokens of L0 with a distance in the window start a copy from LZ_OLEN - d. -/
theorem exists_exec_eq_runCopy {i : Instr} {n : Nat} {dist : BitVec 16} (s : State) (hpos : 1 ≤ dist.toNat)
    (hle : dist.toNat ≤ s.lz.olen.toNat)
    (hi : (∃ len, i = .bref len dist ∧ n = len.toNat + 1) ∨ (∃ len, i = .brefx len dist ∧ n = len.toNat + 1)) :
    ∃ (c : BitVec 11) (p : Word), c.toNat = n ∧ p.toNat = s.lz.olen.toNat - dist.toNat ∧
      exec i s = .next { s with lz := { s.lz with op := .bref, cnt := c, cpy := p, phase := .runCopy } } := by
  obtain ⟨hshort, hlong⟩ := copyHeaderInWindowStartsARun
  obtain ⟨len, rfl, rfl⟩ | ⟨len, rfl, rfl⟩ := hi
  · exact hshort s len dist hpos hle
  · exact hlong s len dist hpos hle

/-- A run whose byte k is the byte d places before it repeats the last d bytes (R54). -/
theorem valueAt_of_extends {n d m : Nat} {out out' : Memory 8} (hd : 1 ≤ d) (hle : d ≤ m)
    (h : Extends n (fun k => Memory.valueAt (m - d + k) out') m out out') (k : Nat) (hk : k < n) :
    Memory.valueAt (m + k) out' = Memory.valueAt (m - d + k % d) out := by
  obtain ⟨hnew, hold⟩ := h
  induction k using Nat.strong_induction_on with
  | _ k ih =>
    have heq : Memory.valueAt (m + k) out' = Memory.valueAt (m - d + k) out' := hnew k hk
    rw [heq]
    by_cases hkd : k < d
    · rw [Nat.mod_eq_of_lt hkd, hold _ (.inl (by omega))]
    · rw [show m - d + k = m + (k - d) by omega, ih (k - d) (by omega) (by omega),
        ← Nat.mod_eq_sub_mod (not_lt.1 hkd)]

/-- Settles O29: the header step starts the copy d places before its destination. -/
theorem copyTokenRepeatsThePattern : Obligations.CopyTokenRepeatsThePattern := by
  intro s i h n dist hhost hphase hoff hdecode hi hsrc hpos hle hout hwritten
  have hsrcLt := s.lz.srcLen.isLt
  have hcapLt := s.outCap.isLt
  obtain ⟨c, p, hc, hp, hexec⟩ := exists_exec_eq_runCopy (advanceBy h (latchT0 s)) hpos hle hi
  have hstep := (step_of_header hhost hphase hoff hdecode hsrc).trans hexec
  have hn : n ≠ 0 := by rcases hi with ⟨len, -, hn⟩ | ⟨len, -, hn⟩ <;> omega
  have hp : p.toNat = s.lz.olen.toNat - dist.toNat := hp
  have hleft : CopyLeft n { advanceBy h (latchT0 s) with lz := { (advanceBy h (latchT0 s)).lz with
      op := .bref, cnt := c, cpy := p, phase := .runCopy } } :=
    ⟨hhost, hoff, (if_neg hn).symm, hc, hp ▸ (by omega : _ < s.lz.olen.toNat), hout, hwritten⟩
  obtain ⟨out, hruns, hext⟩ := exists_runs_copy n hleft
  replace hext : Extends n (fun k => Memory.valueAt (p.toNat + k) out) s.lz.olen.toNat s.out out := hext
  rw [hp] at hext
  refine ⟨_, (congrArg (runs · s) (Nat.add_comm 1 n)).trans ((runs_succ_next hstep).trans hruns), ?_, rfl, ?_,
    valueAt_of_extends hpos hle hext, hext.2, ?_⟩
  · exact toNat_add_ofNat (x := s.lz.sp) (by omega)
  · exact toNat_add_ofNat (x := s.lz.olen) (by omega)
  · simp only [afterCopy, advanceBy, latchT0, hphase]

end Sys2Proof.Proofs
end

section
/-! PROOF. The literal round trip (30_encoding.md section 8, 95_test_vectors.md V40): a stream of literal tokens
appends their payloads, token by token, and END ends the run. -/

namespace Sys2Proof.Proofs

open Sys2Proof.Machine Sys2Proof.Laws

/-! ### Bytes of the slice -/

theorem srcBytes_add (src : Memory 8) (a m n : Nat) :
    srcBytes src a (m + n) = srcBytes src a m ++ srcBytes src (a + m) n := by
  simp [srcBytes, List.range_add, Nat.add_assoc]

/-- What a slice holds, in two parts. -/
theorem srcBytes_eq_append {src : Memory 8} {a : Nat} {bs cs : List Byte}
    (h : srcBytes src a (bs ++ cs).length = bs ++ cs) :
    srcBytes src a bs.length = bs ∧ srcBytes src (a + bs.length) cs.length = cs := by
  rw [List.length_append, srcBytes_add] at h
  exact List.append_inj h (length_srcBytes ..)

theorem srcByte_of_srcBytes {src : Memory 8} {a : Nat} {bs : List Byte} (h : srcBytes src a bs.length = bs) {k : Nat}
    (hk : k < bs.length) : srcByte src (a + k) = bs[k] := by
  have hget : (srcBytes src a bs.length)[k]? = bs[k]? := congrArg (·[k]?) h
  simpa [srcBytes, hk] using hget

/-! ### A part of a stream -/

/-- From `s` to `t` a decoding has read `n` bytes and appended `bs`, and is between two tokens again. -/
structure Decodes (n : Nat) (bs : List Byte) (s t : State) : Prop where
  host : t.host = s.host
  phase : t.lz.phase = s.lz.phase
  off : t.lz.hintEn = s.lz.hintEn
  src : t.src = s.src
  srcLen : t.lz.srcLen = s.lz.srcLen
  cap : t.outCap = s.outCap
  sp : t.lz.sp.toNat = s.lz.sp.toNat + n
  consumed : t.lz.consumed = s.lz.consumed + BitVec.ofNat 32 n
  olen : t.lz.olen.toNat = s.lz.olen.toNat + bs.length
  new : ∀ (j : Nat) (h : j < bs.length), Memory.valueAt (s.lz.olen.toNat + j) t.out = some bs[j]
  old : ∀ a, a < s.lz.olen.toNat → Memory.valueAt a t.out = Memory.valueAt a s.out

theorem Decodes.refl (s : State) : Decodes 0 [] s s :=
  ⟨rfl, rfl, rfl, rfl, rfl, rfl, rfl, by simp, rfl, fun _ h => absurd h (Nat.not_lt_zero _), fun _ _ => rfl⟩

theorem Decodes.trans {m n : Nat} {bs cs : List Byte} {s t u : State} (h : Decodes m bs s t)
    (h' : Decodes n cs t u) : Decodes (m + n) (bs ++ cs) s u where
  host := h'.host.trans h.host
  phase := h'.phase.trans h.phase
  off := h'.off.trans h.off
  src := h'.src.trans h.src
  srcLen := h'.srcLen.trans h.srcLen
  cap := h'.cap.trans h.cap
  sp := by rw [h'.sp, h.sp, Nat.add_assoc]
  consumed := by rw [h'.consumed, h.consumed, add_ofNat_add_ofNat]
  olen := by rw [h'.olen, h.olen, List.length_append, Nat.add_assoc]
  new j hj := by
    have holen := h.olen
    rw [List.length_append] at hj
    by_cases hlt : j < bs.length
    · rw [h'.old _ (by omega), h.new j hlt, List.getElem_append_left hlt]
    · have hnew := h'.new (j - bs.length) (by omega)
      rw [holen, show s.lz.olen.toNat + bs.length + (j - bs.length) = s.lz.olen.toNat + j by omega] at hnew
      rw [hnew, List.getElem_append_right (not_lt.1 hlt)]
  old a ha := (h'.old a (by have := h.olen; omega)).trans (h.old a ha)

/-- Between two tokens, with nothing pending, no hint, these bytes next in the slice and room for the payload. -/
structure ReadyFor (bytes : List Byte) (room : Nat) (s : State) : Prop where
  host : s.host = []
  phase : s.lz.phase = .fetch
  off : s.lz.hintEn = false
  stream : streamAt s bytes
  out : s.lz.olen.toNat + room ≤ s.outCap.toNat

/-- After the first part of a stream the unit is ready for the rest. -/
theorem ReadyFor.of_decodes {bs cs payload : List Byte} {room : Nat} {s t : State}
    (h : ReadyFor (bs ++ cs) (payload.length + room) s) (ht : Decodes bs.length payload s t) : ReadyFor cs room t where
  host := ht.host.trans h.host
  phase := ht.phase.trans h.phase
  off := ht.off.trans h.off
  stream := by
    obtain ⟨hbytes, hfit⟩ := h.stream
    rw [List.length_append] at hfit
    refine ⟨?_, ?_⟩
    · rw [ht.src, ht.sp]
      exact (srcBytes_eq_append hbytes).2
    · rw [ht.sp, ht.srcLen, Nat.add_assoc]
      exact hfit
  out := by
    have hout := h.out
    rw [ht.olen, ht.cap]
    omega

/-! ### A literal token -/

/-- The one literal token of R75 for 1 to 1024 bytes. -/
theorem exists_literalToken {payload : List Byte} (hpos : payload.length ≠ 0) (hle : payload.length ≤ 1024) :
    ∃ i : Instr, literalToken payload = tokenBytes i ++ payload ∧ i.wellFormed = true ∧ i.isToken = true ∧
      ((∃ len, i = .lit len ∧ payload.length = len.toNat + 1) ∨
        ∃ len, i = .litx len ∧ payload.length = len.toNat + 1) := by
  unfold literalToken
  split_ifs with hshort
  · refine ⟨_, rfl, rfl, rfl, .inl ⟨_, rfl, ?_⟩⟩
    unfold Config.runMaxShort at hshort
    rw [BitVec.toNat_ofNat]
    omega
  · refine ⟨_, rfl, rfl, rfl, .inr ⟨_, rfl, ?_⟩⟩
    rw [BitVec.toNat_ofNat]
    omega

theorem exists_runs_literalToken {payload rest : List Byte} {room : Nat} {s : State} (hpos : payload.length ≠ 0)
    (hle : payload.length ≤ 1024) (h : ReadyFor (literalToken payload ++ rest) (payload.length + room) s) :
    ∃ k t, runs k s = .next t ∧ Decodes (literalToken payload).length payload s t := by
  obtain ⟨i, htoken, hw, ht, hi⟩ := exists_literalToken hpos hle
  obtain ⟨hhost, hphase, hoff, ⟨hbytes, hfit⟩, hout⟩ := h
  have hheader := (srcBytes_eq_append hbytes).1
  rw [htoken] at hheader hfit ⊢
  obtain ⟨hheader, hpayload⟩ := srcBytes_eq_append hheader
  have hdecode : decode (srcBytes s.src s.lz.sp.toNat (tokenBytes i).length) = .ok (i, []) := by
    have hdec := decode_tokenBytes_append hw ht []
    rwa [List.append_nil, ← hheader] at hdec
  rw [List.length_append, List.length_append] at hfit
  obtain ⟨t, hruns, hsp, hconsumed, holen, hnew, hold, hframe⟩ :=
    literalTokenCopiesItsPayload s i _ _ hhost hphase hoff hdecode hi (by omega) (by omega)
  refine ⟨_, t, hruns, ?_⟩
  rw [List.length_append]
  exact {
    host := by rw [hframe]
    phase := by rw [hframe]
    off := by rw [hframe]
    src := by rw [hframe]
    srcLen := by rw [hframe]
    cap := by rw [hframe]
    sp := by rw [hsp, Nat.add_assoc]
    consumed := hconsumed
    olen := holen
    new := fun j hj => by rw [hnew j hj, srcByte_of_srcBytes hpayload hj]
    old := fun a ha => hold a (.inl ha) }

/-- LITERAL (R75), token by token. -/
theorem exists_runs_literalTokens (fuel : Nat) : ∀ {payload rest : List Byte} {s : State},
    payload.length ≤ fuel → ReadyFor (literalTokens fuel payload ++ rest) payload.length s →
    ∃ k t, runs k s = .next t ∧ Decodes (literalTokens fuel payload).length payload s t := by
  induction fuel with
  | zero =>
    intro payload rest s hlen _
    obtain rfl := List.length_eq_zero_iff.1 (Nat.le_zero.1 hlen)
    exact ⟨0, s, rfl, .refl s⟩
  | succ fuel ih =>
    intro payload rest s hlen hready
    by_cases hnil : payload.length = 0
    · obtain rfl := List.length_eq_zero_iff.1 hnil
      exact ⟨0, s, rfl, .refl s⟩
    · have htokens : literalTokens (fuel + 1) payload = literalToken (payload.take Config.runMaxLong) ++
          literalTokens fuel (payload.drop Config.runMaxLong) := if_neg hnil
      have htake : (payload.take Config.runMaxLong).length = min 1024 payload.length := List.length_take
      have hdrop : (payload.drop Config.runMaxLong).length = payload.length - 1024 := List.length_drop
      have hsplit : payload.length =
          (payload.take Config.runMaxLong).length + (payload.drop Config.runMaxLong).length := by omega
      rw [htokens, List.append_assoc, hsplit] at hready
      obtain ⟨k, t, hruns, ht⟩ := exists_runs_literalToken (by omega) (by omega) hready
      obtain ⟨k', u, hruns', hu⟩ := ih (by omega) (hready.of_decodes ht)
      refine ⟨k + k', u, (runs_add hruns).trans hruns', ?_⟩
      have htrans := ht.trans hu
      rwa [List.take_append_drop, ← List.length_append, ← htokens] at htrans

/-! ### The whole stream -/

/-- END as the last byte of the stream (R126). -/
theorem runs_end {s : State} (h : ReadyFor [0xFF] 0 s) :
    runs 1 s = .next (stopByTerminator (advanceBy 1 (latchT0 s))) := by
  obtain ⟨hhost, hphase, hoff, ⟨hbytes, hfit⟩, -⟩ := h
  have hdecode : decode (srcBytes s.src s.lz.sp.toNat 1) = .ok (.endStream, []) := (congrArg decode hbytes).trans rfl
  exact runs_succ_next ((step_of_header hhost hphase hoff hdecode hfit).trans (exec_endStream _))

/-- Settles O30: the tokens of LITERAL one after the other, then END. -/
theorem literalStreamDecodesToItsBytes : Obligations.LiteralStreamDecodesToItsBytes := by
  intro s payload hhost hphase hoff hstream hout
  have hready : ReadyFor (literalStream payload ++ [0xFF]) payload.length s := ⟨hhost, hphase, hoff, hstream, hout⟩
  obtain ⟨k, t, hruns, ht⟩ := exists_runs_literalTokens payload.length le_rfl hready
  have hend := ReadyFor.of_decodes (room := 0) hready ht
  have hfit : t.lz.sp.toNat + 1 ≤ t.lz.srcLen.toNat := hend.stream.2
  have hsrcLt := t.lz.srcLen.isLt
  refine ⟨k + 1, _, (runs_add hruns).trans (runs_end hend), rfl, rfl, ht.olen, ?_, ?_, ht.new, ht.old⟩
  · change (t.lz.sp + BitVec.ofNat 32 1).toNat = _
    rw [toNat_add_ofNat (by omega), ht.sp]
    rfl
  · change t.lz.consumed + BitVec.ofNat 32 1 = _
    rw [ht.consumed, add_ofNat_add_ofNat]
    rfl

end Sys2Proof.Proofs
end
